-- ==== Sys2Proof/Word.lean ====
section
/-! DEFINITION. The bit-vector types of the engine: a byte of a stream, the 64-bit machine word (`XLEN = 64`, 00_scope.md
R7) and the 16-bit command word (30_encoding.md R81). -/

namespace Sys2Proof

/-- One byte of a store. Its first bit in stream order is bit 7 (00_scope.md R11). -/
abbrev Byte := BitVec 8

/-- The machine word: `R.buf`, `ARG` and `RES` (00_scope.md R7). -/
abbrev Word := BitVec 64

/-- A command word `CMD` (30_encoding.md R81). -/
abbrev Cmd := BitVec 16

end Sys2Proof
end

