-- ==== Sys2Proof/Syntax.lean ====
section
/-! DEFINITION. The commands of BCE: one constructor for each row of the opcode map (30_encoding.md R94), with the value types
that READ, PEEK and WRITE name (00_scope.md R10). The operands are the fields of the command word and, where the command
uses it, the argument `ARG` of the same transaction (30_encoding.md R80, R86). -/

namespace Sys2Proof

/-- The size code of a value type: `tsize` 0, 1, 2, 3 (30_encoding.md R84). -/
inductive TSize where
  | b8
  | b16
  | b32
  | b64
deriving DecidableEq, Repr

/-- The value types of 00_scope.md R10: category U or S with any size, category F with 32 or 64 bits only. -/
inductive VType where
  | unsigned (ts : TSize)
  | signed (ts : TSize)
  | f32
  | f64
deriving DecidableEq, Repr

/-- The 14 commands as 23 rows (30_encoding.md R82, R94). `width` is the number in the field of R85, which the encoding
limits to 0..127 (`Instr.wf`); `arg` is `ARG`, for the commands that use it (R86). -/
inductive Instr where
  | rpos
  | ravail
  | rseek (arg : Word)
  | rskip (arg : Word)
  | ralign (arg : Word)
  | readU (ts : TSize) (width : Nat)
  | readS (ts : TSize) (width : Nat)
  | readF32 (width : Nat)
  | readF64 (width : Nat)
  | peekU (ts : TSize) (width : Nat)
  | peekS (ts : TSize) (width : Nat)
  | peekF32 (width : Nat)
  | peekF64 (width : Nat)
  | wpos
  | writeU (ts : TSize) (width : Nat) (arg : Word)
  | writeS (ts : TSize) (width : Nat) (arg : Word)
  | writeF32 (width : Nat) (arg : Word)
  | writeF64 (width : Nat) (arg : Word)
  | wflush
  | wskip (arg : Word)
  | walign (arg : Word)
  | mask (width : Nat)
  | sext (width : Nat) (arg : Word)
deriving DecidableEq, Repr

/-- The READ command of a value type: which row of R94 spells it. -/
def readOf : VType → Nat → Instr
  | .unsigned ts, w => .readU ts w
  | .signed ts, w => .readS ts w
  | .f32, w => .readF32 w
  | .f64, w => .readF64 w

/-- The PEEK command of a value type. -/
def peekOf : VType → Nat → Instr
  | .unsigned ts, w => .peekU ts w
  | .signed ts, w => .peekS ts w
  | .f32, w => .peekF32 w
  | .f64, w => .peekF64 w

/-- The WRITE command of a value type. -/
def writeOf : VType → Nat → Word → Instr
  | .unsigned ts, w, a => .writeU ts w a
  | .signed ts, w, a => .writeS ts w a
  | .f32, w, a => .writeF32 w a
  | .f64, w, a => .writeF64 w a

/-- The reader's commands (30_encoding.md R82, column unit). -/
def Instr.isReader : Instr → Bool
  | .rpos => true
  | .ravail => true
  | .rseek _ => true
  | .rskip _ => true
  | .ralign _ => true
  | .readU _ _ => true
  | .readS _ _ => true
  | .readF32 _ => true
  | .readF64 _ => true
  | .peekU _ _ => true
  | .peekS _ _ => true
  | .peekF32 _ => true
  | .peekF64 _ => true
  | .wpos => false
  | .writeU _ _ _ => false
  | .writeS _ _ _ => false
  | .writeF32 _ _ => false
  | .writeF64 _ _ => false
  | .wflush => false
  | .wskip _ => false
  | .walign _ => false
  | .mask _ => false
  | .sext _ _ => false

/-- The writer's commands (30_encoding.md R82, column unit). -/
def Instr.isWriter : Instr → Bool
  | .rpos => false
  | .ravail => false
  | .rseek _ => false
  | .rskip _ => false
  | .ralign _ => false
  | .readU _ _ => false
  | .readS _ _ => false
  | .readF32 _ => false
  | .readF64 _ => false
  | .peekU _ _ => false
  | .peekS _ _ => false
  | .peekF32 _ => false
  | .peekF64 _ => false
  | .wpos => true
  | .writeU _ _ _ => true
  | .writeS _ _ _ => true
  | .writeF32 _ _ => true
  | .writeF64 _ _ => true
  | .wflush => true
  | .wskip _ => true
  | .walign _ => true
  | .mask _ => false
  | .sext _ _ => false

end Sys2Proof
end

