-- ==== Sys2Proof/WellFormed.lean ====
section
/-! DEFINITION. Which terms of `Instr` name a command word. The only operand of a type wider than its field is `width`: the
field has 7 bits (30_encoding.md R85), and an operand above 127 is an assembler error, not a command (R101). -/

namespace Sys2Proof

/-- The number in the `width` field, for the commands that use the field (30_encoding.md R82). -/
def Instr.width? : Instr → Option Nat
  | .rpos => none
  | .ravail => none
  | .rseek _ => none
  | .rskip _ => none
  | .ralign _ => none
  | .readU _ w => some w
  | .readS _ w => some w
  | .readF32 w => some w
  | .readF64 w => some w
  | .peekU _ w => some w
  | .peekS _ w => some w
  | .peekF32 w => some w
  | .peekF64 w => some w
  | .wpos => none
  | .writeU _ w _ => some w
  | .writeS _ w _ => some w
  | .writeF32 w _ => some w
  | .writeF64 w _ => some w
  | .wflush => none
  | .wskip _ => none
  | .walign _ => none
  | .mask w => some w
  | .sext w _ => some w

/-- A term names a command word when its width, if it has one, fits the 7-bit field (30_encoding.md R85, R101). Widths that
the type does not allow are well formed here: they fail with CONTRACT when the command runs (R89). -/
def Instr.wf (i : Instr) : Bool :=
  match i.width? with
  | none => true
  | some w => decide (w < 128)

end Sys2Proof
end

