-- ==== Sys2Proof/Decode.lean ====
section
/-! DEFINITION. The command format `CMD16`: the decoder of 30_encoding.md R89, total on every word and rejecting by name; the
encoder; the match/mask rows of R94; and the host's entry point `decodeTableWord`. -/

namespace Sys2Proof

/-- Why a word names no command (30_encoding.md R88, R90, R91, R92). Each is answered with the status ILLEGAL
(60_exceptions.md R204). -/
inductive Illegal where
  /-- `op` is 0x0 or 0xF (R90). -/
  | reservedOp
  /-- `CMD[7]` is 1 (R92). -/
  | zBit
  /-- a field the command does not use is not zero (R88). -/
  | unusedField
  /-- `cat` is 3 in READ, PEEK or WRITE (R91). -/
  | reservedCat
  /-- category F with an 8-bit or 16-bit size (R91). -/
  | floatSize
deriving DecidableEq, Repr

/-- What a word decodes to (30_encoding.md R89): a command with its fields, or an illegal word with the first test that
rejected it. -/
inductive Decoded where
  | instr (i : Instr)
  | illegal (why : Illegal)
deriving DecidableEq, Repr

/-- The fields of a command word (30_encoding.md R81). -/
structure Fields where
  op : BitVec 4
  cat : BitVec 2
  tsize : BitVec 2
  z : BitVec 1
  width : BitVec 7
deriving DecidableEq, Repr

/-- R81: where the fields stand. -/
def fieldsOf (c : Cmd) : Fields :=
  { op := c.extractLsb' 12 4
    cat := c.extractLsb' 10 2
    tsize := c.extractLsb' 8 2
    z := c.extractLsb' 7 1
    width := c.extractLsb' 0 7 }

/-- The operation an `op` field selects (30_encoding.md R82). -/
inductive Op where
  | rpos
  | ravail
  | rseek
  | rskip
  | ralign
  | read
  | peek
  | wpos
  | write
  | wflush
  | wskip
  | walign
  | mask
  | sext
deriving DecidableEq, Repr

/-- R82, R90: the number of each operation; 0x0 and 0xF are reserved. -/
def opOf (op : BitVec 4) : Option Op :=
  match op.toNat with
  | 0x1 => some .rpos
  | 0x2 => some .ravail
  | 0x3 => some .rseek
  | 0x4 => some .rskip
  | 0x5 => some .ralign
  | 0x6 => some .read
  | 0x7 => some .peek
  | 0x8 => some .wpos
  | 0x9 => some .write
  | 0xA => some .wflush
  | 0xB => some .wskip
  | 0xC => some .walign
  | 0xD => some .mask
  | 0xE => some .sext
  | _ => none

/-- R84: the size a `tsize` field names. -/
def tsizeOf (b : BitVec 2) : TSize :=
  match b.toNat with
  | 0 => .b8
  | 1 => .b16
  | 2 => .b32
  | _ => .b64

/-- R89 test 3: a command without fields of its own needs `CMD[11:0] = 0`. -/
def decodePlain (c : Cmd) (i : Instr) : Decoded :=
  if c.extractLsb' 0 12 = 0 then .instr i else .illegal .unusedField

/-- R89 test 4: MASK and SEXT need `CMD[11:8] = 0`. -/
def decodeHelper (c : Cmd) (mk : Nat → Instr) : Decoded :=
  if c.extractLsb' 8 4 = 0 then .instr (mk (fieldsOf c).width.toNat) else .illegal .unusedField

/-- R89 tests 5 and 6, with the categories of R83: READ, PEEK and WRITE use every field. -/
def decodeTyped (c : Cmd) (mk : VType → Nat → Instr) : Decoded :=
  let f := fieldsOf c
  match f.cat.toNat with
  | 0 => .instr (mk (.unsigned (tsizeOf f.tsize)) f.width.toNat)
  | 1 => .instr (mk (.signed (tsizeOf f.tsize)) f.width.toNat)
  | 2 =>
    match f.tsize.toNat with
    | 2 => .instr (mk .f32 f.width.toNat)
    | 3 => .instr (mk .f64 f.width.toNat)
    | _ => .illegal .floatSize
  | _ => .illegal .reservedCat

/-- R89: the decoder, its tests in the rule's order. `arg` is the `ARG` presented with the word; the commands that take none
ignore it (R86). -/
def decode (c : Cmd) (arg : Word) : Decoded :=
  match opOf (fieldsOf c).op with
  | none => .illegal .reservedOp
  | some op =>
    if (fieldsOf c).z = 1 then .illegal .zBit
    else
      match op with
      | .rpos => decodePlain c .rpos
      | .ravail => decodePlain c .ravail
      | .rseek => decodePlain c (.rseek arg)
      | .rskip => decodePlain c (.rskip arg)
      | .ralign => decodePlain c (.ralign arg)
      | .read => decodeTyped c readOf
      | .peek => decodeTyped c peekOf
      | .wpos => decodePlain c .wpos
      | .write => decodeTyped c (fun t w => writeOf t w arg)
      | .wflush => decodePlain c .wflush
      | .wskip => decodePlain c (.wskip arg)
      | .walign => decodePlain c (.walign arg)
      | .mask => decodeHelper c .mask
      | .sext => decodeHelper c (fun w => .sext w arg)

/-- The word with the given fields and `z = 0` (30_encoding.md R81; R105: `op << 12 | cat << 10 | tsize << 8 | width`). -/
def pack (op : BitVec 4) (cat tsize : BitVec 2) (width : Nat) : Cmd :=
  (op.setWidth 16 <<< 12) ||| (cat.setWidth 16 <<< 10) ||| (tsize.setWidth 16 <<< 8)
    ||| (BitVec.ofNat 7 width).setWidth 16

/-- R84: the `tsize` code of a size. -/
def tsizeCode : TSize → BitVec 2
  | .b8 => 0
  | .b16 => 1
  | .b32 => 2
  | .b64 => 3

/-- R83, R84: the `cat` code of a value type. -/
def catCode : VType → BitVec 2
  | .unsigned _ => 0
  | .signed _ => 1
  | .f32 => 2
  | .f64 => 2

/-- R84: the `tsize` code of a value type. -/
def vtypeCode : VType → BitVec 2
  | .unsigned ts => tsizeCode ts
  | .signed ts => tsizeCode ts
  | .f32 => 2
  | .f64 => 3

/-- The word of a READ, PEEK or WRITE of a value type. -/
def packTyped (op : BitVec 4) (t : VType) (width : Nat) : Cmd :=
  pack op (catCode t) (vtypeCode t) width

/-- The command word of a command (30_encoding.md R82, R88, R94). -/
def encodeCmd : Instr → Cmd
  | .rpos => pack 0x1 0 0 0
  | .ravail => pack 0x2 0 0 0
  | .rseek _ => pack 0x3 0 0 0
  | .rskip _ => pack 0x4 0 0 0
  | .ralign _ => pack 0x5 0 0 0
  | .readU ts w => packTyped 0x6 (.unsigned ts) w
  | .readS ts w => packTyped 0x6 (.signed ts) w
  | .readF32 w => packTyped 0x6 .f32 w
  | .readF64 w => packTyped 0x6 .f64 w
  | .peekU ts w => packTyped 0x7 (.unsigned ts) w
  | .peekS ts w => packTyped 0x7 (.signed ts) w
  | .peekF32 w => packTyped 0x7 .f32 w
  | .peekF64 w => packTyped 0x7 .f64 w
  | .wpos => pack 0x8 0 0 0
  | .writeU ts w _ => packTyped 0x9 (.unsigned ts) w
  | .writeS ts w _ => packTyped 0x9 (.signed ts) w
  | .writeF32 w _ => packTyped 0x9 .f32 w
  | .writeF64 w _ => packTyped 0x9 .f64 w
  | .wflush => pack 0xA 0 0 0
  | .wskip _ => pack 0xB 0 0 0
  | .walign _ => pack 0xC 0 0 0
  | .mask w => pack 0xD 0 0 w
  | .sext w _ => pack 0xE 0 0 w

/-- The `ARG` of a command (30_encoding.md R86); 0 for a command that takes none. -/
def encodeArg : Instr → Word
  | .rpos => 0
  | .ravail => 0
  | .rseek a => a
  | .rskip a => a
  | .ralign a => a
  | .readU _ _ => 0
  | .readS _ _ => 0
  | .readF32 _ => 0
  | .readF64 _ => 0
  | .peekU _ _ => 0
  | .peekS _ _ => 0
  | .peekF32 _ => 0
  | .peekF64 _ => 0
  | .wpos => 0
  | .writeU _ _ a => a
  | .writeS _ _ a => a
  | .writeF32 _ a => a
  | .writeF64 _ a => a
  | .wflush => 0
  | .wskip a => a
  | .walign a => a
  | .mask _ => 0
  | .sext _ a => a

/-- The encoder: the pair `(CMD, ARG)` of a command. -/
def encode (i : Instr) : Cmd × Word := (encodeCmd i, encodeArg i)

/-- One row of the opcode map (30_encoding.md R94): a word `c` is the row's command exactly when `c & mask = match`. -/
structure Row where
  mnemonic : String
  value : Cmd
  mask : Cmd
deriving DecidableEq, Repr

/-- The row's match (30_encoding.md R94). -/
def Row.accepts (r : Row) (c : Cmd) : Bool := c &&& r.mask == r.value

/-- The opcode map of 30_encoding.md R94, row by row. -/
def rows : List Row :=
  [ ⟨"RPOS", 0x1000, 0xFFFF⟩, ⟨"RAVAIL", 0x2000, 0xFFFF⟩, ⟨"RSEEK", 0x3000, 0xFFFF⟩, ⟨"RSKIP", 0x4000, 0xFFFF⟩,
    ⟨"RALIGN", 0x5000, 0xFFFF⟩, ⟨"READ.U", 0x6000, 0xFC80⟩, ⟨"READ.S", 0x6400, 0xFC80⟩, ⟨"READ.F32", 0x6A00, 0xFF80⟩,
    ⟨"READ.F64", 0x6B00, 0xFF80⟩, ⟨"PEEK.U", 0x7000, 0xFC80⟩, ⟨"PEEK.S", 0x7400, 0xFC80⟩,
    ⟨"PEEK.F32", 0x7A00, 0xFF80⟩, ⟨"PEEK.F64", 0x7B00, 0xFF80⟩, ⟨"WPOS", 0x8000, 0xFFFF⟩,
    ⟨"WRITE.U", 0x9000, 0xFC80⟩, ⟨"WRITE.S", 0x9400, 0xFC80⟩, ⟨"WRITE.F32", 0x9A00, 0xFF80⟩,
    ⟨"WRITE.F64", 0x9B00, 0xFF80⟩, ⟨"WFLUSH", 0xA000, 0xFFFF⟩, ⟨"WSKIP", 0xB000, 0xFFFF⟩, ⟨"WALIGN", 0xC000, 0xFFFF⟩,
    ⟨"MASK", 0xD000, 0xFF80⟩, ⟨"SEXT", 0xE000, 0xFF80⟩ ]

/-- The row of R94 a command belongs to. -/
def Instr.mnemonic : Instr → String
  | .rpos => "RPOS"
  | .ravail => "RAVAIL"
  | .rseek _ => "RSEEK"
  | .rskip _ => "RSKIP"
  | .ralign _ => "RALIGN"
  | .readU _ _ => "READ.U"
  | .readS _ _ => "READ.S"
  | .readF32 _ => "READ.F32"
  | .readF64 _ => "READ.F64"
  | .peekU _ _ => "PEEK.U"
  | .peekS _ _ => "PEEK.S"
  | .peekF32 _ => "PEEK.F32"
  | .peekF64 _ => "PEEK.F64"
  | .wpos => "WPOS"
  | .writeU _ _ _ => "WRITE.U"
  | .writeS _ _ _ => "WRITE.S"
  | .writeF32 _ _ => "WRITE.F32"
  | .writeF64 _ _ => "WRITE.F64"
  | .wflush => "WFLUSH"
  | .wskip _ => "WSKIP"
  | .walign _ => "WALIGN"
  | .mask _ => "MASK"
  | .sext _ _ => "SEXT"

/-- The command word in bits 15..0 of a transaction numbered as the opcode table numbers bits. -/
def tableCmd (nbits w : Nat) : Cmd := BitVec.ofNat 16 (w % 2 ^ nbits)

/-- The argument in bits 79..16 of a transaction numbered as the opcode table numbers bits (DESIGN CHOICE: the table gives
`ARG` no bits; log entry 7). -/
def tableArg (nbits w : Nat) : Word := BitVec.ofNat 64 ((w % 2 ^ nbits) / 2 ^ 16)

/-- What the decoder reads from a transaction whose bits are `w`, of which the table gives `nbits` and every higher one
is 0. -/
def decodeTableWord (nbits w : Nat) : Option Instr :=
  match decode (tableCmd nbits w) (tableArg nbits w) with
  | .instr i => some i
  | .illegal _ => none

end Sys2Proof
end

