-- ==== Sys2Proof/Config.lean ====
section
/-! DEFINITION. What the spec fixes once for every BCE (00_scope.md section 4). The byte source is not here: it is bound at
reset, so it is data of the state (`Machine/State.lean`). The spec leaves no result of a command open, so no free value
stands here either. -/

namespace Sys2Proof

/-- Bits of the machine word (00_scope.md R7). -/
abbrev Config.xlen : Nat := 64

/-- R8: a byte source of `len` bytes may be bound when its length in bits fits a 64-bit result. -/
def Config.sourceFits (len : Nat) : Bool := decide (8 * len < 2 ^ Config.xlen)

end Sys2Proof
end

