-- ==== Sys2Proof/Machine/State.lean ====
section
/-! DEFINITION. The state of BCE as plain data: every element of 10_state.md R20, the byte source the reader is bound to, and
the two ports of the host interface. The counts and positions are naturals, as 00_scope.md R12 has them; their ranges are
invariants (10_state.md R25, R29), stated in `Safety.lean` (log entry 11). -/

namespace Sys2Proof.Machine

/-- Bytes by address: a list of (address, byte), addresses strictly rising, no entry equal to the byte an unlisted address
reads as (`cellsWf` in Ops.lean). It holds SRC and SNK (20_memory.md R50). -/
abbrev Memory := List Host.Cell

/-- The side band SNKNB (10_state.md R28): the bit count of each put that is not 8, by the byte's address. -/
abbrev SideBand := List (Nat × Nat)

/-- The 3-bit status of a transaction (60_exceptions.md R200). -/
inductive Status where
  /-- 0: the command did everything its rule says (R205). -/
  | ok
  /-- 1: end of stream (R201). -/
  | eos
  /-- 2: out-of-range seek (R202). -/
  | range
  /-- 3: contract violation (R203). -/
  | contract
  /-- 4: underlying I/O failure; reserved, never raised (R206). -/
  | ioerr
  /-- 5: not a legal command word (R204). -/
  | illegal
deriving DecidableEq, Repr

/-- What one transaction gives back: `ST` and `RES` (30_encoding.md R80). -/
structure Response where
  status : Status
  result : Word
deriving DecidableEq, Repr

/-- The byte source (00_scope.md R8): the bytes `SRC` and their number `SRC_LEN`. A parameter of the machine, fixed from one
reset to the next (20_memory.md R51, 70_reset_and_hazards.md R234). -/
structure Source where
  mem : Memory
  len : Nat
deriving DecidableEq, Repr

/-- The reader unit RD: `R.buf`, `R.shift` and the source cursor `S.pos` (10_state.md R22, R23, R24). -/
structure Reader where
  buf : Word
  shift : Nat
  pos : Nat
deriving DecidableEq, Repr

/-- The writer unit WR and its sink: `W.buf`, `W.avail` (10_state.md R26, R27), and `SNK`, `K.pos`, `SNKNB` (R28). -/
structure Writer where
  buf : Byte
  avail : Nat
  snk : Memory
  kpos : Nat
  snknb : SideBand
deriving DecidableEq, Repr

/-- What the host can present to the block: a command with its argument (30_encoding.md R80), or a reset, which binds a
byte source (70_reset_and_hazards.md R230, R234). There is no other event (60_exceptions.md R207). -/
inductive Event where
  | command (cmd : Cmd) (arg : Word)
  | reset (src : Source)
deriving DecidableEq, Repr

/-- The whole machine. `source` is the parameter `(SRC, SRC_LEN)`; `rd` and `wr` are the state elements of 10_state.md R20;
`input` (the events still to come) and `resp` (the answer to the last command) are the model's own fields for the host
interface of 30_encoding.md R80. -/
structure State where
  source : Source
  rd : Reader
  wr : Writer
  input : List Event
  resp : Option Response
deriving DecidableEq, Repr

/-- Faults: none. An error of BCE is a status in the response of the same transaction, with no state change
(60_exceptions.md R209, R210), every command terminates (70_reset_and_hazards.md R250), and no access outside SRC or SNK is
ever made (20_memory.md R54, R69). So no transition stops the machine, and this type has no constructor. -/
inductive Fault where
deriving DecidableEq, Repr

/-- Refusals: where the model has no transition. -/
inductive Refusal where
  /-- Raised by an arm of `exec` whose instruction has no meaning. No arm raises it. Safe. -/
  | notModelled (mnemonic : String)
  /-- Raised by `step` when the host has presented no event: BCE does nothing on its own (70_reset_and_hazards.md R230,
  R235). Safe. -/
  | noEvent
  /-- Raised by `step` on a reset that binds a source which 00_scope.md R8 does not allow. Safe. -/
  | sourceBinding
deriving DecidableEq, Repr

/-- What a meaning or a step answers. -/
abbrev Result := Host.Outcome State Fault Refusal

/-- The machine right after reset (10_state.md R36, 70_reset_and_hazards.md R231, R232), bound to the empty source, the case
`SRC_LEN = 0` that R231 spells out (DESIGN CHOICE: SRC is a parameter; log entry 2). Reset over any other source is
`State.resetOver` in Ops.lean, and the event `Event.reset`. -/
def State.reset : State :=
  { source := { mem := [], len := 0 }
    rd := { buf := 0, shift := 0, pos := 0 }
    wr := { buf := 0, avail := 8, snk := [], kpos := 0, snknb := [] }
    input := []
    resp := none }

end Sys2Proof.Machine
end

