-- ==== Sys2Proof/Machine/Flags.lean ====
section
/-! DEFINITION. BCE stores no flag (10_state.md R30). What the spec has instead are functions of the state: the two bit
cursors and the count of bits left (41_reader_cursor.md R120, R121; 43_writer.md R160), the three predicates of R30, and the
numbers of the status codes (60_exceptions.md R200). -/

namespace Sys2Proof.Machine

/-- 41_reader_cursor.md R120: `rpos() = 8 * S.pos - R.shift`. -/
def Reader.rpos (r : Reader) : Nat := 8 * r.pos - r.shift

/-- 41_reader_cursor.md R121: `ravail() = (SRC_LEN - S.pos) * 8 + R.shift`. -/
def Reader.ravail (src : Source) (r : Reader) : Nat := (src.len - r.pos) * 8 + r.shift

/-- 43_writer.md R160: `wpos() = K.pos * 8 + (8 - W.avail)`. -/
def Writer.wpos (w : Writer) : Nat := w.kpos * 8 + (8 - w.avail)

/-- `rpos()` of the machine. -/
def State.rpos (s : State) : Nat := s.rd.rpos

/-- `ravail()` of the machine. -/
def State.ravail (s : State) : Nat := s.rd.ravail s.source

/-- `wpos()` of the machine. -/
def State.wpos (s : State) : Nat := s.wr.wpos

/-- 10_state.md R30 `depleted`: the source has delivered every byte. Read by no command. -/
def depleted (s : State) : Bool := s.rd.pos == s.source.len

/-- 10_state.md R30 `r_empty`: nothing is left to read. -/
def rEmpty (s : State) : Bool := s.ravail == 0

/-- 10_state.md R30 `w_aligned`: no byte is partly filled. -/
def wAligned (s : State) : Bool := s.wr.avail == 8

/-- 60_exceptions.md R200: the 3-bit number of a status. -/
def Status.code : Status → BitVec 3
  | .ok => 0
  | .eos => 1
  | .range => 2
  | .contract => 3
  | .ioerr => 4
  | .illegal => 5

end Sys2Proof.Machine
end

