-- ==== Sys2Proof/Machine/Operands.lean ====
section
/-! DEFINITION. The pure functions of the helper unit (40_helpers.md R110, R112, R115) and the operand forms: the storage
width of a type, the width predicate of 60_exceptions.md R203, and the value a read returns (42_reader_read_peek.md
R146). -/

namespace Sys2Proof.Machine

/-- `sizeof(T)` in bytes, `2^tsize` (30_encoding.md R84). -/
def tsizeBytes : TSize → Nat
  | .b8 => 1
  | .b16 => 2
  | .b32 => 4
  | .b64 => 8

/-- The size of a value type (00_scope.md R10). -/
def vtypeSize : VType → TSize
  | .unsigned ts => ts
  | .signed ts => ts
  | .f32 => .b32
  | .f64 => .b64

/-- The storage width `W = 8 * sizeof(T)` of a value type (00_scope.md R10). -/
def vtypeBits (t : VType) : Nat := 8 * tsizeBytes (vtypeSize t)

/-- 60_exceptions.md R203, `width_ok`: at most `W` for the integral categories, exactly `W` for floating point. -/
def widthOk : VType → Nat → Bool
  | .unsigned ts, w => decide (w ≤ vtypeBits (.unsigned ts))
  | .signed ts, w => decide (w ≤ vtypeBits (.signed ts))
  | .f32, w => decide (w = vtypeBits .f32)
  | .f64, w => decide (w = vtypeBits .f64)

/-- 40_helpers.md R110: `mask(n) = 2^n - 1`. Used with `n ≤ 64` only. -/
def mask (n : Nat) : Word := BitVec.ofNat 64 (2 ^ n - 1)

/-- 40_helpers.md R112: `sext_N(w, raw)`, the guard for `w = 0` first. The subtraction wraps in `N` bits. -/
def sextN (N w : Nat) (raw : BitVec N) : BitVec N :=
  if w = 0 then 0
  else (raw ^^^ BitVec.ofNat N (2 ^ (w - 1))) - BitVec.ofNat N (2 ^ (w - 1))

/-- 40_helpers.md R115: the `n`-bit field of `buf` that ends at `s`. -/
def extract (buf : Word) (s n : Nat) : Word := (buf >>> (s - n)) &&& mask n

/-- 42_reader_read_peek.md R146: the value made of the raw bits by the category of the type. -/
def readValue : VType → Nat → Word → Word
  | .unsigned _, _, raw => raw
  | .signed _, w, raw => sextN 64 w raw
  | .f32, _, raw => raw
  | .f64, _, raw => raw

/-- The distance from position `p` to the next multiple of `m` (41_reader_cursor.md R127, 43_writer.md R166), for
`m ≥ 1`. -/
def alignDistance (p m : Nat) : Nat := (m - p % m) % m

end Sys2Proof.Machine
end

