-- ==== Sys2Proof/Machine/Ops.lean ====
section
/-! DEFINITION. The named operations over the two stores, the reader and the writer: the byte-source and byte-sink contracts
(20_memory.md R52 to R61), refill, rskip, raw_read, emit and wskip, reset, and how a command completes or raises
(60_exceptions.md R209, R210). -/

namespace Sys2Proof.Machine

/-! ## Stores: lists of (address, value) in one canonical form -/

/-- What address `a` reads as; `d` where it is not listed. -/
def cellsRead {α : Type} (d : α) : List (Nat × α) → Nat → α
  | [], _ => d
  | (b, v) :: rest, a => if a = b then v else cellsRead d rest a

/-- Write `v` at address `a`, keeping the canonical form: writing `d` removes the entry. -/
def cellsWrite {α : Type} [DecidableEq α] (d : α) : List (Nat × α) → Nat → α → List (Nat × α)
  | [], a, v => if v = d then [] else [(a, v)]
  | (b, x) :: rest, a, v =>
    if a < b then (if v = d then (b, x) :: rest else (a, v) :: (b, x) :: rest)
    else if a = b then (if v = d then rest else (a, v) :: rest)
    else (b, x) :: cellsWrite d rest a v

/-- The canonical form: addresses strictly rising, no entry equal to `d`. -/
def cellsWf {α : Type} [DecidableEq α] (d : α) : List (Nat × α) → Bool
  | [] => true
  | (a, v) :: rest => decide (v ≠ d) && rest.all (fun c => decide (a < c.1)) && cellsWf d rest

/-- Every listed address is below `n`. -/
def cellsBelow {α : Type} (n : Nat) (m : List (Nat × α)) : Bool := m.all (fun c => decide (c.1 < n))

/-- The byte an unlisted address of a store reads as. Every address below `SRC_LEN` (or `K.pos`) holds a byte the binding
(or an emit) gave it, and a zero byte is the one that is not listed (log entry 6). -/
def Memory.blank : Byte := 0

/-- The byte at an address. -/
def Memory.read (m : Memory) (a : Nat) : Byte := cellsRead Memory.blank m a

/-- Write a byte. -/
def Memory.write (m : Memory) (a : Nat) (v : Byte) : Memory := cellsWrite Memory.blank m a v

/-- The canonical form of a memory. -/
def Memory.wf (m : Memory) : Bool := cellsWf Memory.blank m

/-- The memory that holds `bytes` from address `a` on. -/
def Memory.ofBytes (a : Nat) : List Byte → Memory
  | [] => []
  | b :: bs => if b = Memory.blank then Memory.ofBytes (a + 1) bs else (a, b) :: Memory.ofBytes (a + 1) bs

/-- The bit count an unlisted byte of the side band was put with: the 8 of a whole byte (20_memory.md R61). -/
def SideBand.blank : Nat := 8

/-- `SNKNB[i]` (10_state.md R28). -/
def SideBand.read (m : SideBand) (a : Nat) : Nat := cellsRead SideBand.blank m a

/-- Record the bit count of a put. -/
def SideBand.write (m : SideBand) (a nb : Nat) : SideBand := cellsWrite SideBand.blank m a nb

/-- The canonical form of a side band. -/
def SideBand.wf (m : SideBand) : Bool := cellsWf SideBand.blank m

/-! ## The byte source (20_memory.md R50 to R55) -/

/-- The source of a list of bytes. -/
def Source.ofBytes (bytes : List Byte) : Source := { mem := Memory.ofBytes 0 bytes, len := bytes.length }

/-- `SRC[a]`; none where R50 says the address does not exist. -/
def Source.byte (src : Source) (a : Nat) : Option Byte := if a < src.len then some (src.mem.read a) else none

/-- 00_scope.md R8, 70_reset_and_hazards.md R234: what a platform may bind: `SRC` a function of exactly the addresses below
`SRC_LEN`, with `8 * SRC_LEN < 2^64`. -/
def Source.legal (src : Source) : Bool := src.mem.wf && cellsBelow src.len src.mem && Config.sourceFits src.len

/-- 20_memory.md R52: `MemRead(a, n)`, the number of `8n` bits with the byte at the lowest address most significant. -/
def memRead (src : Source) (a : Nat) : Nat → Nat
  | 0 => 0
  | n + 1 => memRead src a n * 256 + (src.mem.read (a + n)).toNat

/-- 20_memory.md R53 `available()`: bytes not yet delivered. -/
def srcAvailable (src : Source) (r : Reader) : Nat := src.len - r.pos

/-- 20_memory.md R54 `get_n(acc, count)`: packs `k = min(count, available())` bytes into the low bits of the accumulator and
moves the cursor past them; answers the accumulator, `k`, and the moved cursor. -/
def getN (src : Source) (acc : Word) (count : Nat) (r : Reader) : Word × Nat × Reader :=
  let k := min count (srcAvailable src r)
  ((acc <<< (8 * k)) ||| BitVec.ofNat 64 (memRead src r.pos k), k, { r with pos := r.pos + k })

/-- 20_memory.md R54 `seek(b)`. -/
def srcSeek (b : Nat) (r : Reader) : Reader := { r with pos := b }

/-- 20_memory.md R54 `skip(n)`. -/
def srcSkip (n : Nat) (r : Reader) : Reader := { r with pos := r.pos + n }

/-- 20_memory.md R55 `refill()`: the buffer is cleared, then up to 8 bytes are packed into it. -/
def refill (src : Source) (r : Reader) : Reader :=
  let g := getN src 0 8 r
  { g.2.2 with buf := g.1, shift := 8 * g.2.1 }

/-! ## The reader's procedures -/

/-- 41_reader_cursor.md R124 `rskip(b)`: three cases. -/
def rskip (src : Source) (b : Nat) (r : Reader) : Reader :=
  if b < r.shift then { r with shift := r.shift - b }
  else if b = r.shift then refill src r
  else
    let rem := b - r.shift
    let r' := refill src (srcSkip (rem / 8) r)
    { r' with shift := r'.shift - rem % 8 }

/-- 42_reader_read_peek.md R140 `raw_read(bits)`: the loop, with the number of passes it may still make. Case A takes the
field inside the buffer, case B takes the rest of the buffer and refills, case C takes the rest as the high-order bits,
refills and goes round with the remainder. -/
def rawReadLoop (src : Source) : Nat → Nat → Word → Reader → Word × Reader
  | 0, _, acc, r => (acc, r)
  | passes + 1, bits, acc, r =>
    if bits < r.shift then
      (acc ||| extract r.buf r.shift bits, { r with shift := r.shift - bits })
    else if bits = r.shift then
      (acc ||| extract r.buf r.shift bits, refill src r)
    else
      rawReadLoop src passes (bits - r.shift)
        (acc ||| (extract r.buf r.shift r.shift <<< (bits - r.shift))) (refill src r)

/-- 42_reader_read_peek.md R140, R145: `raw_read` goes round its loop at most twice. `rawReadLoop_passes` in Laws/Reader.lean
shows that further passes would change nothing. -/
def rawRead (src : Source) (bits : Nat) (r : Reader) : Word × Reader := rawReadLoop src 2 bits 0 r

/-! ## The byte sink and the writer's procedures -/

/-- `SNK[i]`; none where no byte has been put yet (20_memory.md R50). -/
def Writer.byte (w : Writer) (i : Nat) : Option Byte := if i < w.kpos then some (w.snk.read i) else none

/-- `SNKNB[i]`; none where no byte has been put yet (10_state.md R28). -/
def Writer.count (w : Writer) (i : Nat) : Option Nat := if i < w.kpos then some (w.snknb.read i) else none

/-- 20_memory.md R59 `put(v, nb)`, R60 `MemWrite(K.pos, 1, v)`: append the byte and its bit count. -/
def put (v : Byte) (nb : Nat) (w : Writer) : Writer :=
  { w with snk := w.snk.write w.kpos v, snknb := w.snknb.write w.kpos nb, kpos := w.kpos + 1 }

/-- 20_memory.md R61 `emit(nb)`: put the accumulator as it stands and start a fresh empty byte. -/
def emit (nb : Nat) (w : Writer) : Writer := { put w.buf nb w with buf := 0, avail := 8 }

/-- `n` times `emit(8)` (43_writer.md R164). -/
def emitTimes : Nat → Writer → Writer
  | 0, w => w
  | n + 1, w => emitTimes n (emit 8 w)

/-- 43_writer.md R164, R165: `n` times `emit(8)` of a fresh empty byte, at once ("a model uses a replicate, not a loop it
must unroll"): `n` zero bytes, each with bit count 8, which is what an unlisted address reads as. `emitZeros_eq_emitTimes`
in Laws/Writer.lean shows that it is `emitTimes n` (log entry 8). -/
def emitZeros (n : Nat) (w : Writer) : Writer := { w with kpos := w.kpos + n }

/-- One pass of the loop of WRITE (43_writer.md R162): the top `portion` bits of the remaining value go just below the bits
already filled; a byte that becomes complete is emitted. -/
def writePass (arg : Word) (rem : Nat) (w : Writer) : Writer :=
  let portion := min w.avail rem
  let chunk := (arg >>> (rem - portion)) &&& mask portion
  let w' := { w with buf := w.buf ||| (chunk.setWidth 8 <<< (w.avail - portion)), avail := w.avail - portion }
  if w'.avail = 0 then emit 8 w' else w'

/-- The loop of WRITE (43_writer.md R162), with the number of passes it may still make and the bits not yet written. -/
def writeLoop (arg : Word) : Nat → Nat → Writer → Writer
  | 0, _, w => w
  | passes + 1, rem, w =>
    if rem = 0 then w else writeLoop arg passes (rem - min w.avail rem) (writePass arg rem w)

/-- 43_writer.md R162: the body of WRITE after its checks. Each pass with a free slot writes at least one bit, so `width`
passes are enough at rest (10_state.md R29 J1), and one more reaches the end from any state. -/
def writeBits (arg : Word) (width : Nat) (w : Writer) : Writer := writeLoop arg (width + 1) width w

/-- 43_writer.md R164 `wskip(b)`: three cases. -/
def wskip (b : Nat) (w : Writer) : Writer :=
  if b < w.avail then { w with avail := w.avail - b }
  else if b = w.avail then emit 8 w
  else
    let rem := b - w.avail
    { emitZeros (rem / 8) (emit 8 w) with avail := 8 - rem % 8 }

/-! ## The four updates of the state -/

/-- The reader's registers written. -/
def State.withReader (s : State) (r : Reader) : State := { s with rd := r }

/-- The writer's registers and the sink written. -/
def State.withWriter (s : State) (w : Writer) : State := { s with wr := w }

/-- The answer of a transaction given. -/
def State.withAnswer (s : State) (a : Response) : State := { s with resp := some a }

/-- The events still to come. -/
def State.withInput (s : State) (es : List Event) : State := { s with input := es }

/-! ## Completing a command, and raising -/

/-- `return v` (00_scope.md R13): the command ends with status OK and result `v`. -/
def complete (v : Word) (s : State) : Result :=
  .next (s.withAnswer { status := .ok, result := v })

/-- `raise E` (00_scope.md R13; 60_exceptions.md R209, R210): the command ends at once with status `E` and result 0, and no
state element is written. There is no handler, no saved context and no return from it: the next command runs as if this one
had not been issued (R211). -/
def raise (e : Status) (s : State) : Result :=
  .next (s.withAnswer { status := e, result := 0 })

/-- READ of a type (42_reader_read_peek.md R143): the width check first, then the stream check, then the field. -/
def readTyped (t : VType) (width : Nat) (s : State) : Result :=
  if widthOk t width = false then raise .contract s
  else if s.ravail < width then raise .eos s
  else
    let p := rawRead s.source width s.rd
    complete (readValue t width p.1) (s.withReader p.2)

/-- PEEK of a type (42_reader_read_peek.md R144): a normal read on a copy of the reader, which is dropped. -/
def peekTyped (t : VType) (width : Nat) (s : State) : Result :=
  if widthOk t width = false then raise .contract s
  else if s.ravail < width then raise .eos s
  else complete (readValue t width (rawRead s.source width s.rd).1) s

/-- WRITE of a type (43_writer.md R162): the width check, then the low `width` bits of the value. -/
def writeTyped (t : VType) (width : Nat) (arg : Word) (s : State) : Result :=
  if widthOk t width = false then raise .contract s
  else complete 0 (s.withWriter (writeBits arg width s.wr))

/-! ## Reset (70_reset_and_hazards.md R230 to R232) -/

/-- R231: a freshly bound source stands at byte 0; the initial fill follows. -/
def resetReader (src : Source) : Reader := refill src { buf := 0, shift := 0, pos := 0 }

/-- R232. -/
def resetWriter : Writer := { buf := 0, avail := 8, snk := [], kpos := 0, snknb := [] }

/-- R230: the machine right after reset over a source. -/
def State.resetOver (src : Source) : State :=
  { source := src, rd := resetReader src, wr := resetWriter, input := [], resp := none }

/-- R230 as an event: nothing of the earlier state survives; the events still to come are the host's. Reset returns no
status. -/
def resetEvent (src : Source) (s : State) : State := (State.resetOver src).withInput s.input

end Sys2Proof.Machine
end

