-- ==== Sys2Proof/Machine/Cursor.lean ====
section
/-! DEFINITION. The reader's cursor commands RPOS, RAVAIL, RSEEK, RSKIP, RALIGN (41_reader_cursor.md R122 to R127). -/

namespace Sys2Proof.Machine

/-- RPOS (41_reader_cursor.md R122). -/
def execRpos (s : State) : Result := complete (BitVec.ofNat 64 s.rpos) s

/-- RAVAIL (41_reader_cursor.md R123). -/
def execRavail (s : State) : Result := complete (BitVec.ofNat 64 s.ravail) s

/-- RSEEK (41_reader_cursor.md R126): the range check, then the source cursor, the buffer discarded, and a skip of the
residual bits that refills. -/
def execRseek (arg : Word) (s : State) : Result :=
  if 8 * s.source.len < arg.toNat then raise .range s
  else
    complete 0
      (s.withReader (rskip s.source (arg.toNat % 8) { srcSeek (arg.toNat / 8) s.rd with shift := 0 }))

/-- RSKIP (41_reader_cursor.md R125). -/
def execRskip (arg : Word) (s : State) : Result :=
  if s.ravail < arg.toNat then raise .eos s
  else complete 0 (s.withReader (rskip s.source arg.toNat s.rd))

/-- RALIGN (41_reader_cursor.md R127): the modulus check, then the skip's own check. -/
def execRalign (arg : Word) (s : State) : Result :=
  if arg.toNat = 0 then raise .contract s
  else if s.ravail < alignDistance s.rpos arg.toNat then raise .eos s
  else complete 0 (s.withReader (rskip s.source (alignDistance s.rpos arg.toNat) s.rd))

end Sys2Proof.Machine
end

