-- ==== Sys2Proof/Machine/Helper.lean ====
section
/-! DEFINITION. The helper unit's commands MASK and SEXT (40_helpers.md R111, R113). -/

namespace Sys2Proof.Machine

/-- MASK (40_helpers.md R111). -/
def execMask (width : Nat) (s : State) : Result :=
  if 64 < width then raise .contract s else complete (mask width) s

/-- SEXT (40_helpers.md R113): bits of `ARG` at or above the width are ignored. -/
def execSext (width : Nat) (arg : Word) (s : State) : Result :=
  if 64 < width then raise .contract s else complete (sextN 64 width (arg &&& mask width)) s

end Sys2Proof.Machine
end

