-- ==== Sys2Proof/Machine/ReadPeek.lean ====
section
/-! DEFINITION. The reader's data commands READ and PEEK (42_reader_read_peek.md R143, R144), one meaning per row of
30_encoding.md R94. -/

namespace Sys2Proof.Machine

/-- READ.u8, READ.u16, READ.u32, READ.u64 (42_reader_read_peek.md R143, category U). -/
def execReadU (ts : TSize) (width : Nat) (s : State) : Result := readTyped (.unsigned ts) width s

/-- READ.i8, READ.i16, READ.i32, READ.i64 (42_reader_read_peek.md R143, category S). -/
def execReadS (ts : TSize) (width : Nat) (s : State) : Result := readTyped (.signed ts) width s

/-- READ.f32 (42_reader_read_peek.md R143, category F). -/
def execReadF32 (width : Nat) (s : State) : Result := readTyped .f32 width s

/-- READ.f64 (42_reader_read_peek.md R143, category F). -/
def execReadF64 (width : Nat) (s : State) : Result := readTyped .f64 width s

/-- PEEK.u8, PEEK.u16, PEEK.u32, PEEK.u64 (42_reader_read_peek.md R144, category U). -/
def execPeekU (ts : TSize) (width : Nat) (s : State) : Result := peekTyped (.unsigned ts) width s

/-- PEEK.i8, PEEK.i16, PEEK.i32, PEEK.i64 (42_reader_read_peek.md R144, category S). -/
def execPeekS (ts : TSize) (width : Nat) (s : State) : Result := peekTyped (.signed ts) width s

/-- PEEK.f32 (42_reader_read_peek.md R144, category F). -/
def execPeekF32 (width : Nat) (s : State) : Result := peekTyped .f32 width s

/-- PEEK.f64 (42_reader_read_peek.md R144, category F). -/
def execPeekF64 (width : Nat) (s : State) : Result := peekTyped .f64 width s

end Sys2Proof.Machine
end

