-- ==== Sys2Proof/Machine/Write.lean ====
section
/-! DEFINITION. The writer's commands WPOS, WRITE, WFLUSH, WSKIP, WALIGN (43_writer.md R161 to R166). -/

namespace Sys2Proof.Machine

/-- WPOS (43_writer.md R161): the position reduced modulo `2^64`. -/
def execWpos (s : State) : Result := complete (BitVec.ofNat 64 s.wpos) s

/-- WRITE.u8, WRITE.u16, WRITE.u32, WRITE.u64 (43_writer.md R162, category U). -/
def execWriteU (ts : TSize) (width : Nat) (arg : Word) (s : State) : Result := writeTyped (.unsigned ts) width arg s

/-- WRITE.i8, WRITE.i16, WRITE.i32, WRITE.i64 (43_writer.md R162, category S). -/
def execWriteS (ts : TSize) (width : Nat) (arg : Word) (s : State) : Result := writeTyped (.signed ts) width arg s

/-- WRITE.f32 (43_writer.md R162, category F). -/
def execWriteF32 (width : Nat) (arg : Word) (s : State) : Result := writeTyped .f32 width arg s

/-- WRITE.f64 (43_writer.md R162, category F). -/
def execWriteF64 (width : Nat) (arg : Word) (s : State) : Result := writeTyped .f64 width arg s

/-- WFLUSH (43_writer.md R163): puts a partly filled byte; nothing when no byte is partly filled. -/
def execWflush (s : State) : Result :=
  if s.wr.avail < 8 then complete 0 (s.withWriter (emit (8 - s.wr.avail) s.wr)) else complete 0 s

/-- WSKIP (43_writer.md R165). -/
def execWskip (arg : Word) (s : State) : Result := complete 0 (s.withWriter (wskip arg.toNat s.wr))

/-- WALIGN (43_writer.md R166): the modulus check, then the skip. -/
def execWalign (arg : Word) (s : State) : Result :=
  if arg.toNat = 0 then raise .contract s
  else complete 0 (s.withWriter (wskip (alignDistance s.wpos arg.toNat) s.wr))

end Sys2Proof.Machine
end

