-- ==== Sys2Proof/Machine/Dispatch.lean ====
section
/-! DEFINITION. The dispatch: one arm for each row of the opcode map (30_encoding.md R94), each a call of its meaning. -/

namespace Sys2Proof.Machine

def exec (i : Instr) (s : State) : Host.Outcome State Fault Refusal :=
  match i with
  | .rpos => Sys2Proof.Machine.execRpos s
  | .ravail => Sys2Proof.Machine.execRavail s
  | .rseek arg => Sys2Proof.Machine.execRseek arg s
  | .rskip arg => Sys2Proof.Machine.execRskip arg s
  | .ralign arg => Sys2Proof.Machine.execRalign arg s
  | .readU ts width => Sys2Proof.Machine.execReadU ts width s
  | .readS ts width => Sys2Proof.Machine.execReadS ts width s
  | .readF32 width => Sys2Proof.Machine.execReadF32 width s
  | .readF64 width => Sys2Proof.Machine.execReadF64 width s
  | .peekU ts width => Sys2Proof.Machine.execPeekU ts width s
  | .peekS ts width => Sys2Proof.Machine.execPeekS ts width s
  | .peekF32 width => Sys2Proof.Machine.execPeekF32 width s
  | .peekF64 width => Sys2Proof.Machine.execPeekF64 width s
  | .wpos => Sys2Proof.Machine.execWpos s
  | .writeU ts width arg => Sys2Proof.Machine.execWriteU ts width arg s
  | .writeS ts width arg => Sys2Proof.Machine.execWriteS ts width arg s
  | .writeF32 width arg => Sys2Proof.Machine.execWriteF32 width arg s
  | .writeF64 width arg => Sys2Proof.Machine.execWriteF64 width arg s
  | .wflush => Sys2Proof.Machine.execWflush s
  | .wskip arg => Sys2Proof.Machine.execWskip arg s
  | .walign arg => Sys2Proof.Machine.execWalign arg s
  | .mask width => Sys2Proof.Machine.execMask width s
  | .sext width arg => Sys2Proof.Machine.execSext width arg s

end Sys2Proof.Machine
end

