-- ==== Sys2Proof/Machine/Fetch.lean ====
section
/-! DEFINITION. How a transaction is taken in (30_encoding.md R80, R89; 70_reset_and_hazards.md R230): a command word is
decoded and run, or answered with ILLEGAL; a reset binds a source. `step` in Step.lean calls these. -/

namespace Sys2Proof.Machine

/-- One transaction (30_encoding.md R80): a legal word runs its command; any other word ends with ILLEGAL, result 0 and no
state change (60_exceptions.md R204). -/
def runCommand (cmd : Cmd) (arg : Word) (s : State) : Result :=
  match decode cmd arg with
  | .instr i => exec i s
  | .illegal _ => raise .illegal s

/-- The reset event (70_reset_and_hazards.md R230). A binding that 00_scope.md R8 does not allow has no meaning in the spec
and is refused. -/
def runReset (src : Source) (s : State) : Result :=
  if src.legal then .next (resetEvent src s) else .refused .sourceBinding

/-- One event. -/
def runEvent (e : Event) (s : State) : Result :=
  match e with
  | .command cmd arg => runCommand cmd arg s
  | .reset src => runReset src s

end Sys2Proof.Machine
end

