-- ==== Sys2Proof/Machine/Step.lean ====
section
/-! DEFINITION. The step: the next event the host presents is taken from `input` and performed completely before the next
(30_encoding.md R80). There is no program counter and no instruction memory (10_state.md R21, 20_memory.md R67). -/

namespace Sys2Proof.Machine

/-- One step. With nothing presented there is no transition (70_reset_and_hazards.md R230, R235), so the step refuses. -/
def step (s : State) : Host.Outcome State Fault Refusal :=
  match s.input with
  | [] => .refused .noEvent
  | e :: rest => runEvent e (s.withInput rest)

/-- `s` with the transaction whose bits are `w` presented next: the command word in bits 15..0, `ARG` in bits 79..16, the bits
from `nbits` up zero. -/
def State.withFetchWord (s : State) (nbits w : Nat) : State :=
  s.withInput (.command (tableCmd nbits w) (tableArg nbits w) :: s.input)

end Sys2Proof.Machine
end

