-- ==== Sys2Proof/Machine/Script.lean ====
section
/-! DEFINITION. The host's side of a run (70_reset_and_hazards.md R235): issuing one command and a list of commands, with the
answers kept outside the BCE state (60_exceptions.md R211). -/

namespace Sys2Proof.Machine

/-- Issue one command: its answer and the state after it; none where the engine gives no answer (it always gives one). -/
def issue (i : Instr) (s : State) : Option (Response × State) :=
  match exec i s with
  | .next t =>
    match t.resp with
    | some r => some (r, t)
    | none => none
  | .fault _ => none
  | .refused _ => none

/-- Issue commands in order: the answers, in order, and the state after the last. -/
def runScript : List Instr → State → Option (List Response × State)
  | [], s => some ([], s)
  | i :: rest, s =>
    match issue i s with
    | none => none
    | some (r, t) =>
      match runScript rest t with
      | none => none
      | some (rs, u) => some (r :: rs, u)

/-- 70_reset_and_hazards.md R238, 20_memory.md R67: the source a reader is bound to in order to read back what a writer has
put: `SRC := SNK`, `SRC_LEN := K.pos`. -/
def Writer.asSource (w : Writer) : Source := { mem := w.snk, len := w.kpos }

/-- One field of the round-trip law (43_writer.md R169): a type, a width, and the value presented. -/
structure PackedField where
  vtype : VType
  width : Nat
  value : Word
deriving DecidableEq, Repr

/-- The WRITE of a field. -/
def PackedField.write (f : PackedField) : Instr := writeOf f.vtype f.width f.value

/-- The READ of a field. -/
def PackedField.read (f : PackedField) : Instr := readOf f.vtype f.width

/-- What R169 says the READ of a field returns: its low `width` bits, sign-extended for category S. -/
def PackedField.readBack (f : PackedField) : Word :=
  match f.vtype with
  | .unsigned _ => f.value &&& mask f.width
  | .signed _ => sextN 64 f.width (f.value &&& mask f.width)
  | .f32 => f.value &&& mask f.width
  | .f64 => f.value &&& mask f.width

/-- The number of bits a list of fields takes. -/
def totalWidth : List PackedField → Nat
  | [] => 0
  | f :: fs => f.width + totalWidth fs

end Sys2Proof.Machine
end

