-- ==== Sys2Proof/Machine/Codec.lean ====
section
/-! DEFINITION. The codec macros (44_codecs.md R180 to R186): routines the host runs by issuing commands, with local variables
that are no BCE state. A macro is not atomic: the commands that succeeded before a failure keep their effect (R181). -/

namespace Sys2Proof.Machine

/-- How a macro ends (44_codecs.md, opening): with a value, or with the status of the failure. -/
inductive Macro (α : Type) where
  | yield (v : α)
  | fail (st : Status)
  /-- the engine gave no answer, or the loop's bound was used up: neither happens (`exec` always answers, and each pass of a
  loop that goes on has consumed input, 70_reset_and_hazards.md R250). -/
  | stopped
deriving DecidableEq, Repr

/-- Issue commands in order, stopping at the first that fails with its status (60_exceptions.md R215). -/
def issueAll : List Instr → State → State × Macro Unit
  | [], s => (s, .yield ())
  | i :: rest, s =>
    match issue i s with
    | none => (s, .stopped)
    | some (r, t) => if r.status = .ok then issueAll rest t else (t, .fail r.status)

/-- The zero-counting loop of UE.RD (44_codecs.md R182), with a bound on its passes. -/
def ueCount (ts : TSize) : Nat → Nat → State → State × Macro Nat
  | 0, _, s => (s, .stopped)
  | passes + 1, counter, s =>
    match issue (.readU ts 1) s with
    | none => (s, .stopped)
    | some (r, t) =>
      if r.status = .ok then
        if r.result = 1 then (t, .yield counter) else ueCount ts passes (counter + 1) t
      else (t, .fail r.status)

/-- UE.RD.<ut> (44_codecs.md R182): decode one order-0 exponential-Golomb number. The loop reads one bit a pass, so it ends
within `ravail() + 1` passes. -/
def ueRead (ts : TSize) (s : State) : State × Macro Nat :=
  match ueCount ts (s.ravail + 1) 0 s with
  | (t, .stopped) => (t, .stopped)
  | (t, .fail st) => (t, .fail st)
  | (t, .yield counter) =>
    if vtypeBits (.unsigned ts) ≤ counter then (t, .fail .contract)
    else
      match issue (.readU ts counter) t with
      | none => (t, .stopped)
      | some (r, u) =>
        if r.status = .ok then (u, .yield ((2 ^ counter ||| r.result.toNat) - 1)) else (u, .fail r.status)

/-- UE.WR.<ut> value (44_codecs.md R183): encode one order-0 exponential-Golomb number, with the early return on zero. The
largest value of the type is refused before anything is written; so is a number that is no value of the type. -/
def ueWrite (ts : TSize) (value : Nat) (s : State) : State × Macro Unit :=
  if value = 0 then issueAll [.writeU ts 1 1] s
  else if 2 ^ vtypeBits (.unsigned ts) - 1 ≤ value then (s, .fail .contract)
  else
    let v1 := value + 1
    let counter := Nat.log2 v1
    issueAll [.writeU ts counter 0, .writeU ts 1 1, .writeU ts counter (BitVec.ofNat 64 v1 &&& mask counter)] s

/-- The loop of SZ.RD (44_codecs.md R185), with a bound on its passes and the characters read so far. -/
def szLoop : Nat → List Byte → State → State × Macro (List Byte)
  | 0, _, s => (s, .stopped)
  | passes + 1, acc, s =>
    match issue (.readU .b8 8) s with
    | none => (s, .stopped)
    | some (r, t) =>
      if r.status = .ok then
        if r.result = 0 then (t, .yield acc) else szLoop passes (acc ++ [r.result.setWidth 8]) t
      else (t, .fail r.status)

/-- SZ.RD (44_codecs.md R185): decode one null-terminated string. Each pass reads eight bits, so the loop ends within
`ravail() / 8 + 1` passes. -/
def szRead (s : State) : State × Macro (List Byte) := szLoop (s.ravail / 8 + 1) [] s

/-- SZ.WR bytes (44_codecs.md R186): each byte, then a zero byte. -/
def szWrite (bytes : List Byte) (s : State) : State × Macro Unit :=
  issueAll (bytes.map (fun b => .writeU .b8 8 (b.setWidth 64)) ++ [.writeU .b8 8 0]) s

end Sys2Proof.Machine
end

