-- ==== Sys2Proof/Machine/Assembler.lean ====
section
/-! DEFINITION. The assembler syntax of 30_encoding.md R100 to R104: one line of text to one command or one codec macro. The
assembler is the host's: nothing here is part of `step`. What the rules leave open of the text (blanks, letter case of
hexadecimal digits, the spelling of a byte list) is fixed here (DESIGN CHOICE, log entry 13). -/

namespace Sys2Proof.Machine

/-- What a line of a script stands for: a command, or a macro that has no command word (30_encoding.md R104). -/
inductive AsmLine where
  | command (i : Instr)
  | ueRead (ts : TSize)
  | ueWrite (ts : TSize) (value : Nat)
  | szRead
  | szWrite (bytes : List Byte)
deriving DecidableEq, Repr

/-! ## Numbers (30_encoding.md R101) -/

/-- The value of a digit in a base up to 16. -/
def digitValue (base : Nat) (c : Char) : Option Nat :=
  let n := c.toNat
  let d :=
    if 48 ≤ n ∧ n ≤ 57 then some (n - 48)
    else if 97 ≤ n ∧ n ≤ 102 then some (n - 87)
    else if 65 ≤ n ∧ n ≤ 70 then some (n - 55)
    else none
  match d with
  | some v => if v < base then some v else none
  | none => none

/-- Digits, most significant first, on top of the value read so far. -/
def digitsValue (base : Nat) : Nat → List Char → Option Nat
  | acc, [] => some acc
  | acc, c :: cs =>
    match digitValue base c with
    | some d => digitsValue base (acc * base + d) cs
    | none => none

/-- A natural number in decimal, hexadecimal with `0x`, or binary with `0b`. -/
def parseNat : List Char → Option Nat
  | [] => none
  | '0' :: 'x' :: c :: cs => digitsValue 16 0 (c :: cs)
  | '0' :: 'b' :: c :: cs => digitsValue 2 0 (c :: cs)
  | c :: cs => digitsValue 10 0 (c :: cs)

/-- A number with an optional minus sign. -/
def parseInt : List Char → Option Int
  | '-' :: cs => (parseNat cs).map (fun n => -(n : Int))
  | cs => (parseNat cs).map (fun n => (n : Int))

/-- A `<width>` operand: an assembler error above 127 (R101). -/
def parseWidth (cs : List Char) : Option Nat :=
  match parseNat cs with
  | some n => if n < 128 then some n else none
  | none => none

/-- An `ARG` operand: an assembler error at or above `2^64` or below `-2^63`; a negative one stands for its 64-bit two's
complement (R101). -/
def parseArg (cs : List Char) : Option Word :=
  match parseInt cs with
  | some n => if n < 2 ^ 64 ∧ -2 ^ 63 ≤ n then some (BitVec.ofInt 64 n) else none
  | none => none

/-! ## Text -/

/-- The text before a comment, which starts with two minus signs (R100). -/
def beforeComment : List Char → List Char
  | [] => []
  | '-' :: '-' :: _ => []
  | c :: cs => c :: beforeComment cs

/-- Without the blanks at the left end. -/
def trimLeft : List Char → List Char
  | [] => []
  | c :: cs => if c = ' ' then trimLeft cs else c :: cs

/-- Without the blanks at both ends. -/
def trimBlanks (cs : List Char) : List Char := (trimLeft (trimLeft cs).reverse).reverse

/-- The text up to the first blank, and the rest. -/
def splitBlank : List Char → List Char × List Char
  | [] => ([], [])
  | c :: cs => if c = ' ' then ([], cs) else ((c :: (splitBlank cs).1), (splitBlank cs).2)

/-- The pieces between separators; always at least one. -/
def splitOn (sep : Char) : List Char → List (List Char)
  | [] => [[]]
  | c :: cs =>
    if c = sep then [] :: splitOn sep cs
    else
      match splitOn sep cs with
      | [] => [[c]]
      | p :: ps => (c :: p) :: ps

/-- The operands of a line: pieces between commas without their blanks; none for a blank text. -/
def operandsOf (cs : List Char) : List (List Char) :=
  match trimBlanks cs with
  | [] => []
  | c :: cs => (splitOn ',' (c :: cs)).map trimBlanks

/-- `<t>` of R100: one of the ten types. -/
def parseType : List Char → Option VType
  | ['u', '8'] => some (.unsigned .b8)
  | ['u', '1', '6'] => some (.unsigned .b16)
  | ['u', '3', '2'] => some (.unsigned .b32)
  | ['u', '6', '4'] => some (.unsigned .b64)
  | ['i', '8'] => some (.signed .b8)
  | ['i', '1', '6'] => some (.signed .b16)
  | ['i', '3', '2'] => some (.signed .b32)
  | ['i', '6', '4'] => some (.signed .b64)
  | ['f', '3', '2'] => some .f32
  | ['f', '6', '4'] => some .f64
  | _ => none

/-- `<t>`, or `e:<t>` with an integral `<t>`: an enumeration read or written as its underlying type (R103). -/
def parseTypeOrEnum : List Char → Option VType
  | 'e' :: ':' :: cs =>
    match parseType cs with
    | some (.unsigned ts) => some (.unsigned ts)
    | some (.signed ts) => some (.signed ts)
    | _ => none
  | cs => parseType cs

/-- `<ut>` of R104: one of the four unsigned types. -/
def parseUnsigned (cs : List Char) : Option TSize :=
  match parseType cs with
  | some (.unsigned ts) => some ts
  | _ => none

/-- The width a floating-point line may leave out (R102). -/
def forcedWidth : VType → Option Nat
  | .unsigned _ => none
  | .signed _ => none
  | .f32 => some 32
  | .f64 => some 64

/-! ## Lines -/

/-- A line that takes no operand. -/
def lineNone (i : AsmLine) : List (List Char) → Option AsmLine
  | [] => some i
  | _ => none

/-- A line whose one operand goes to `ARG`. -/
def lineArg (mk : Word → Instr) : List (List Char) → Option AsmLine
  | [a] => (parseArg a).map (fun x => .command (mk x))
  | _ => none

/-- A line whose one operand is a width. -/
def lineWidth (mk : Nat → Instr) : List (List Char) → Option AsmLine
  | [w] => (parseWidth w).map (fun n => .command (mk n))
  | _ => none

/-- `READ.<t> <width>` or `PEEK.<t> <width>`, the width left out for a float (R100, R102). -/
def lineRead (mk : VType → Nat → Instr) (t : VType) : List (List Char) → Option AsmLine
  | [] => (forcedWidth t).map (fun w => .command (mk t w))
  | [w] => (parseWidth w).map (fun n => .command (mk t n))
  | _ => none

/-- `WRITE.<t> <value>, <width>`, the width left out for a float (R100, R102). -/
def lineWrite (t : VType) : List (List Char) → Option AsmLine
  | [v] =>
    match parseArg v, forcedWidth t with
    | some x, some w => some (.command (writeOf t w x))
    | _, _ => none
  | [v, w] =>
    match parseArg v, parseWidth w with
    | some x, some n => some (.command (writeOf t n x))
    | _, _ => none
  | _ => none

/-- `SEXT <raw>, <width>` (R100). -/
def lineSext : List (List Char) → Option AsmLine
  | [v, w] =>
    match parseArg v, parseWidth w with
    | some x, some n => some (.command (.sext n x))
    | _, _ => none
  | _ => none

/-- `UE.WR.<ut> <value>` (R104): a value of the type. -/
def lineUeWrite (ts : TSize) : List (List Char) → Option AsmLine
  | [v] =>
    match parseNat v with
    | some n => if n < 2 ^ vtypeBits (.unsigned ts) then some (.ueWrite ts n) else none
    | none => none
  | _ => none

/-- Numbers below 256, in order. -/
def parseBytes : List (List Char) → Option (List Byte)
  | [] => some []
  | p :: ps =>
    match parseNat p, parseBytes ps with
    | some n, some bs => if n < 256 then some (BitVec.ofNat 8 n :: bs) else none
    | _, _ => none

/-- `SZ.WR [b, b, ...]` (R104, 44_codecs.md R186). -/
def lineSzWrite (cs : List Char) : Option AsmLine :=
  match trimBlanks cs with
  | '[' :: rest =>
    match rest.reverse with
    | ']' :: inner => (parseBytes (operandsOf inner.reverse)).map .szWrite
    | _ => none
  | _ => none

/-- A line from its mnemonic and the text after it (R100, R102 to R104). -/
def parseLine (mnemonic rest : List Char) : Option AsmLine :=
  match mnemonic with
  | ['R', 'P', 'O', 'S'] => lineNone (.command .rpos) (operandsOf rest)
  | ['R', 'A', 'V', 'A', 'I', 'L'] => lineNone (.command .ravail) (operandsOf rest)
  | ['R', 'S', 'E', 'E', 'K'] => lineArg .rseek (operandsOf rest)
  | ['R', 'S', 'K', 'I', 'P'] => lineArg .rskip (operandsOf rest)
  | ['R', 'A', 'L', 'I', 'G', 'N'] => lineArg .ralign (operandsOf rest)
  | 'R' :: 'E' :: 'A' :: 'D' :: '.' :: t => (parseTypeOrEnum t).bind (fun v => lineRead readOf v (operandsOf rest))
  | 'P' :: 'E' :: 'E' :: 'K' :: '.' :: t => (parseTypeOrEnum t).bind (fun v => lineRead peekOf v (operandsOf rest))
  | ['W', 'P', 'O', 'S'] => lineNone (.command .wpos) (operandsOf rest)
  | 'W' :: 'R' :: 'I' :: 'T' :: 'E' :: '.' :: t => (parseTypeOrEnum t).bind (fun v => lineWrite v (operandsOf rest))
  | ['W', 'F', 'L', 'U', 'S', 'H'] => lineNone (.command .wflush) (operandsOf rest)
  | ['W', 'S', 'K', 'I', 'P'] => lineArg .wskip (operandsOf rest)
  | ['W', 'A', 'L', 'I', 'G', 'N'] => lineArg .walign (operandsOf rest)
  | ['M', 'A', 'S', 'K'] => lineWidth .mask (operandsOf rest)
  | ['S', 'E', 'X', 'T'] => lineSext (operandsOf rest)
  | 'U' :: 'E' :: '.' :: 'R' :: 'D' :: '.' :: t => (parseUnsigned t).bind (fun ts => lineNone (.ueRead ts) (operandsOf rest))
  | 'U' :: 'E' :: '.' :: 'W' :: 'R' :: '.' :: t => (parseUnsigned t).bind (fun ts => lineUeWrite ts (operandsOf rest))
  | ['S', 'Z', '.', 'R', 'D'] => lineNone .szRead (operandsOf rest)
  | ['S', 'Z', '.', 'W', 'R'] => lineSzWrite rest
  | _ => none

/-- The assembler on one line of text; none for an assembler error. -/
def assemble (line : List Char) : Option AsmLine :=
  let text := trimLeft (beforeComment line)
  parseLine (splitBlank text).1 (splitBlank text).2

/-- The transaction a line of text assembles to; none for an error or a macro. -/
def assembleCommand (line : List Char) : Option (Cmd × Word) :=
  match assemble line with
  | some (.command i) => some (encode i)
  | _ => none

/-! ## Running a line -/

/-- What the host gets back from a line. -/
inductive LineAnswer where
  | response (r : Option Response)
  | number (m : Macro Nat)
  | bytes (m : Macro (List Byte))
  | done (m : Macro Unit)
deriving DecidableEq, Repr

/-- Run a line: the answer, and the state after it. -/
def runLine (l : AsmLine) (s : State) : State × LineAnswer :=
  match l with
  | .command i =>
    match issue i s with
    | some (r, t) => (t, .response (some r))
    | none => (s, .response none)
  | .ueRead ts => ((ueRead ts s).1, .number (ueRead ts s).2)
  | .ueWrite ts v => ((ueWrite ts v s).1, .done (ueWrite ts v s).2)
  | .szRead => ((szRead s).1, .bytes (szRead s).2)
  | .szWrite bs => ((szWrite bs s).1, .done (szWrite bs s).2)

end Sys2Proof.Machine
end

