-- ==== Sys2Proof/Machine/Abstract.lean ====
section
/-! DEFINITION. The two abstraction laws of the spec as machines of their own: the reader as one bit cursor over the stream
(10_state.md R35, 42_reader_read_peek.md R147) and the writer as the sequence of bits written so far (10_state.md R38,
43_writer.md R168). `step` uses none of this: statements compare the engine with it. -/

namespace Sys2Proof.Machine

/-! ## The reader's stream -/

/-- Stream bit `q` of a source (00_scope.md R11): bit `7 - q % 8` of byte `q / 8`. -/
def Source.bit (src : Source) (q : Nat) : Bool := (src.mem.read (q / 8)).getLsbD (7 - q % 8)

/-- 42_reader_read_peek.md R147: the number made of the `n` stream bits from `p` on, the first most significant. -/
def streamValue (src : Source) (p : Nat) : Nat → Nat
  | 0 => 0
  | n + 1 => 2 * streamValue src p n + (src.bit (p + n)).toNat

/-- An answer with status OK. -/
def Response.okay (v : Word) : Response := { status := .ok, result := v }

/-- An answer with an error: the result is 0 (60_exceptions.md R209). -/
def Response.error (e : Status) : Response := { status := e, result := 0 }

/-- READ of the one-cursor machine: the answer and the cursor after it. -/
def absRead (src : Source) (p : Nat) (t : VType) (width : Nat) : Response × Nat :=
  if widthOk t width = false then (.error .contract, p)
  else if 8 * src.len < p + width then (.error .eos, p)
  else (.okay (readValue t width (BitVec.ofNat 64 (streamValue src p width))), p + width)

/-- PEEK of the one-cursor machine. -/
def absPeek (src : Source) (p : Nat) (t : VType) (width : Nat) : Response × Nat :=
  ((absRead src p t width).1, p)

/-- 10_state.md R35: the reader whose whole state is the bit cursor `p`. It has no answer for the other units' commands. -/
def absReader (src : Source) (p : Nat) : Instr → Option (Response × Nat)
  | .rpos => some (.okay (BitVec.ofNat 64 p), p)
  | .ravail => some (.okay (BitVec.ofNat 64 (8 * src.len - p)), p)
  | .rseek a => some (if 8 * src.len < a.toNat then (.error .range, p) else (.okay 0, a.toNat))
  | .rskip a => some (if 8 * src.len < p + a.toNat then (.error .eos, p) else (.okay 0, p + a.toNat))
  | .ralign a =>
    some (if a.toNat = 0 then (.error .contract, p)
      else if 8 * src.len < p + alignDistance p a.toNat then (.error .eos, p)
      else (.okay 0, p + alignDistance p a.toNat))
  | .readU ts w => some (absRead src p (.unsigned ts) w)
  | .readS ts w => some (absRead src p (.signed ts) w)
  | .readF32 w => some (absRead src p .f32 w)
  | .readF64 w => some (absRead src p .f64 w)
  | .peekU ts w => some (absPeek src p (.unsigned ts) w)
  | .peekS ts w => some (absPeek src p (.signed ts) w)
  | .peekF32 w => some (absPeek src p .f32 w)
  | .peekF64 w => some (absPeek src p .f64 w)
  | .wpos => none
  | .writeU _ _ _ => none
  | .writeS _ _ _ => none
  | .writeF32 _ _ => none
  | .writeF64 _ _ => none
  | .wflush => none
  | .wskip _ => none
  | .walign _ => none
  | .mask _ => none
  | .sext _ _ => none

/-! ## The writer's bit string -/

/-- The bits of a byte in stream order: bit 7 first (00_scope.md R11). -/
def byteBits (b : Byte) : List Bool := (List.range 8).map (fun j => b.getLsbD (7 - j))

/-- The low `width` bits of an argument in stream order: `ARG[width-1]` first (43_writer.md R168). -/
def argBits (arg : Word) (width : Nat) : List Bool := (List.range width).map (fun j => arg.getLsbD (width - 1 - j))

/-- 43_writer.md R168: the bit string `B` a writer state stands for: the bytes of SNK in order, then the filled bits of
`W.buf`. -/
def Writer.bits (w : Writer) : List Bool :=
  (List.range w.kpos).flatMap (fun a => byteBits (w.snk.read a)) ++ (byteBits w.buf).take (8 - w.avail)

/-- WRITE on the bit string. -/
def absWrite (B : List Bool) (t : VType) (width : Nat) (arg : Word) : Response × List Bool :=
  if widthOk t width = false then (.error .contract, B) else (.okay 0, B ++ argBits arg width)

/-- 10_state.md R38, 43_writer.md R168: the writer whose whole state is the bit string `B` written, skipped or padded so far.
It has no answer for the other units' commands. -/
def absWriter (B : List Bool) : Instr → Option (Response × List Bool)
  | .rpos => none
  | .ravail => none
  | .rseek _ => none
  | .rskip _ => none
  | .ralign _ => none
  | .readU _ _ => none
  | .readS _ _ => none
  | .readF32 _ => none
  | .readF64 _ => none
  | .peekU _ _ => none
  | .peekS _ _ => none
  | .peekF32 _ => none
  | .peekF64 _ => none
  | .wpos => some (.okay (BitVec.ofNat 64 B.length), B)
  | .writeU ts w a => some (absWrite B (.unsigned ts) w a)
  | .writeS ts w a => some (absWrite B (.signed ts) w a)
  | .writeF32 w a => some (absWrite B .f32 w a)
  | .writeF64 w a => some (absWrite B .f64 w a)
  | .wflush => some (.okay 0, B ++ List.replicate (alignDistance B.length 8) false)
  | .wskip a => some (.okay 0, B ++ List.replicate a.toNat false)
  | .walign a =>
    some (if a.toNat = 0 then (.error .contract, B)
      else (.okay 0, B ++ List.replicate (alignDistance B.length a.toNat) false))
  | .mask _ => none
  | .sext _ _ => none

/-- 43_writer.md R168: the bit string after a list of commands, from the bit string before them; the other units' commands
leave it. -/
def writtenBits : List Instr → List Bool → List Bool
  | [], B => B
  | i :: rest, B =>
    match absWriter B i with
    | some (_, B') => writtenBits rest B'
    | none => writtenBits rest B

end Sys2Proof.Machine
end

