-- ==== Sys2Proof/Safety.lean ====
section
/-! DEFINITION. What holds of the machine at rest: the invariants of the reader (10_state.md R25) and of the writer (R29), the
legality of the bound source (00_scope.md R8), and what an answer may be (60_exceptions.md R200, R209). Statements about every
state take `State.Inv` as a premise where they could fail in states that no run reaches. -/

namespace Sys2Proof.Machine

/-- 10_state.md R25, the reader at rest over a source. (I6) is the definition of `ravail`; (I7) follows. -/
structure Reader.Inv (src : Source) (r : Reader) : Prop where
  /-- I1 -/
  shift_le : r.shift ≤ 64
  /-- I2 -/
  pos_le : r.pos ≤ src.len
  /-- I3 -/
  shift_le_pos : r.shift ≤ 8 * r.pos
  /-- I4: the unconsumed part of the buffer is the stream from the cursor up to the byte boundary `8 * S.pos`. -/
  buffer : ∀ i, i < r.shift → r.buf.getLsbD i = src.bit (8 * r.pos - 1 - i)
  /-- I5 -/
  empty_iff : r.shift = 0 ↔ (r.pos = src.len ∧ r.rpos = 8 * src.len)

/-- 10_state.md R29, the writer at rest. (J3) is the definition of `wpos`. -/
structure Writer.Inv (w : Writer) : Prop where
  /-- J1 -/
  avail_pos : 1 ≤ w.avail
  /-- J1 -/
  avail_le : w.avail ≤ 8
  /-- J2: every free slot holds zero. -/
  free_zero : ∀ i, i < w.avail → w.buf.getLsbD i = false
  /-- J4: `SNK` holds bytes at the addresses below `K.pos` only, in canonical form. -/
  snk_wf : w.snk.wf = true
  snk_below : cellsBelow w.kpos w.snk = true
  /-- J4: so does `SNKNB`. -/
  snknb_wf : w.snknb.wf = true
  snknb_below : cellsBelow w.kpos w.snknb = true
  /-- R28: each count is 1 to 8. -/
  counts : ∀ c ∈ w.snknb, 1 ≤ c.2 ∧ c.2 ≤ 8

/-- What an answer may be: IOERR is never raised (60_exceptions.md R206), and the result of an error is 0 (R209). -/
def Response.fair (r : Response) : Bool := (r.status != .ioerr) && (r.status == .ok || r.result == 0)

/-- The machine at rest. -/
structure State.Inv (s : State) : Prop where
  source : s.source.legal = true
  reader : s.rd.Inv s.source
  writer : s.wr.Inv
  answer : ∀ r, s.resp = some r → r.fair = true

/-- Two readers alike in everything a command can depend on: the bits of `R.buf` at or above `R.shift` are left out, since no
claim may rest on them (10_state.md R32, 93_implementation_defined.md U7; log entry 10). -/
structure Reader.Agrees (r x : Reader) : Prop where
  shift : r.shift = x.shift
  pos : r.pos = x.pos
  buffer : ∀ j, j < x.shift → r.buf.getLsbD j = x.buf.getLsbD j

end Sys2Proof.Machine
end

