-- ==== Sys2Proof/Certificates/Slice0/Obligations.lean ====
section
/-! DEFINITION. The statements about the model, from the numbered rules of spec/. `State.Inv` (Safety.lean) is the machine at
rest; that reset has it and that every step keeps it are statements of their own (`ResetIsAtRest`, `StepKeepsMachineAtRest`).
Where a statement gives the next state as an equation, the equation is its frame: every field not named in it is as before. -/

open Sys2Proof Sys2Proof.Machine

/-! ## Encoding -/

/-- R81, R82, R88, R94: the decoder gives back every command, with every operand the encoding admits. -/
def Obligations.DecodeOfEncodeIsTheCommand : Prop :=
  ∀ i : Instr, i.wf = true → decode (encode i).1 (encode i).2 = .instr i

/-- R88: a word that decodes to a command is that command's one encoding, and the command is well formed. -/
def Obligations.DecodedWordIsTheOnlyEncoding : Prop :=
  ∀ (c : Cmd) (arg : Word) (i : Instr), decode c arg = .instr i → i.wf = true ∧ encodeCmd i = c

/-- R94: a word is a row's command exactly when `c & mask = match`; rows do not overlap; a word matching no row is illegal. -/
def Obligations.RowsAcceptExactlyTheirCommands : Prop :=
  ∀ (c : Cmd) (arg : Word),
    (∀ i, decode c arg = .instr i → ∀ r ∈ rows, (r.accepts c = true ↔ r.mnemonic = i.mnemonic)) ∧
    (∀ i, decode c arg = .instr i → ∃ r ∈ rows, r.accepts c = true) ∧
    (∀ why, decode c arg = .illegal why → ∀ r ∈ rows, r.accepts c = false)

/-- R89: the tests of the decoder in the rule's order, on the numbers of the fields. -/
def Obligations.DecoderTestsInOrder : Prop :=
  ∀ (c : Cmd) (arg : Word) (op cat tsize z : Nat),
    op = c.toNat / 4096 → cat = c.toNat / 1024 % 4 → tsize = c.toNat / 256 % 4 → z = c.toNat / 128 % 2 →
    ∀ why : Illegal, decode c arg = .illegal why ↔
      (if op = 0x0 ∨ op = 0xF then some Illegal.reservedOp
        else if z = 1 then some Illegal.zBit
        else if op ∈ [0x1, 0x2, 0x3, 0x4, 0x5, 0x8, 0xA, 0xB, 0xC] ∧ c.toNat % 4096 ≠ 0 then some Illegal.unusedField
        else if op ∈ [0xD, 0xE] ∧ c.toNat / 256 % 16 ≠ 0 then some Illegal.unusedField
        else if op ∈ [0x6, 0x7, 0x9] ∧ cat = 3 then some Illegal.reservedCat
        else if op ∈ [0x6, 0x7, 0x9] ∧ cat = 2 ∧ tsize < 2 then some Illegal.floatSize
        else none) = some why

/-- R105: worked encodings, as words and as the commands they decode to, with the `ARG` of the rule's table. -/
def Obligations.WorkedEncodings : Prop :=
  decode 0x6220 0 = .instr (.readU .b32 32) ∧ decode 0x6340 0 = .instr (.readU .b64 64) ∧
  decode 0x6008 0 = .instr (.readU .b8 8) ∧ decode 0x6408 0 = .instr (.readS .b8 8) ∧
  decode 0x7406 0 = .instr (.peekS .b8 6) ∧ decode 0x6A20 0 = .instr (.readF32 32) ∧
  decode 0x9003 0xFD = .instr (.writeU .b8 3 0xFD) ∧
  decode 0x950C 0xFFFFFFFFFFFFFFFE = .instr (.writeS .b16 12 0xFFFFFFFFFFFFFFFE) ∧
  decode 0x9B40 0x3FF0000000000000 = .instr (.writeF64 64 0x3FF0000000000000) ∧
  decode 0xA000 0 = .instr .wflush ∧ decode 0xC000 7 = .instr (.walign 7) ∧ decode 0x3000 0xD = .instr (.rseek 0xD) ∧
  decode 0xD040 0 = .instr (.mask 64) ∧ decode 0xE006 0x3F = .instr (.sext 6 0x3F)

/-- R105, R100 to R103: the lines of R105's table and the words and arguments beside them; an enumeration (R103); a comment
(R100); lines that are assembler errors (R101). The blanks of a line are the model's choice (log entry 13). -/
def Obligations.AssemblerLines : Prop :=
  assembleCommand "READ.u32 32".toList = some (0x6220, 0) ∧ assembleCommand "READ.u64 64".toList = some (0x6340, 0) ∧
  assembleCommand "READ.u8 8".toList = some (0x6008, 0) ∧ assembleCommand "READ.i8 8".toList = some (0x6408, 0) ∧
  assembleCommand "PEEK.i8 6".toList = some (0x7406, 0) ∧ assembleCommand "READ.f32".toList = some (0x6A20, 0) ∧
  assembleCommand "WRITE.u8 0xFD, 3".toList = some (0x9003, 0xFD) ∧
  assembleCommand "WRITE.i16 -2, 12".toList = some (0x950C, 0xFFFFFFFFFFFFFFFE) ∧
  assembleCommand "WRITE.f64 0x3FF0000000000000".toList = some (0x9B40, 0x3FF0000000000000) ∧
  assembleCommand "WFLUSH".toList = some (0xA000, 0) ∧ assembleCommand "WALIGN 7".toList = some (0xC000, 7) ∧
  assembleCommand "RSEEK 13".toList = some (0x3000, 0xD) ∧ assembleCommand "MASK 64".toList = some (0xD040, 0) ∧
  assembleCommand "SEXT 0b111111, 6".toList = some (0xE006, 0x3F) ∧
  assembleCommand "READ.e:u16 12".toList = assembleCommand "READ.u16 12".toList ∧
  assembleCommand "WALIGN 7 -- pad".toList = some (0xC000, 7) ∧
  assemble "READ.u64 128".toList = none ∧ assemble "RSKIP 0x10000000000000000".toList = none

/-! ## Step, errors, reset -/

/-- R80: when the host presents a word that decodes to `i`, the step is `exec i`, with the event taken off the input. -/
def Obligations.StepRunsTheDecodedCommand : Prop :=
  (∀ (s : State) (c : Cmd) (arg : Word) (rest : List Event) (i : Instr),
    s.input = .command c arg :: rest → decode c arg = .instr i → step s = exec i (s.withInput rest)) ∧
  (∀ (s : State) (nbits w : Nat) (i : Instr), decodeTableWord nbits w = some i → step (s.withFetchWord nbits w) = exec i s)

/-- R204: a word the decoder rejects is answered ILLEGAL with result 0 and no state change; no other word is. -/
def Obligations.IllegalWordAnswersIllegal : Prop :=
  ∀ (s : State) (c : Cmd) (arg : Word),
    (∀ why, decode c arg = .illegal why →
      runCommand c arg s = .next (s.withAnswer { status := .illegal, result := 0 })) ∧
    (∀ t a, runCommand c arg s = .next t → t.resp = some a → a.status = .illegal → ∃ why, decode c arg = .illegal why)

/-- R230: a reset with a source the platform may bind leaves the reset state over it, whatever the state before. A reset is an
event of the model's input queue (the model's choice, log entries 3 and 5). -/
def Obligations.ResetEventRebuildsEverything : Prop :=
  ∀ (s : State) (src : Source) (rest : List Event), s.input = .reset src :: rest → src.legal = true →
    step s = .next ((State.resetOver src).withInput rest)

/-- Where the model's step gives no next state: nothing presented, or a reset with a source that R8 does not allow (the
model's choice, log entries 3 and 5); and it never faults (R209). -/
def Obligations.StepStopsOnlyWithoutLegalEvent : Prop :=
  ∀ s : State, (∃ t, step s = .next t) ↔
    ∃ e rest, s.input = e :: rest ∧ ∀ src, e = .reset src → src.legal = true

/-- R231, R232: the reset values over any source, and over an empty one. The zeros of `R.buf` above the loaded bytes are
R231's words; no other statement gives such bits a value (93_implementation_defined.md U7). -/
def Obligations.ResetValues : Prop :=
  ∀ src : Source,
    (State.resetOver src).rd =
      { buf := BitVec.ofNat 64 (memRead src 0 (min 8 src.len)), shift := 8 * min 8 src.len, pos := min 8 src.len } ∧
    (State.resetOver src).rpos = 0 ∧ (State.resetOver src).ravail = 8 * src.len ∧
    (src.len = 0 → (State.resetOver src).rd = { buf := 0, shift := 0, pos := 0 }) ∧
    (State.resetOver src).wr = { buf := 0, avail := 8, snk := [], kpos := 0, snknb := [] } ∧
    (State.resetOver src).wpos = 0

/-- R25, R29: the machine is at rest right after reset, over every source the platform may bind; `State.reset` is the case of
the empty source (the model's choice, log entry 2). -/
def Obligations.ResetIsAtRest : Prop :=
  State.reset.Inv ∧ State.reset = State.resetOver (Source.ofBytes []) ∧
    ∀ src : Source, src.legal = true → (State.resetOver src).Inv

/-- R25, R29: every step keeps the machine at rest, whatever the status (the reader's I1 to I5, the writer's J1, J2, J4, the
canonical form of both stores, the legality of the source; 60 R206, R209: IOERR is never answered and an error's result
is 0). -/
def Obligations.StepKeepsMachineAtRest : Prop :=
  ∀ s t : State, s.Inv → step s = .next t → t.Inv

/-- R250: every command terminates with an answer, and leaves the bound source and the events still to come alone. -/
def Obligations.EveryCommandAnswers : Prop :=
  ∀ (i : Instr) (s : State), ∃ (t : State) (a : Response),
    exec i s = .next t ∧ t.resp = some a ∧ t.source = s.source ∧ t.input = s.input

/-- R210: a command that raises, for an illegal word too, writes no state element, and its result is 0 (R209). -/
def Obligations.RaisingWritesNoStateElement : Prop :=
  ∀ (s t : State) (c : Cmd) (arg : Word) (a : Response), runCommand c arg s = .next t → t.resp = some a →
    a.status ≠ .ok → t = s.withAnswer { status := a.status, result := 0 }

/-- R211: after an error the next command is performed exactly as if the failing command had not been issued. -/
def Obligations.ErrorLeavesNoTrace : Prop :=
  ∀ (s t : State) (c c' : Cmd) (arg arg' : Word) (a : Response), runCommand c arg s = .next t → t.resp = some a →
    a.status ≠ .ok → runCommand c' arg' t = runCommand c' arg' s

/-- R200, R205, R206: which commands can answer which error, and that IOERR and (for a decoded command) ILLEGAL are never
answered. -/
def Obligations.StatusesEachCommandCanAnswer : Prop :=
  ∀ (i : Instr) (s t : State) (a : Response), exec i s = .next t → t.resp = some a →
    a.status ≠ .ioerr ∧ a.status ≠ .illegal ∧
    (a.status = .eos → (∃ ty w, i = readOf ty w) ∨ (∃ ty w, i = peekOf ty w) ∨ (∃ n, i = .rskip n) ∨ ∃ n, i = .ralign n) ∧
    (a.status = .range → ∃ n, i = .rseek n) ∧
    (a.status = .contract → (∃ ty w, i = readOf ty w) ∨ (∃ ty w, i = peekOf ty w) ∨ (∃ ty w n, i = writeOf ty w n) ∨
      (∃ w, i = .mask w) ∨ (∃ w n, i = .sext w n) ∨ (∃ n, i = .ralign n) ∨ ∃ n, i = .walign n) ∧
    (i = .rpos ∨ i = .ravail ∨ i = .wpos ∨ i = .wflush ∨ (∃ n, i = .wskip n) → a.status = .ok)

/-- R203, R208: CONTRACT, with no state change, exactly on an operand out of range (integral: wider than the type; float: not
the type's width; MASK and SEXT: above 64; align: 0), whatever the stream holds; the other commands never raise it. -/
def Obligations.ContractExactlyOnOperandRange : Prop :=
  ∀ (s : State) (ts : TSize) (w : Nat) (a : Word) (W : Nat),
    W = (match ts with | .b8 => 8 | .b16 => 16 | .b32 => 32 | .b64 => 64) →
    let contract := Host.Outcome.next (s.withAnswer { status := .contract, result := 0 })
    (∀ i, i = .readU ts w ∨ i = .readS ts w ∨ i = .peekU ts w ∨ i = .peekS ts w ∨ i = .writeU ts w a ∨ i = .writeS ts w a →
      (exec i s = contract ↔ W < w)) ∧
    (∀ i, i = .readF32 w ∨ i = .peekF32 w ∨ i = .writeF32 w a → (exec i s = contract ↔ w ≠ 32)) ∧
    (∀ i, i = .readF64 w ∨ i = .peekF64 w ∨ i = .writeF64 w a → (exec i s = contract ↔ w ≠ 64)) ∧
    (∀ i, i = .mask w ∨ i = .sext w a → (exec i s = contract ↔ 64 < w)) ∧
    (∀ i, i = .ralign a ∨ i = .walign a → (exec i s = contract ↔ a = 0)) ∧
    (∀ i t x, i = .rpos ∨ i = .ravail ∨ i = .rseek a ∨ i = .rskip a ∨ i = .wpos ∨ i = .wflush ∨ i = .wskip a →
      exec i s = .next t → t.resp = some x → x.status ≠ .contract)

/-- R201, R208: EOS exactly when a request whose operand is in range needs more bits than `ravail()`. -/
def Obligations.EndOfStreamExactlyBeyondAvailable : Prop :=
  ∀ (s : State) (t : VType) (w : Nat) (a : Word),
    let eos := Host.Outcome.next (s.withAnswer { status := .eos, result := 0 })
    (exec (readOf t w) s = eos ↔ widthOk t w = true ∧ s.ravail < w) ∧
    (exec (peekOf t w) s = eos ↔ widthOk t w = true ∧ s.ravail < w) ∧
    (exec (.rskip a) s = eos ↔ s.ravail < a.toNat) ∧
    (exec (.ralign a) s = eos ↔ a ≠ 0 ∧ s.ravail < (a.toNat - s.rpos % a.toNat) % a.toNat)

/-- R202: RANGE exactly when the target of RSEEK is beyond `8 * SRC_LEN`, with the reader left where it was; no other command
raises it. -/
def Obligations.RangeExactlyBeyondStream : Prop :=
  (∀ (s : State) (a : Word),
    exec (.rseek a) s = .next (s.withAnswer { status := .range, result := 0 }) ↔ 8 * s.source.len < a.toNat) ∧
  (∀ (i : Instr) (s t : State) (x : Response), exec i s = .next t → t.resp = some x → x.status = .range →
    ∃ a, i = .rseek a ∧ 8 * s.source.len < a.toNat)

/-! ## The units -/

/-- R2, R50: the reader's answers and registers depend on the source and the reader only, the writer's on the writer only; and
no command touches the other unit. -/
def Obligations.UnitsShareNoState : Prop :=
  (∀ (i : Instr) (s s' t t' : State), i.isReader = true → s.source = s'.source → s.rd = s'.rd →
    exec i s = .next t → exec i s' = .next t' → t.rd = t'.rd ∧ t.resp = t'.resp ∧ t.wr = s.wr) ∧
  (∀ (i : Instr) (s s' t t' : State), i.isWriter = true → s.wr = s'.wr →
    exec i s = .next t → exec i s' = .next t' → t.wr = t'.wr ∧ t.resp = t'.resp ∧ t.rd = s.rd) ∧
  (∀ (i : Instr) (s s' t t' : State), i.isReader = false → i.isWriter = false →
    exec i s = .next t → exec i s' = .next t' → t.resp = t'.resp ∧ t.rd = s.rd ∧ t.wr = s.wr)

/-- R20: PEEK, RPOS, RAVAIL, WPOS, MASK and SEXT write no state element, whatever the status. -/
def Obligations.QueriesWriteNothing : Prop :=
  ∀ (i : Instr) (s t : State),
    (∃ ty w, i = peekOf ty w) ∨ i = .rpos ∨ i = .ravail ∨ i = .wpos ∨ (∃ w, i = .mask w) ∨ (∃ w a, i = .sext w a) →
    exec i s = .next t → ∃ a, t = s.withAnswer a

/-! ## The helper unit -/

/-- R110: `mask(n)` is `2^n - 1`: bits `n-1..0` set and the others clear. -/
def Obligations.MaskIsAllOnesBelow : Prop :=
  ∀ n, n ≤ 64 → (Machine.mask n).toNat = 2 ^ n - 1 ∧ ∀ j, j < 64 → ((Machine.mask n).getLsbD j = true ↔ j < n)

/-- R112: sign extension as a signed number, as bits, and widened again. -/
def Obligations.SignExtensionIsTwosComplement : Prop :=
  (∀ (N w : Nat) (raw : BitVec N), w ≤ N → raw.toNat < 2 ^ w →
    (sextN N w raw).toInt =
      if w = 0 then 0 else if raw.toNat < 2 ^ (w - 1) then (raw.toNat : Int) else (raw.toNat : Int) - 2 ^ w) ∧
  (∀ (N w j : Nat) (raw : BitVec N), 1 ≤ w → w ≤ N → raw.toNat < 2 ^ w → j < N →
    (sextN N w raw).getLsbD j = raw.getLsbD (min j (w - 1))) ∧
  (∀ (N M w : Nat) (raw : BitVec N), w ≤ N → N ≤ M → raw.toNat < 2 ^ w →
    sextN M N ((sextN N w raw).setWidth M) = sextN M w (raw.setWidth M))

/-- R115: a field of a buffer as a number, and that it does not depend on the bits from `s` up. -/
def Obligations.ExtractIgnoresBitsAbove : Prop :=
  ∀ (buf buf' : Word) (s n : Nat), n ≤ s → s ≤ 64 →
    (extract buf s n).toNat = buf.toNat / 2 ^ (s - n) % 2 ^ n ∧
    ((∀ i, i < s → buf.getLsbD i = buf'.getLsbD i) → extract buf s n = extract buf' s n)

/-- MASK (R111): completes for a width up to 64, with the mask. -/
def Obligations.MaskAnswersTheMask : Prop :=
  ∀ (s : State) (w : Nat), w ≤ 64 →
    ∃ v, exec (.mask w) s = .next (s.withAnswer { status := .ok, result := v }) ∧ v.toNat = 2 ^ w - 1

/-- SEXT (R113): completes for a width up to 64, with the low `w` bits of `ARG` read in two's complement. -/
def Obligations.SextAnswersTheSignedField : Prop :=
  ∀ (s : State) (w : Nat) (a : Word), w ≤ 64 →
    ∃ v, exec (.sext w a) s = .next (s.withAnswer { status := .ok, result := v }) ∧
      v.toInt = if w = 0 then 0
        else if a.toNat % 2 ^ w < 2 ^ (w - 1) then ((a.toNat % 2 ^ w : Nat) : Int)
        else ((a.toNat % 2 ^ w : Nat) : Int) - 2 ^ w

/-! ## The reader -/

/-- R52: `MemRead(a, n)` has `8n` bits, and the byte at the lowest address is the most significant. -/
def Obligations.MemReadIsBigEndian : Prop :=
  ∀ (src : Source) (a n : Nat), memRead src a n < 256 ^ n ∧
    ∀ j, j < n → memRead src a n / 256 ^ (n - 1 - j) % 256 = (src.mem.read (a + j)).toNat

/-- RPOS and RAVAIL (R122, R123) complete in every state, and at rest the answers are the counts themselves, which add up to
the stream's length (R25 I7, R87). -/
def Obligations.RposAndRavailAnswerTheCounts : Prop :=
  ∀ s : State,
    exec .rpos s = .next (s.withAnswer { status := .ok, result := BitVec.ofNat 64 s.rpos }) ∧
    exec .ravail s = .next (s.withAnswer { status := .ok, result := BitVec.ofNat 64 s.ravail }) ∧
    (s.Inv → (BitVec.ofNat 64 s.rpos).toNat = s.rpos ∧ (BitVec.ofNat 64 s.ravail).toNat = s.ravail ∧
      s.rpos + s.ravail = 8 * s.source.len)

/-- RSKIP (R124, R125): completes for every count up to `ravail()`; the registers of the rule's three cases, the cursor forward
by `ARG`, and nothing else written. -/
def Obligations.RskipAdvancesTheCursor : Prop :=
  ∀ (s : State) (a : Word) (rem n : Nat), s.Inv → a.toNat ≤ s.ravail → rem = a.toNat - s.rd.shift →
    n = min 8 (s.source.len - (s.rd.pos + rem / 8)) →
    ∃ r, exec (.rskip a) s = .next ((s.withReader r).withAnswer { status := .ok, result := 0 }) ∧
      r.Agrees (if a.toNat < s.rd.shift then { buf := s.rd.buf, shift := s.rd.shift - a.toNat, pos := s.rd.pos }
        else { buf := BitVec.ofNat 64 (memRead s.source (s.rd.pos + rem / 8) n)
               shift := 8 * n - rem % 8
               pos := s.rd.pos + rem / 8 + n }) ∧
      r.rpos = s.rpos + a.toNat ∧ r.ravail s.source = s.ravail - a.toNat

/-- RSEEK (R126): completes for every position up to `8 * SRC_LEN`, from any state; the registers of the rule's
postcondition, and nothing else written. -/
def Obligations.RseekSetsTheCursor : Prop :=
  ∀ (s : State) (a : Word) (n : Nat), a.toNat ≤ 8 * s.source.len → n = min 8 (s.source.len - a.toNat / 8) →
    ∃ r, exec (.rseek a) s = .next ((s.withReader r).withAnswer { status := .ok, result := 0 }) ∧
      r.Agrees
        { buf := BitVec.ofNat 64 (memRead s.source (a.toNat / 8) n)
          shift := 8 * n - a.toNat % 8
          pos := a.toNat / 8 + n } ∧
      r.rpos = a.toNat

/-- RALIGN (R127, R129): completes for every modulus whose next multiple is in the stream; the cursor goes to the least
multiple at or above it, and nothing else is written. -/
def Obligations.RalignReachesTheNextMultiple : Prop :=
  ∀ (s : State) (a : Word), s.Inv → a ≠ 0 → (a.toNat - s.rpos % a.toNat) % a.toNat ≤ s.ravail →
    ∃ r, exec (.ralign a) s = .next ((s.withReader r).withAnswer { status := .ok, result := 0 }) ∧
      a.toNat ∣ r.rpos ∧ s.rpos ≤ r.rpos ∧ (∀ m, a.toNat ∣ m → s.rpos ≤ m → r.rpos ≤ m) ∧
      s.rpos + (a.toNat - s.rpos % a.toNat) % a.toNat = r.rpos

/-- READ.U, READ.F32, READ.F64 (R143, R146, R147): complete for every width the type allows that the stream still holds; the
answer is the number made of the next stream bits, the first most significant; the cursor moves past them; nothing else is
written. -/
def Obligations.ReadUnsignedAndFloatReturnTheField : Prop :=
  ∀ (s : State) (w : Nat) (i : Instr), s.Inv → w ≤ s.ravail →
    ((∃ ts, i = .readU ts w ∧ widthOk (.unsigned ts) w = true) ∨ (i = .readF32 w ∧ w = 32) ∨ (i = .readF64 w ∧ w = 64)) →
    ∃ r v, exec i s = .next ((s.withReader r).withAnswer { status := .ok, result := v }) ∧
      v.toNat = streamValue s.source s.rpos w ∧ r.rpos = s.rpos + w ∧ r.ravail s.source = s.ravail - w

/-- READ.S (R143, R146, R147): the same field read in two's complement at exactly `w` bits; 0 for width 0. -/
def Obligations.ReadSignedReturnsTheSignedField : Prop :=
  ∀ (s : State) (ts : TSize) (w : Nat), s.Inv → widthOk (.signed ts) w = true → w ≤ s.ravail →
    ∃ r v, exec (.readS ts w) s = .next ((s.withReader r).withAnswer { status := .ok, result := v }) ∧
      v.toInt = (if w = 0 then 0
        else if s.source.bit s.rpos then (streamValue s.source s.rpos w : Int) - 2 ^ w
        else (streamValue s.source s.rpos w : Int)) ∧
      r.rpos = s.rpos + w ∧ r.ravail s.source = s.ravail - w

/-- R140, R145: the reader's registers after a READ, in the three cases of the loop. -/
def Obligations.ReadLeavesTheLoopsRegisters : Prop :=
  ∀ (s t : State) (ty : VType) (w n : Nat), s.Inv → widthOk ty w = true → w ≤ s.ravail →
    n = min 8 (s.source.len - s.rd.pos) → exec (readOf ty w) s = .next t →
    t.rd.Agrees
      (if w < s.rd.shift then { buf := s.rd.buf, shift := s.rd.shift - w, pos := s.rd.pos }
      else if w - s.rd.shift < 8 * n then
        { buf := BitVec.ofNat 64 (memRead s.source s.rd.pos n), shift := 8 * n - (w - s.rd.shift), pos := s.rd.pos + n }
      else { buf := 0, shift := 0, pos := s.source.len })

/-- PEEK.U, PEEK.F32, PEEK.F64 (R144): the answer READ would give, with no state element written. -/
def Obligations.PeekUnsignedAndFloatReturnTheField : Prop :=
  ∀ (s : State) (w : Nat) (i : Instr), s.Inv → w ≤ s.ravail →
    ((∃ ts, i = .peekU ts w ∧ widthOk (.unsigned ts) w = true) ∨ (i = .peekF32 w ∧ w = 32) ∨ (i = .peekF64 w ∧ w = 64)) →
    ∃ v, exec i s = .next (s.withAnswer { status := .ok, result := v }) ∧ v.toNat = streamValue s.source s.rpos w

/-- PEEK.S (R144): the signed field, with no state element written. -/
def Obligations.PeekSignedReturnsTheSignedField : Prop :=
  ∀ (s : State) (ts : TSize) (w : Nat), s.Inv → widthOk (.signed ts) w = true → w ≤ s.ravail →
    ∃ v, exec (.peekS ts w) s = .next (s.withAnswer { status := .ok, result := v }) ∧
      v.toInt = if w = 0 then 0
        else if s.source.bit s.rpos then (streamValue s.source s.rpos w : Int) - 2 ^ w
        else (streamValue s.source s.rpos w : Int)

/-- R144: `PEEK.<t> w` followed by `READ.<t> w` return the same status and result, in every state. -/
def Obligations.PeekThenReadAgree : Prop :=
  ∀ (s t u : State) (ty : VType) (w : Nat), exec (peekOf ty w) s = .next t → exec (readOf ty w) t = .next u →
    t.resp = u.resp ∧ t.rd = s.rd

/-- R35, R147: at rest the reader is the machine whose only state is the bit cursor: same answers, same cursor after. -/
def Obligations.ReaderIsOneBitCursor : Prop :=
  ∀ (i : Instr) (s : State) (a : Response) (p : Nat), s.Inv → absReader s.source s.rpos i = some (a, p) →
    ∃ t, exec i s = .next t ∧ t.resp = some a ∧ t.rpos = p ∧ t.wr = s.wr ∧ t.source = s.source ∧ t.input = s.input

/-- R32, R35: which buffer, count and source cursor stand for a bit cursor cannot be told from any answer. -/
def Obligations.BufferTripleIsUnobservable : Prop :=
  ∀ (i : Instr) (s s' t t' : State), i.isReader = true → s.Inv → s'.Inv → s.source = s'.source → s.rpos = s'.rpos →
    exec i s = .next t → exec i s' = .next t' → t.resp = t'.resp ∧ t.rpos = t'.rpos

/-- R120: the cursor never decreases except through RSEEK. -/
def Obligations.OnlySeekMovesTheCursorBack : Prop :=
  ∀ (i : Instr) (s t : State), s.Inv → exec i s = .next t → (∀ a, i ≠ .rseek a) → s.rpos ≤ t.rpos

/-! ## The writer and the sink -/

/-- WPOS (R161): completes in every state with the position reduced modulo `2^64`. -/
def Obligations.WposAnswersThePosition : Prop :=
  ∀ s : State, ∃ v, exec .wpos s = .next (s.withAnswer { status := .ok, result := v }) ∧
    v.toNat = (s.wr.kpos * 8 + (8 - s.wr.avail)) % 2 ^ 64

/-- WRITE.U, WRITE.S, WRITE.F32, WRITE.F64 (R162, R168): complete for every width the type allows; the low `w` bits of `ARG`
are appended, most significant first; the whole bytes go to SNK, the bytes before them stay, and nothing else is written (R63: `floor((8 - W.avail + w) / 8)` emits). -/
def Obligations.WriteAppendsTheLowBits : Prop :=
  ∀ (s : State) (ty : VType) (w : Nat) (a : Word), s.Inv → widthOk ty w = true →
    ∃ x, exec (writeOf ty w a) s = .next ((s.withWriter x).withAnswer { status := .ok, result := 0 }) ∧
      x.bits = s.wr.bits ++ argBits a w ∧ x.wpos = s.wpos + w ∧
      x.kpos = s.wr.kpos + (8 - s.wr.avail + w) / 8 ∧
      (∀ j, j < s.wr.kpos → x.byte j = s.wr.byte j)

/-- WFLUSH (R163): completes at rest; a partly filled byte is put with its zeros, and
nothing happens when no byte is partly filled; the position goes to the least multiple of 8 at or above it. -/
def Obligations.WflushForcesOutAPartialByte : Prop :=
  ∀ s : State, s.Inv →
    ∃ x, exec .wflush s = .next ((s.withWriter x).withAnswer { status := .ok, result := 0 }) ∧
      (s.wr.avail = 8 → x = s.wr) ∧
      (s.wr.avail < 8 → x.kpos = s.wr.kpos + 1 ∧ x.byte s.wr.kpos = some s.wr.buf ∧ x.buf = 0 ∧ x.avail = 8) ∧
      (∀ j, j < s.wr.kpos → x.byte j = s.wr.byte j) ∧
      8 ∣ x.wpos ∧ s.wpos ≤ x.wpos ∧ x.wpos < s.wpos + 8

/-- WSKIP (R164, R165): completes at rest for every count; so many zero bits are appended, and nothing else is written. -/
def Obligations.WskipAppendsZeros : Prop :=
  ∀ (s : State) (a : Word), s.Inv →
    ∃ x, exec (.wskip a) s = .next ((s.withWriter x).withAnswer { status := .ok, result := 0 }) ∧
      x.bits = s.wr.bits ++ List.replicate a.toNat false ∧ x.wpos = s.wpos + a.toNat ∧
      x.kpos = s.wr.kpos + (8 - s.wr.avail + a.toNat) / 8 ∧
      (∀ j, j < s.wr.kpos → x.byte j = s.wr.byte j)

/-- WALIGN (R166, R167): completes at rest for every modulus but 0; zero bits up to the least multiple at or above the
position, and nothing else is written. -/
def Obligations.WalignReachesTheNextMultiple : Prop :=
  ∀ (s : State) (a : Word), s.Inv → a ≠ 0 →
    ∃ x, exec (.walign a) s = .next ((s.withWriter x).withAnswer { status := .ok, result := 0 }) ∧
      a.toNat ∣ x.wpos ∧ s.wpos ≤ x.wpos ∧ (∀ m, a.toNat ∣ m → s.wpos ≤ m → x.wpos ≤ m) ∧
      x.bits = s.wr.bits ++ List.replicate (x.wpos - s.wpos) false ∧
      (∀ j, j < s.wr.kpos → x.byte j = s.wr.byte j)

/-- R38, R168: at rest the writer is the machine whose only state is the bit string written so far: same answers, same bit
string after. -/
def Obligations.WriterIsItsBitString : Prop :=
  ∀ (i : Instr) (s : State) (a : Response) (B : List Bool), s.Inv → absWriter s.wr.bits i = some (a, B) →
    ∃ t, exec i s = .next t ∧ t.resp = some a ∧ t.wr.bits = B ∧ t.rd = s.rd ∧ t.source = s.source ∧ t.input = s.input

/-- R168: over every list of commands from reset: the bits of all successful writes, skips and paddings, in order, are the bytes
of SNK, first bit in bit 7, and then the filled bits of `W.buf`, with zeros below. -/
def Obligations.ContentLawOverRuns : Prop :=
  ∀ (src : Source) (is : List Instr), ∃ as t, runScript is (State.resetOver src) = some (as, t) ∧
    (writtenBits is []).length = t.wpos ∧
    (∀ i j, i < t.wr.kpos → j < 8 → (writtenBits is [])[8 * i + j]? = some ((t.wr.snk.read i).getLsbD (7 - j))) ∧
    (∀ j, j < 8 - t.wr.avail → (writtenBits is [])[8 * t.wr.kpos + j]? = some (t.wr.buf.getLsbD (7 - j))) ∧
    (∀ j, j < t.wr.avail → t.wr.buf.getLsbD j = false)

/-- R38: at rest the bit string determines the accumulator, the free slots and the sink's bytes. -/
def Obligations.BitStringDeterminesTheWriter : Prop :=
  ∀ w x : Writer, w.Inv → x.Inv → w.bits = x.bits →
    w.buf = x.buf ∧ w.avail = x.avail ∧ w.kpos = x.kpos ∧ w.snk = x.snk

/-- R29 J4, R60: `SNK` only ever grows, and a byte once in it never changes. -/
def Obligations.SinkIsAppendOnly : Prop :=
  ∀ (i : Instr) (s t : State), s.Inv → exec i s = .next t →
    s.wr.kpos ≤ t.wr.kpos ∧ ∀ j b, s.wr.byte j = some b → t.wr.byte j = some b

/-- R28, R59, R61: the side band: every byte of SNK has a count, older counts stay, a WFLUSH records `8 - W.avail`, every other
emit 8. A convention of the spec that no claim about a real sink may rest on (92_eei_decisions.md D14). -/
def Obligations.SideBandRecordsTheCounts : Prop :=
  ∀ (i : Instr) (s t : State), s.Inv → exec i s = .next t →
    (∀ j n, s.wr.count j = some n → t.wr.count j = some n) ∧
    (∀ j, s.wr.kpos ≤ j → j < t.wr.kpos → t.wr.count j = some (if i = .wflush then 8 - s.wr.avail else 8))

/-- R163: WFLUSH has the same effect as `WALIGN 8` on SNK, `W.buf` and `W.avail`, and two in a row equal one. -/
def Obligations.FlushIsAlignEightAndIdempotent : Prop :=
  ∀ s t u v : State, s.Inv → exec .wflush s = .next t → exec (.walign 8) s = .next u → exec .wflush t = .next v →
    t.wr.snk = u.wr.snk ∧ t.wr.kpos = u.wr.kpos ∧ t.wr.buf = u.wr.buf ∧ t.wr.avail = u.wr.avail ∧ v = t

/-- R127, R166: `align(n)` is idempotent: a second one succeeds and changes neither position nor sink. -/
def Obligations.AlignTwiceIsAlignOnce : Prop :=
  (∀ (s t : State) (a b : Word), s.Inv → exec (.ralign a) s = .next t → t.resp = some { status := .ok, result := b } →
    ∃ u, exec (.ralign a) t = .next u ∧ u.resp = t.resp ∧ u.rpos = t.rpos) ∧
  (∀ (s t : State) (a b : Word), s.Inv → exec (.walign a) s = .next t → t.resp = some { status := .ok, result := b } →
    exec (.walign a) t = .next t)

/-! ## Runs of commands -/

/-- R169: what is written and flushed comes back, field by field, when a reader is reset over the emitted bytes; at most seven
bits are left, all zero padding. -/
def Obligations.WriteFlushReadRoundTrip : Prop :=
  ∀ (src : Source) (fs : List PackedField), (∀ f ∈ fs, widthOk f.vtype f.width = true) →
    ∃ as t u, runScript (fs.map PackedField.write ++ [.wflush]) (State.resetOver src) = some (as, t) ∧
      (∀ a ∈ as, a = { status := .ok, result := 0 }) ∧
      runScript (fs.map PackedField.read) (State.resetOver t.wr.asSource)
        = some (fs.map (fun f => { status := .ok, result := f.readBack }), u) ∧
      u.ravail = 8 * t.wr.kpos - totalWidth fs ∧ u.ravail ≤ 7 ∧
      (∀ q, totalWidth fs ≤ q → q < 8 * t.wr.kpos → t.wr.asSource.bit q = false)

/-- R183: UE.WR writes `counter` zero bits, a one, and the low `counter` bits of `value + 1`; the largest value of the type is
refused with CONTRACT before anything is written. -/
def Obligations.ExpGolombWritesTheCode : Prop :=
  (∀ (ts : TSize) (x c : Nat) (s : State), s.Inv → x + 2 ≤ 2 ^ vtypeBits (.unsigned ts) → c = Nat.log2 (x + 1) →
    ∃ t, ueWrite ts x s = (t, .yield ()) ∧
      t.wr.bits = s.wr.bits ++ List.replicate c false ++ [true] ++ argBits (BitVec.ofNat 64 (x + 1)) c ∧
      t.rd = s.rd ∧ t.source = s.source ∧ t.input = s.input) ∧
  (∀ (ts : TSize) (s : State), ueWrite ts (2 ^ vtypeBits (.unsigned ts) - 1) s = (s, .fail .contract))

/-- R182: UE.RD on a stream that stands at `counter` zeros, a one and `counter` more bits, `counter` below the type's width. -/
def Obligations.ExpGolombReadsTheCode : Prop :=
  ∀ (ts : TSize) (s : State) (c : Nat), s.Inv → c < vtypeBits (.unsigned ts) → 2 * c + 1 ≤ s.ravail →
    (∀ j, j < c → s.source.bit (s.rpos + j) = false) → s.source.bit (s.rpos + c) = true →
    ∃ t, ueRead ts s = (t, .yield (2 ^ c + streamValue s.source (s.rpos + c + 1) c - 1)) ∧
      t.rpos = s.rpos + 2 * c + 1 ∧ t.wr = s.wr ∧ t.source = s.source ∧ t.input = s.input

/-- R181, R182: how UE.RD fails: a prefix of `W` or more zeros is refused with CONTRACT after it is consumed with its one; a
stream of zeros is consumed to its end and then fails with EOS. -/
def Obligations.ExpGolombReadFailuresConsumeThePrefix : Prop :=
  ∀ (ts : TSize) (s : State), s.Inv →
    (∀ c, vtypeBits (.unsigned ts) ≤ c → c + 1 ≤ s.ravail → (∀ j, j < c → s.source.bit (s.rpos + j) = false) →
      s.source.bit (s.rpos + c) = true → ∃ t, ueRead ts s = (t, .fail .contract) ∧ t.rpos = s.rpos + c + 1) ∧
    ((∀ j, j < s.ravail → s.source.bit (s.rpos + j) = false) →
      ∃ t, ueRead ts s = (t, .fail .eos) ∧ t.rpos = 8 * s.source.len)

/-- R184: encoding and decoding an exponential-Golomb number gives it back, for every value of the domain; the code is
`2 * floor(log2(x + 1)) + 1` bits long, at most `2W - 1`. -/
def Obligations.ExpGolombRoundTrip : Prop :=
  ∀ (src : Source) (ts : TSize) (x : Nat), x + 2 ≤ 2 ^ vtypeBits (.unsigned ts) →
    ∃ t u v, ueWrite ts x (State.resetOver src) = (t, .yield ()) ∧
      t.wpos = 2 * Nat.log2 (x + 1) + 1 ∧ t.wpos ≤ 2 * vtypeBits (.unsigned ts) - 1 ∧
      exec .wflush t = .next u ∧
      ueRead ts (State.resetOver u.wr.asSource) = (v, .yield x) ∧ v.rpos = 2 * Nat.log2 (x + 1) + 1

/-- R186, R185: a string without a zero byte comes back from the bytes written for it; the macro writes eight bits a
character and eight for the terminator. -/
def Obligations.StringRoundTrip : Prop :=
  ∀ (src : Source) (bytes : List Byte), (∀ b ∈ bytes, b ≠ 0) →
    ∃ t v, szWrite bytes (State.resetOver src) = (t, .yield ()) ∧ t.wpos = 8 * (bytes.length + 1) ∧
      szRead (State.resetOver t.wr.asSource) = (v, .yield bytes) ∧ v.rpos = 8 * (bytes.length + 1)
end

