-- ==== Sys2Proof/Laws/Memory.lean ====
section
/-! SUPPORT. The laws of the stores: a read after a write, the canonical form and its bound kept by every write, and equal
reads give equal data (20_memory.md R50, R52, R60). -/

namespace Sys2Proof.Machine

section Cells
variable {α : Type} {d : α}

theorem cellsBelow_iff {n : Nat} {m : List (Nat × α)} : cellsBelow n m = true ↔ ∀ c ∈ m, c.1 < n := by
  simp [cellsBelow]

theorem cellsBelow_mono {n k : Nat} {m : List (Nat × α)} (h : cellsBelow n m = true) (hk : n ≤ k) :
    cellsBelow k m = true :=
  cellsBelow_iff.2 fun c hc => lt_of_lt_of_le (cellsBelow_iff.1 h c hc) hk

/-- An address that no entry has reads as the default. -/
theorem cellsRead_unlisted {m : List (Nat × α)} {a : Nat} (h : ∀ c ∈ m, c.1 ≠ a) : cellsRead d m a = d := by
  induction m with
  | nil => rfl
  | cons c rest ih =>
    obtain ⟨b, x⟩ := c
    have hb : a ≠ b := fun e => h (b, x) (List.mem_cons_self ..) e.symm
    simp only [cellsRead, if_neg hb]
    exact ih fun c hc => h c (List.mem_cons_of_mem _ hc)

/-- At or above the bound nothing is listed. -/
theorem cellsRead_above {n a : Nat} {m : List (Nat × α)} (h : cellsBelow n m = true) (ha : n ≤ a) :
    cellsRead d m a = d :=
  cellsRead_unlisted fun c hc e => absurd (cellsBelow_iff.1 h c hc) (by omega)

variable [DecidableEq α]

theorem cellsWf_cons {a : Nat} {v : α} {rest : List (Nat × α)} :
    cellsWf d ((a, v) :: rest) = true ↔ v ≠ d ∧ (∀ c ∈ rest, a < c.1) ∧ cellsWf d rest = true := by
  simp [cellsWf, and_assoc]

/-- Every entry of a write is the new one or an old one. -/
theorem cellsWrite_mem {m : List (Nat × α)} {a : Nat} {v : α} {c : Nat × α} (h : c ∈ cellsWrite d m a v) :
    c = (a, v) ∨ c ∈ m := by
  induction m with
  | nil =>
    simp only [cellsWrite] at h
    split at h <;> simp_all
  | cons b rest ih =>
    obtain ⟨b, x⟩ := b
    simp only [cellsWrite] at h
    split at h
    · split at h
      · exact .inr h
      · rcases List.mem_cons.1 h with h | h
        · exact .inl h
        · exact .inr h
    · split at h
      · split at h
        · exact .inr (List.mem_cons_of_mem _ h)
        · rcases List.mem_cons.1 h with h | h
          · exact .inl h
          · exact .inr (List.mem_cons_of_mem _ h)
      · rcases List.mem_cons.1 h with h | h
        · exact .inr (h ▸ List.mem_cons_self ..)
        · exact (ih h).imp_right (List.mem_cons_of_mem _)

/-- A write keeps the canonical form. -/
theorem cellsWrite_wf {m : List (Nat × α)} (a : Nat) (v : α) (h : cellsWf d m = true) :
    cellsWf d (cellsWrite d m a v) = true := by
  induction m with
  | nil =>
    simp only [cellsWrite]
    split <;> simp_all [cellsWf]
  | cons b rest ih =>
    obtain ⟨b, x⟩ := b
    obtain ⟨hx, hb, hr⟩ := cellsWf_cons.1 h
    simp only [cellsWrite]
    split
    · split
      · exact h
      · rename_i hab hv
        refine cellsWf_cons.2 ⟨hv, fun c hc => ?_, h⟩
        rcases List.mem_cons.1 hc with rfl | hc
        · exact hab
        · exact lt_trans hab (hb c hc)
    · split
      · split
        · exact hr
        · rename_i hab hv
          exact cellsWf_cons.2 ⟨hv, fun c hc => hab ▸ hb c hc, hr⟩
      · refine cellsWf_cons.2 ⟨hx, fun c hc => ?_, ih hr⟩
        rcases cellsWrite_mem hc with rfl | hc
        · show b < a
          omega
        · exact hb c hc

/-- A write below the bound keeps the bound. -/
theorem cellsWrite_below {m : List (Nat × α)} {n a : Nat} {v : α} (h : cellsBelow n m = true) (ha : a < n) :
    cellsBelow n (cellsWrite d m a v) = true :=
  cellsBelow_iff.2 fun c hc => by
    rcases cellsWrite_mem hc with rfl | hc
    · exact ha
    · exact cellsBelow_iff.1 h c hc

/-- A read after a write: the value at that address, and every other address as before. -/
theorem cellsRead_write {m : List (Nat × α)} (h : cellsWf d m = true) (a b : Nat) (v : α) :
    cellsRead d (cellsWrite d m a v) b = if b = a then v else cellsRead d m b := by
  induction m with
  | nil =>
    simp only [cellsWrite]
    split <;> simp_all [cellsRead]
  | cons c rest ih =>
    obtain ⟨c, x⟩ := c
    obtain ⟨hx, hc, hr⟩ := cellsWf_cons.1 h
    simp only [cellsWrite]
    split
    · rename_i hac
      split
      · rename_i hv
        split
        · rename_i hba
          refine (cellsRead_unlisted fun e he => ?_).trans hv.symm
          rcases List.mem_cons.1 he with rfl | he
          · show c ≠ b
            omega
          · have := hc e he
            omega
        · rfl
      · simp only [cellsRead]
    · split
      · rename_i hac
        subst hac
        split
        · rename_i hv
          split
          · rename_i hba
            refine (cellsRead_unlisted fun e he => ?_).trans hv.symm
            have := hc e he
            omega
          · rename_i hba
            simp [cellsRead, hba]
        · simp only [cellsRead]
          split <;> simp_all
      · simp only [cellsRead]
        split
        · have : b ≠ a := by omega
          simp [this]
        · exact ih hr

/-- Two stores in canonical form with the same reads are the same data. -/
theorem cells_ext {m k : List (Nat × α)} (hm : cellsWf d m = true) (hk : cellsWf d k = true)
    (h : ∀ a, cellsRead d m a = cellsRead d k a) : m = k := by
  induction m generalizing k with
  | nil =>
    cases k with
    | nil => rfl
    | cons c rest =>
      obtain ⟨c, x⟩ := c
      have := h c
      simp only [cellsRead, if_true] at this
      exact absurd this.symm (cellsWf_cons.1 hk).1
  | cons b m' ih =>
    obtain ⟨b, y⟩ := b
    obtain ⟨hy, hb, hm'⟩ := cellsWf_cons.1 hm
    cases k with
    | nil =>
      have := h b
      simp only [cellsRead, if_true] at this
      exact absurd this hy
    | cons c k' =>
      obtain ⟨c, x⟩ := c
      obtain ⟨hx, hc, hk'⟩ := cellsWf_cons.1 hk
      have hbc : b = c := by
        rcases lt_trichotomy b c with hlt | heq | hgt
        · have hbk := h b
          rw [cellsRead_unlisted (m := (c, x) :: k') (a := b)] at hbk
          · simp [cellsRead] at hbk
            exact absurd hbk hy
          · intro e he
            rcases List.mem_cons.1 he with rfl | he
            · show c ≠ b
              omega
            · have := hc e he
              omega
        · exact heq
        · have hck := h c
          rw [cellsRead_unlisted (m := (b, y) :: m') (a := c)] at hck
          · simp [cellsRead] at hck
            exact absurd hck.symm hx
          · intro e he
            rcases List.mem_cons.1 he with rfl | he
            · show b ≠ c
              omega
            · have := hb e he
              omega
      subst hbc
      have hxy : y = x := by
        have := h b
        simpa [cellsRead] using this
      subst hxy
      rw [ih hm' hk' fun a => ?_]
      by_cases hab : a = b
      · subst hab
        rw [cellsRead_unlisted (m := m'), cellsRead_unlisted (m := k')]
        · intro e he
          have := hc e he
          omega
        · intro e he
          have := hb e he
          omega
      · have := h a
        simpa [cellsRead, hab] using this

end Cells

/-! ## Memory and side band -/

theorem Memory.read_above {m : Memory} {n a : Nat} (h : cellsBelow n m = true) (ha : n ≤ a) : m.read a = 0 :=
  cellsRead_above h ha

theorem Memory.read_write {m : Memory} (h : m.wf = true) (a b : Nat) (v : Byte) :
    (m.write a v).read b = if b = a then v else m.read b :=
  cellsRead_write h a b v

theorem Memory.write_wf {m : Memory} (a : Nat) (v : Byte) (h : m.wf = true) : (m.write a v).wf = true :=
  cellsWrite_wf a v h

theorem Memory.write_below {m : Memory} {n : Nat} (v : Byte) (h : cellsBelow n m = true) :
    cellsBelow (n + 1) (m.write n v) = true :=
  cellsWrite_below (cellsBelow_mono h (Nat.le_succ n)) (Nat.lt_succ_self n)

theorem Memory.ext {m k : Memory} (hm : m.wf = true) (hk : k.wf = true) (h : ∀ a, m.read a = k.read a) : m = k :=
  cells_ext hm hk h

theorem SideBand.read_above {m : SideBand} {n a : Nat} (h : cellsBelow n m = true) (ha : n ≤ a) : m.read a = 8 :=
  cellsRead_above h ha

theorem SideBand.read_write {m : SideBand} (h : m.wf = true) (a b nb : Nat) :
    (m.write a nb).read b = if b = a then nb else m.read b :=
  cellsRead_write h a b nb

theorem SideBand.write_wf {m : SideBand} (a nb : Nat) (h : m.wf = true) : (m.write a nb).wf = true :=
  cellsWrite_wf a nb h

theorem SideBand.write_below {m : SideBand} {n : Nat} (nb : Nat) (h : cellsBelow n m = true) :
    cellsBelow (n + 1) (m.write n nb) = true :=
  cellsWrite_below (cellsBelow_mono h (Nat.le_succ n)) (Nat.lt_succ_self n)

theorem SideBand.write_mem {m : SideBand} {a nb : Nat} {c : Nat × Nat} (h : c ∈ m.write a nb) : c = (a, nb) ∨ c ∈ m :=
  cellsWrite_mem h

/-! ## A memory made of a list of bytes -/

theorem Memory.ofBytes_ge (bs : List Byte) (a : Nat) : ∀ c ∈ Memory.ofBytes a bs, a ≤ c.1 := by
  induction bs generalizing a with
  | nil => simp [Memory.ofBytes]
  | cons b bs ih =>
    intro c hc
    simp only [Memory.ofBytes] at hc
    split at hc
    · exact Nat.le_of_succ_le (ih (a + 1) c hc)
    · rcases List.mem_cons.1 hc with rfl | hc
      · exact le_rfl
      · exact Nat.le_of_succ_le (ih (a + 1) c hc)

theorem Memory.ofBytes_wf (bs : List Byte) (a : Nat) : (Memory.ofBytes a bs).wf = true := by
  induction bs generalizing a with
  | nil => rfl
  | cons b bs ih =>
    simp only [Memory.ofBytes]
    split
    · exact ih (a + 1)
    · rename_i hb
      exact cellsWf_cons.2 ⟨hb, fun c hc => Memory.ofBytes_ge bs (a + 1) c hc, ih (a + 1)⟩

theorem Memory.ofBytes_below (bs : List Byte) (a : Nat) : cellsBelow (a + bs.length) (Memory.ofBytes a bs) = true := by
  induction bs generalizing a with
  | nil => rfl
  | cons b bs ih =>
    have hih := ih (a + 1)
    have hlen : a + (b :: bs).length = a + 1 + bs.length := by simp; omega
    simp only [Memory.ofBytes, hlen]
    split
    · exact hih
    · refine cellsBelow_iff.2 fun c hc => ?_
      rcases List.mem_cons.1 hc with rfl | hc
      · show a < a + 1 + bs.length
        omega
      · exact cellsBelow_iff.1 hih c hc

theorem Memory.ofBytes_read (bs : List Byte) (a i : Nat) (h : i < bs.length) :
    (Memory.ofBytes a bs).read (a + i) = bs[i] := by
  induction bs generalizing a i with
  | nil => simp at h
  | cons b bs ih =>
    have hne : ∀ c ∈ Memory.ofBytes (a + 1) bs, c.1 ≠ a := fun c hc e =>
      absurd (Memory.ofBytes_ge bs (a + 1) c hc) (by omega)
    simp only [Memory.ofBytes]
    cases i with
    | zero =>
      split
      · rename_i hb
        simpa [Memory.read, hb] using cellsRead_unlisted (d := Memory.blank) hne
      · simp [Memory.read, cellsRead]
    | succ i =>
      have hi : i < bs.length := by simpa using h
      have := ih (a + 1) i hi
      have ha : a + (i + 1) = a + 1 + i := by omega
      split
      · rw [ha, this]; simp
      · rename_i hb
        have hne' : a + (i + 1) ≠ a := by omega
        rw [Memory.read, cellsRead, if_neg hne', ha]
        exact this.trans (by simp)

end Sys2Proof.Machine
end

