-- ==== Sys2Proof/Laws/Bits.lean ====
section
/-! SUPPORT. Bit by bit: the helper functions (40_helpers.md R110, R112, R115), `MemRead` (20_memory.md R52) and the number a
stretch of the stream stands for (42_reader_read_peek.md R147). -/

namespace Sys2Proof.Machine

/-! ## The helper functions -/

theorem mask_getLsbD (n j : Nat) : (mask n).getLsbD j = (decide (j < n) && decide (j < 64)) := by
  simp only [mask, BitVec.getLsbD_ofNat, Nat.testBit_two_pow_sub_one]
  exact Bool.and_comm _ _

theorem mask_toNat {n : Nat} (h : n ≤ 64) : (mask n).toNat = 2 ^ n - 1 := by
  have : 2 ^ n ≤ 2 ^ 64 := Nat.pow_le_pow_right (by decide) h
  have : 0 < 2 ^ n := Nat.two_pow_pos n
  rw [mask, BitVec.toNat_ofNat, Nat.mod_eq_of_lt (by omega)]

/-- The bits of a field: bits `s-1..s-n` of the buffer. -/
theorem extract_getLsbD (buf : Word) {s n : Nat} (hn : n ≤ s) (hs : s ≤ 64) (j : Nat) :
    (extract buf s n).getLsbD j = (decide (j < n) && buf.getLsbD (s - n + j)) := by
  rw [extract, BitVec.getLsbD_and, BitVec.getLsbD_ushiftRight, mask_getLsbD]
  by_cases hj : j < n
  · have : j < 64 := by omega
    simp [hj, this]
  · simp [hj]

theorem and_mask_toNat (a : Word) {n : Nat} (h : n ≤ 64) : (a &&& mask n).toNat = a.toNat % 2 ^ n := by
  rw [BitVec.toNat_and, mask_toNat h, Nat.and_two_pow_sub_one_eq_mod]

theorem extract_toNat (buf : Word) {s n : Nat} (hn : n ≤ 64) :
    (extract buf s n).toNat = buf.toNat / 2 ^ (s - n) % 2 ^ n := by
  rw [extract, and_mask_toNat _ hn, BitVec.toNat_ushiftRight, Nat.shiftRight_eq_div_pow]

/-! ## MemRead -/

theorem memRead_lt (src : Source) (a n : Nat) : memRead src a n < 2 ^ (8 * n) := by
  induction n with
  | zero => simp [memRead]
  | succ n ih =>
    have hb := (src.mem.read (a + n)).isLt
    have hp : 2 ^ (8 * (n + 1)) = 2 ^ (8 * n) * 256 := by rw [Nat.mul_succ, Nat.pow_add]
    rw [memRead, hp]
    omega

/-- Bit `i` of `MemRead(a, n)`: the last byte is in bits `7..0`. -/
theorem memRead_testBit (src : Source) (a n i : Nat) (h : i < 8 * n) :
    (memRead src a n).testBit i = (src.mem.read (a + (n - 1 - i / 8))).getLsbD (i % 8) := by
  induction n generalizing i with
  | zero => omega
  | succ n ih =>
    have hb := (src.mem.read (a + n)).isLt
    have e : memRead src a (n + 1) = 2 ^ 8 * memRead src a n + (src.mem.read (a + n)).toNat := by
      rw [memRead]; omega
    rw [e, Nat.testBit_two_pow_mul_add _ hb]
    by_cases hi : i < 8
    · have h1 : i / 8 = 0 := by omega
      have h2 : i % 8 = i := by omega
      simp [hi, h1, h2, BitVec.testBit_toNat]
    · have h1 : (i - 8) / 8 = i / 8 - 1 := by omega
      have h2 : (i - 8) % 8 = i % 8 := by omega
      have h3 : n - 1 - (i / 8 - 1) = n + 1 - 1 - i / 8 := by omega
      rw [if_neg hi, ih (i - 8) (by omega), h1, h2, h3]

/-- Bit `i` of `MemRead(a, n)` is stream bit `8 * (a + n) - 1 - i`. -/
theorem memRead_testBit_stream (src : Source) (a n i : Nat) (h : i < 8 * n) :
    (memRead src a n).testBit i = src.bit (8 * (a + n) - 1 - i) := by
  rw [memRead_testBit src a n i h, Source.bit]
  have h1 : (8 * (a + n) - 1 - i) / 8 = a + (n - 1 - i / 8) := by omega
  have h2 : 7 - (8 * (a + n) - 1 - i) % 8 = i % 8 := by omega
  rw [h1, h2]

/-! ## The number a stretch of the stream stands for -/

theorem streamValue_lt (src : Source) (p n : Nat) : streamValue src p n < 2 ^ n := by
  induction n with
  | zero => simp [streamValue]
  | succ n ih =>
    have hb := Bool.toNat_lt (src.bit (p + n))
    rw [streamValue, Nat.pow_succ]
    omega

/-- R147: bit `n-1-j` of the value is stream bit `p + j`. -/
theorem streamValue_testBit (src : Source) (p n j : Nat) :
    (streamValue src p n).testBit j = (decide (j < n) && src.bit (p + (n - 1 - j))) := by
  induction n generalizing j with
  | zero => simp [streamValue]
  | succ n ih =>
    have hb := Bool.toNat_lt (src.bit (p + n))
    have e : streamValue src p (n + 1) = 2 ^ 1 * streamValue src p n + (src.bit (p + n)).toNat := rfl
    rw [e, Nat.testBit_two_pow_mul_add _ (by simpa using hb)]
    cases j with
    | zero => cases h : src.bit (p + n) <;> simp [h]
    | succ j =>
      have h1 : n - 1 - j = n + 1 - 1 - (j + 1) := by omega
      simp [ih, h1]

/-- The value of a stretch as a machine word. -/
theorem streamWord_getLsbD (src : Source) (p n j : Nat) (hn : n ≤ 64) :
    (BitVec.ofNat 64 (streamValue src p n)).getLsbD j = (decide (j < n) && src.bit (p + (n - 1 - j))) := by
  rw [BitVec.getLsbD_ofNat, streamValue_testBit]
  by_cases hj : j < n
  · have : j < 64 := by omega
    simp [hj, this]
  · simp [hj]

theorem streamWord_toNat (src : Source) (p n : Nat) (hn : n ≤ 64) :
    (BitVec.ofNat 64 (streamValue src p n)).toNat = streamValue src p n := by
  have h1 := streamValue_lt src p n
  have h2 : 2 ^ n ≤ 2 ^ 64 := Nat.pow_le_pow_right (by decide) hn
  rw [BitVec.toNat_ofNat, Nat.mod_eq_of_lt (by omega)]

/-! ## Sign extension -/

/-- Flipping bit `k` of a number below `2^k` adds `2^k`. -/
theorem xor_two_pow_of_lt {a k : Nat} (h : a < 2 ^ k) : a ^^^ 2 ^ k = 2 ^ k + a := by
  have e : 2 ^ k + a = 2 ^ k ||| a := by simpa using Nat.two_pow_add_eq_or_of_lt h 1
  rw [e]
  refine Nat.eq_of_testBit_eq fun i => ?_
  have hk : a.testBit k = false := Nat.testBit_lt_two_pow h
  rw [Nat.testBit_xor, Nat.testBit_or, Nat.testBit_two_pow]
  by_cases hi : k = i
  · subst hi; simp [hk]
  · simp [hi]

/-- Flipping bit `k` of a number from `2^k` to `2^(k+1) - 1` takes `2^k` away. -/
theorem xor_two_pow_of_ge {a k : Nat} (h : 2 ^ k ≤ a) (h' : a < 2 ^ (k + 1)) : a ^^^ 2 ^ k = a - 2 ^ k := by
  have hl : a - 2 ^ k < 2 ^ k := by rw [Nat.pow_succ] at h'; omega
  have e := xor_two_pow_of_lt hl
  have e' : 2 ^ k + (a - 2 ^ k) = a := by omega
  rw [e'] at e
  rw [← e, Nat.xor_assoc, Nat.xor_self, Nat.xor_zero]
  omega

/-- R112 as a number: the raw value where its top bit is 0, the raw value plus `2^N - 2^w` where it is 1. -/
theorem sextN_toNat {N w : Nat} (raw : BitVec N) (hw : w ≤ N) (hr : raw.toNat < 2 ^ w) :
    (sextN N w raw).toNat =
      if w = 0 then 0 else if raw.toNat < 2 ^ (w - 1) then raw.toNat else raw.toNat + (2 ^ N - 2 ^ w) := by
  cases w with
  | zero => simp [sextN]
  | succ k =>
    have hpow : 2 ^ (k + 1) = 2 * 2 ^ k := Nat.pow_succ'
    have hle : 2 ^ (k + 1) ≤ 2 ^ N := Nat.pow_le_pow_right (by decide) hw
    have hpos : 0 < 2 ^ k := Nat.two_pow_pos _
    have hm : (BitVec.ofNat N (2 ^ k)).toNat = 2 ^ k := by
      rw [BitVec.toNat_ofNat, Nat.mod_eq_of_lt (by omega)]
    simp only [sextN, Nat.succ_ne_zero, if_false, Nat.add_sub_cancel]
    rw [BitVec.toNat_sub, BitVec.toNat_xor, hm]
    split
    · rename_i hlt
      rw [xor_two_pow_of_lt hlt]
      have e : 2 ^ N - 2 ^ k + (2 ^ k + raw.toNat) = raw.toNat + 2 ^ N := by omega
      rw [e, Nat.add_mod_right, Nat.mod_eq_of_lt (by omega)]
    · rename_i hge
      rw [xor_two_pow_of_ge (by omega) hr, Nat.mod_eq_of_lt (by omega)]
      omega

/-- R112 as a signed number: the two's-complement reading of the field at exactly `w` bits. -/
theorem sextN_toInt {N w : Nat} (raw : BitVec N) (hw : w ≤ N) (hr : raw.toNat < 2 ^ w) :
    (sextN N w raw).toInt =
      if w = 0 then 0 else if raw.toNat < 2 ^ (w - 1) then (raw.toNat : Int) else (raw.toNat : Int) - 2 ^ w := by
  have hle : 2 ^ w ≤ 2 ^ N := Nat.pow_le_pow_right (by decide) hw
  rw [BitVec.toInt_eq_toNat_cond, sextN_toNat raw hw hr]
  cases w with
  | zero => simp
  | succ k =>
    have hpow : 2 ^ (k + 1) = 2 * 2 ^ k := Nat.pow_succ'
    have hpow' : (2 : Int) ^ (k + 1) = ((2 ^ (k + 1) : Nat) : Int) := by simp
    have hN : (2 : Int) ^ N = ((2 ^ N : Nat) : Int) := by simp
    simp only [Nat.succ_ne_zero, if_false, Nat.add_sub_cancel]
    by_cases hlt : raw.toNat < 2 ^ k
    · simp only [if_pos hlt]
      rw [if_pos (by omega)]
    · simp only [if_neg hlt]
      rw [if_neg (by omega), hpow']
      omega

end Sys2Proof.Machine
end

