-- ==== Sys2Proof/Laws/Decode.lean ====
section
/-! SUPPORT. The command word field by field: where `pack` puts each field and that nothing else stands in the word
(30_encoding.md R81), which is what the decoder and the rows of R94 see. -/

namespace Sys2Proof

/-- Bit `i` of a packed word. -/
theorem pack_getLsbD (op : BitVec 4) (cat ts : BitVec 2) (w i : Nat) :
    (pack op cat ts w).getLsbD i =
      (decide (i < 16) &&
        ((decide (12 ≤ i) && op.getLsbD (i - 12)) || (decide (10 ≤ i) && cat.getLsbD (i - 10)) ||
          (decide (8 ≤ i) && ts.getLsbD (i - 8)) || (BitVec.ofNat 7 w).getLsbD i)) := by
  by_cases hi : i < 16
  · interval_cases i <;> simp [pack]
  · have h : 16 ≤ i := by omega
    rw [BitVec.getLsbD_of_ge _ _ h]
    simp [hi]

/-- R81: the fields of a packed word. -/
theorem fieldsOf_pack (op : BitVec 4) (cat ts : BitVec 2) (w : Nat) :
    fieldsOf (pack op cat ts w) = { op := op, cat := cat, tsize := ts, z := 0, width := BitVec.ofNat 7 w } := by
  have h1 : (pack op cat ts w).extractLsb' 12 4 = op := by
    refine BitVec.eq_of_getLsbD_eq fun i hi => ?_
    rw [BitVec.getLsbD_extractLsb', pack_getLsbD]
    interval_cases i <;> simp
  have h2 : (pack op cat ts w).extractLsb' 10 2 = cat := by
    refine BitVec.eq_of_getLsbD_eq fun i hi => ?_
    rw [BitVec.getLsbD_extractLsb', pack_getLsbD]
    interval_cases i <;> simp
  have h3 : (pack op cat ts w).extractLsb' 8 2 = ts := by
    refine BitVec.eq_of_getLsbD_eq fun i hi => ?_
    rw [BitVec.getLsbD_extractLsb', pack_getLsbD]
    interval_cases i <;> simp
  have h4 : (pack op cat ts w).extractLsb' 7 1 = 0 := by
    refine BitVec.eq_of_getLsbD_eq fun i hi => ?_
    rw [BitVec.getLsbD_extractLsb', pack_getLsbD]
    interval_cases i
    simp
  have h5 : (pack op cat ts w).extractLsb' 0 7 = BitVec.ofNat 7 w := by
    refine BitVec.eq_of_getLsbD_eq fun i hi => ?_
    rw [BitVec.getLsbD_extractLsb', pack_getLsbD]
    interval_cases i <;> simp
  simp only [fieldsOf, h1, h2, h3, h4, h5]

/-- A word whose bit 7 is 0 is made of its fields. -/
theorem pack_fieldsOf (c : Cmd) (h : (fieldsOf c).z = 0) :
    pack (fieldsOf c).op (fieldsOf c).cat (fieldsOf c).tsize (fieldsOf c).width.toNat = c := by
  have h7 : c.getLsbD 7 = false := by
    have := congrArg (fun b : BitVec 1 => b.getLsbD 0) h
    simpa [fieldsOf] using this
  refine BitVec.eq_of_getLsbD_eq fun i hi => ?_
  rw [pack_getLsbD]
  simp only [fieldsOf, BitVec.ofNat_toNat, BitVec.setWidth_eq]
  interval_cases i <;> simp
  exact h7

theorem width_toNat {w : Nat} (h : w < 128) : (BitVec.ofNat 7 w).toNat = w := by
  rw [BitVec.toNat_ofNat, Nat.mod_eq_of_lt h]

theorem tsizeOf_tsizeCode (ts : TSize) : tsizeOf (tsizeCode ts) = ts := by cases ts <;> rfl

theorem tsizeCode_tsizeOf (b : BitVec 2) : tsizeCode (tsizeOf b) = b := by revert b; decide

/-- The bits a plain command must leave zero (R88). -/
theorem pack_low12 (op : BitVec 4) (cat ts : BitVec 2) (w : Nat) :
    (pack op cat ts w).extractLsb' 0 12 = 0 ↔ cat = 0 ∧ ts = 0 ∧ BitVec.ofNat 7 w = 0 := by
  have hg := pack_getLsbD op cat ts w
  constructor
  · intro h
    have hb : ∀ i, i < 12 → (pack op cat ts w).getLsbD i = false := fun i hi => by
      have := congrArg (fun b : BitVec 12 => b.getLsbD i) h
      simpa [BitVec.getLsbD_extractLsb', hi] using this
    refine ⟨?_, ?_, ?_⟩ <;> refine BitVec.eq_of_getLsbD_eq fun i hi => ?_
    · have := hb (10 + i) (by omega)
      rw [hg] at this
      interval_cases i <;> simp_all
    · have := hb (8 + i) (by omega)
      rw [hg] at this
      interval_cases i <;> simp_all
    · have := hb i (by omega)
      rw [hg] at this
      interval_cases i <;> simp_all
  · rintro ⟨rfl, rfl, h⟩
    refine BitVec.eq_of_getLsbD_eq fun i hi => ?_
    rw [BitVec.getLsbD_extractLsb', hg, h]
    interval_cases i <;> simp

/-- The bits MASK and SEXT must leave zero (R88). -/
theorem pack_bits11_8 (op : BitVec 4) (cat ts : BitVec 2) (w : Nat) :
    (pack op cat ts w).extractLsb' 8 4 = 0 ↔ cat = 0 ∧ ts = 0 := by
  have hg := pack_getLsbD op cat ts w
  constructor
  · intro h
    have hb : ∀ i, i < 4 → (pack op cat ts w).getLsbD (8 + i) = false := fun i hi => by
      have := congrArg (fun b : BitVec 4 => b.getLsbD i) h
      simpa [BitVec.getLsbD_extractLsb', hi] using this
    refine ⟨?_, ?_⟩ <;> refine BitVec.eq_of_getLsbD_eq fun i hi => ?_
    · have := hb (2 + i) (by omega)
      rw [hg] at this
      interval_cases i <;> simp_all
    · have := hb i (by omega)
      rw [hg] at this
      interval_cases i <;> simp_all
  · rintro ⟨rfl, rfl⟩
    refine BitVec.eq_of_getLsbD_eq fun i hi => ?_
    rw [BitVec.getLsbD_extractLsb', hg]
    interval_cases i <;> simp

/-- The mask of a row with `tsize` and `width` free (R94). -/
theorem pack_and_FC80 (op : BitVec 4) (cat ts : BitVec 2) (w : Nat) : pack op cat ts w &&& 0xFC80 = pack op cat 0 0 := by
  refine BitVec.eq_of_getLsbD_eq fun i hi => ?_
  rw [BitVec.getLsbD_and, pack_getLsbD, pack_getLsbD]
  interval_cases i <;> simp

/-- The mask of a row with `width` free (R94). -/
theorem pack_and_FF80 (op : BitVec 4) (cat ts : BitVec 2) (w : Nat) : pack op cat ts w &&& 0xFF80 = pack op cat ts 0 := by
  refine BitVec.eq_of_getLsbD_eq fun i hi => ?_
  rw [BitVec.getLsbD_and, pack_getLsbD, pack_getLsbD]
  interval_cases i <;> simp

/-- The mask of a row with no free field (R94). -/
theorem and_FFFF (c : Cmd) : c &&& 0xFFFF = c := by
  have : (0xFFFF : Cmd) = BitVec.allOnes 16 := by decide
  rw [this, BitVec.and_allOnes]

/-! ## The decoder, one lemma per way of decoding -/

theorem decode_pack (op : BitVec 4) (cat ts : BitVec 2) (w : Nat) (arg : Word) :
    decode (pack op cat ts w) arg =
      match opOf op with
      | none => .illegal .reservedOp
      | some .rpos => decodePlain (pack op cat ts w) .rpos
      | some .ravail => decodePlain (pack op cat ts w) .ravail
      | some .rseek => decodePlain (pack op cat ts w) (.rseek arg)
      | some .rskip => decodePlain (pack op cat ts w) (.rskip arg)
      | some .ralign => decodePlain (pack op cat ts w) (.ralign arg)
      | some .read => decodeTyped (pack op cat ts w) readOf
      | some .peek => decodeTyped (pack op cat ts w) peekOf
      | some .wpos => decodePlain (pack op cat ts w) .wpos
      | some .write => decodeTyped (pack op cat ts w) (fun t n => writeOf t n arg)
      | some .wflush => decodePlain (pack op cat ts w) .wflush
      | some .wskip => decodePlain (pack op cat ts w) (.wskip arg)
      | some .walign => decodePlain (pack op cat ts w) (.walign arg)
      | some .mask => decodeHelper (pack op cat ts w) .mask
      | some .sext => decodeHelper (pack op cat ts w) (fun n => .sext n arg) := by
  rw [decode, fieldsOf_pack]
  cases opOf op with
  | none => rfl
  | some o => cases o <;> rfl

theorem decodePlain_pack (op : BitVec 4) (i : Instr) : decodePlain (pack op 0 0 0) i = .instr i := by
  rw [decodePlain, if_pos ((pack_low12 op 0 0 0).2 ⟨rfl, rfl, rfl⟩)]

theorem decodeHelper_pack (op : BitVec 4) (w : Nat) (h : w < 128) (mk : Nat → Instr) :
    decodeHelper (pack op 0 0 w) mk = .instr (mk w) := by
  rw [decodeHelper, if_pos ((pack_bits11_8 op 0 0 w).2 ⟨rfl, rfl⟩), fieldsOf_pack]
  show Decoded.instr (mk (BitVec.ofNat 7 w).toNat) = _
  rw [width_toNat h]

theorem decodeTyped_pack (op : BitVec 4) (t : VType) (w : Nat) (h : w < 128) (mk : VType → Nat → Instr) :
    decodeTyped (packTyped op t w) mk = .instr (mk t w) := by
  cases t with
  | unsigned ts => simp [decodeTyped, packTyped, fieldsOf_pack, catCode, vtypeCode, tsizeOf_tsizeCode, width_toNat h]
  | signed ts => simp [decodeTyped, packTyped, fieldsOf_pack, catCode, vtypeCode, tsizeOf_tsizeCode, width_toNat h]
  | f32 => simp [decodeTyped, packTyped, fieldsOf_pack, catCode, vtypeCode, width_toNat h]
  | f64 => simp [decodeTyped, packTyped, fieldsOf_pack, catCode, vtypeCode, width_toNat h]

end Sys2Proof
end

