-- ==== Sys2Proof/Laws/State.lean ====
section
/-! SUPPORT. One lemma per field per update of the state, so that no later proof unfolds a record update. -/

namespace Sys2Proof.Machine

@[simp] theorem withReader_source (s : State) (r : Reader) : (s.withReader r).source = s.source := rfl
@[simp] theorem withReader_rd (s : State) (r : Reader) : (s.withReader r).rd = r := rfl
@[simp] theorem withReader_wr (s : State) (r : Reader) : (s.withReader r).wr = s.wr := rfl
@[simp] theorem withReader_input (s : State) (r : Reader) : (s.withReader r).input = s.input := rfl
@[simp] theorem withReader_resp (s : State) (r : Reader) : (s.withReader r).resp = s.resp := rfl

@[simp] theorem withWriter_source (s : State) (w : Writer) : (s.withWriter w).source = s.source := rfl
@[simp] theorem withWriter_rd (s : State) (w : Writer) : (s.withWriter w).rd = s.rd := rfl
@[simp] theorem withWriter_wr (s : State) (w : Writer) : (s.withWriter w).wr = w := rfl
@[simp] theorem withWriter_input (s : State) (w : Writer) : (s.withWriter w).input = s.input := rfl
@[simp] theorem withWriter_resp (s : State) (w : Writer) : (s.withWriter w).resp = s.resp := rfl

@[simp] theorem withAnswer_source (s : State) (a : Response) : (s.withAnswer a).source = s.source := rfl
@[simp] theorem withAnswer_rd (s : State) (a : Response) : (s.withAnswer a).rd = s.rd := rfl
@[simp] theorem withAnswer_wr (s : State) (a : Response) : (s.withAnswer a).wr = s.wr := rfl
@[simp] theorem withAnswer_input (s : State) (a : Response) : (s.withAnswer a).input = s.input := rfl
@[simp] theorem withAnswer_resp (s : State) (a : Response) : (s.withAnswer a).resp = some a := rfl

@[simp] theorem withInput_source (s : State) (es : List Event) : (s.withInput es).source = s.source := rfl
@[simp] theorem withInput_rd (s : State) (es : List Event) : (s.withInput es).rd = s.rd := rfl
@[simp] theorem withInput_wr (s : State) (es : List Event) : (s.withInput es).wr = s.wr := rfl
@[simp] theorem withInput_input (s : State) (es : List Event) : (s.withInput es).input = es := rfl
@[simp] theorem withInput_resp (s : State) (es : List Event) : (s.withInput es).resp = s.resp := rfl

@[simp] theorem withInput_withInput (s : State) (es fs : List Event) : (s.withInput es).withInput fs = s.withInput fs := rfl
@[simp] theorem withInput_self (s : State) : s.withInput s.input = s := rfl
@[simp] theorem withReader_self (s : State) : s.withReader s.rd = s := rfl
@[simp] theorem withWriter_self (s : State) : s.withWriter s.wr = s := rfl
@[simp] theorem withAnswer_withAnswer (s : State) (a b : Response) : (s.withAnswer a).withAnswer b = s.withAnswer b := rfl

@[simp] theorem srcSeek_pos (b : Nat) (r : Reader) : (srcSeek b r).pos = b := rfl
@[simp] theorem srcSeek_buf (b : Nat) (r : Reader) : (srcSeek b r).buf = r.buf := rfl
@[simp] theorem srcSeek_shift (b : Nat) (r : Reader) : (srcSeek b r).shift = r.shift := rfl
@[simp] theorem srcSkip_pos (n : Nat) (r : Reader) : (srcSkip n r).pos = r.pos + n := rfl
@[simp] theorem srcSkip_buf (n : Nat) (r : Reader) : (srcSkip n r).buf = r.buf := rfl
@[simp] theorem srcSkip_shift (n : Nat) (r : Reader) : (srcSkip n r).shift = r.shift := rfl

@[simp] theorem put_buf (v : Byte) (nb : Nat) (w : Writer) : (put v nb w).buf = w.buf := rfl
@[simp] theorem put_avail (v : Byte) (nb : Nat) (w : Writer) : (put v nb w).avail = w.avail := rfl
@[simp] theorem put_kpos (v : Byte) (nb : Nat) (w : Writer) : (put v nb w).kpos = w.kpos + 1 := rfl
@[simp] theorem put_snk (v : Byte) (nb : Nat) (w : Writer) : (put v nb w).snk = w.snk.write w.kpos v := rfl
@[simp] theorem put_snknb (v : Byte) (nb : Nat) (w : Writer) : (put v nb w).snknb = w.snknb.write w.kpos nb := rfl

@[simp] theorem emit_buf (nb : Nat) (w : Writer) : (emit nb w).buf = 0 := rfl
@[simp] theorem emit_avail (nb : Nat) (w : Writer) : (emit nb w).avail = 8 := rfl
@[simp] theorem emit_kpos (nb : Nat) (w : Writer) : (emit nb w).kpos = w.kpos + 1 := rfl
@[simp] theorem emit_snk (nb : Nat) (w : Writer) : (emit nb w).snk = w.snk.write w.kpos w.buf := rfl
@[simp] theorem emit_snknb (nb : Nat) (w : Writer) : (emit nb w).snknb = w.snknb.write w.kpos nb := rfl

@[simp] theorem emitZeros_buf (n : Nat) (w : Writer) : (emitZeros n w).buf = w.buf := rfl
@[simp] theorem emitZeros_avail (n : Nat) (w : Writer) : (emitZeros n w).avail = w.avail := rfl
@[simp] theorem emitZeros_kpos (n : Nat) (w : Writer) : (emitZeros n w).kpos = w.kpos + n := rfl
@[simp] theorem emitZeros_snk (n : Nat) (w : Writer) : (emitZeros n w).snk = w.snk := rfl
@[simp] theorem emitZeros_snknb (n : Nat) (w : Writer) : (emitZeros n w).snknb = w.snknb := rfl

end Sys2Proof.Machine
end

