-- ==== Sys2Proof/Laws/Reader.lean ====
section
/-! SUPPORT. What the reader's procedures can do, once each: refill (20_memory.md R55), rskip (41_reader_cursor.md R124) and
raw_read (42_reader_read_peek.md R140, R145, R147). Callers cite `refill_spec`, `rskip_spec` and `rawRead_spec` and unfold
nothing. -/

namespace Sys2Proof.Machine

/-- The reader's invariant without I5: what the procedures need, and what holds inside RSEEK after the buffer is
discarded. -/
structure Reader.Window (src : Source) (r : Reader) : Prop where
  shift_le : r.shift ≤ 64
  pos_le : r.pos ≤ src.len
  shift_le_pos : r.shift ≤ 8 * r.pos
  buffer : ∀ i, i < r.shift → r.buf.getLsbD i = src.bit (8 * r.pos - 1 - i)

theorem Reader.Inv.window {src : Source} {r : Reader} (h : r.Inv src) : r.Window src :=
  ⟨h.shift_le, h.pos_le, h.shift_le_pos, h.buffer⟩

/-- A window with something in the buffer, or with nothing left to load, satisfies I5. -/
theorem Reader.Window.inv {src : Source} {r : Reader} (h : r.Window src) (h5 : r.shift = 0 → r.pos = src.len) :
    r.Inv src := by
  refine ⟨h.shift_le, h.pos_le, h.shift_le_pos, h.buffer, ?_⟩
  have := h.shift_le_pos
  constructor
  · intro h0
    have := h5 h0
    simp [Reader.rpos, h0, this]
  · rintro ⟨h1, h2⟩
    simp only [Reader.rpos] at h2
    omega

/-- I7. -/
theorem Reader.Window.rpos_add_ravail {src : Source} {r : Reader} (h : r.Window src) :
    r.rpos + r.ravail src = 8 * src.len := by
  have h1 := h.pos_le
  have h2 := h.shift_le_pos
  simp only [Reader.rpos, Reader.ravail]
  omega

/-- The same reader with fewer unconsumed bits. -/
theorem Reader.Window.consume {src : Source} {r : Reader} (h : r.Window src) {k : Nat} (hk : k ≤ r.shift) :
    Reader.Window src { r with shift := k } :=
  ⟨le_trans hk h.shift_le, h.pos_le, le_trans hk h.shift_le_pos, fun i hi => h.buffer i (lt_of_lt_of_le hi hk)⟩

/-! ## refill -/

/-- R55, exactly. -/
theorem refill_eq (src : Source) (r : Reader) :
    refill src r =
      { buf := BitVec.ofNat 64 (memRead src r.pos (min 8 (src.len - r.pos)))
        shift := 8 * min 8 (src.len - r.pos)
        pos := r.pos + min 8 (src.len - r.pos) } := by
  simp [refill, getN, srcAvailable]

theorem refill_pos (src : Source) (r : Reader) : (refill src r).pos = r.pos + min 8 (src.len - r.pos) := by
  rw [refill_eq]

theorem refill_shift (src : Source) (r : Reader) : (refill src r).shift = 8 * min 8 (src.len - r.pos) := by
  rw [refill_eq]

/-- A refill reads at the source cursor only. -/
theorem refill_congr (src : Source) {r r' : Reader} (h : r.pos = r'.pos) : refill src r = refill src r' := by
  rw [refill_eq, refill_eq, h]

/-- A refill from byte `S.pos` puts the cursor at that byte, with the invariant. -/
theorem refill_spec (src : Source) (r : Reader) (h : r.pos ≤ src.len) :
    (refill src r).Inv src ∧ (refill src r).rpos = 8 * r.pos := by
  have hw : (refill src r).Window src := by
    rw [refill_eq]
    refine ⟨?_, ?_, ?_, fun i hi => ?_⟩
    · show 8 * min 8 (src.len - r.pos) ≤ 64
      omega
    · show r.pos + min 8 (src.len - r.pos) ≤ src.len
      omega
    · show 8 * min 8 (src.len - r.pos) ≤ 8 * (r.pos + min 8 (src.len - r.pos))
      omega
    · have hi' : i < 8 * min 8 (src.len - r.pos) := hi
      have h64 : i < 64 := by omega
      show (BitVec.ofNat 64 (memRead src r.pos (min 8 (src.len - r.pos)))).getLsbD i = _
      rw [BitVec.getLsbD_ofNat, memRead_testBit_stream src r.pos _ i hi']
      simp [h64]
  refine ⟨hw.inv fun h0 => ?_, ?_⟩
  · rw [refill_shift] at h0
    rw [refill_pos]
    omega
  · simp only [Reader.rpos, refill_pos, refill_shift]
    omega

/-- A refill of a depleted source loads nothing. -/
theorem refill_depleted (src : Source) (r : Reader) (h : r.pos = src.len) :
    refill src r = { buf := 0, shift := 0, pos := r.pos } := by
  rw [refill_eq, h]
  simp [memRead]

/-! ## rskip -/

/-- R124's postcondition, with the invariant: from any window. -/
theorem rskip_spec (src : Source) (b : Nat) (r : Reader) (h : r.Window src) (hb : b ≤ r.ravail src) :
    (rskip src b r).Inv src ∧ (rskip src b r).rpos = r.rpos + b := by
  have h2 := h.pos_le
  have h3 := h.shift_le_pos
  simp only [Reader.ravail] at hb
  unfold rskip
  split
  · rename_i hlt
    refine ⟨(h.consume (Nat.sub_le _ _)).inv fun h0 => ?_, ?_⟩
    · have : r.shift - b = 0 := h0
      omega
    · simp only [Reader.rpos]
      omega
  · split
    · rename_i _ heq
      obtain ⟨hi, hp⟩ := refill_spec src r h.pos_le
      refine ⟨hi, hp.trans ?_⟩
      simp only [Reader.rpos]
      omega
    · rename_i h4 h5
      have hpos : (srcSkip ((b - r.shift) / 8) r).pos ≤ src.len := by
        rw [srcSkip_pos]
        omega
      obtain ⟨hi, hp⟩ := refill_spec src _ hpos
      have hs := refill_shift src (srcSkip ((b - r.shift) / 8) r)
      rw [srcSkip_pos] at hs hp
      have hle : (b - r.shift) % 8 ≤ 8 * min 8 (src.len - (r.pos + (b - r.shift) / 8)) := by omega
      refine ⟨(hi.window.consume (Nat.sub_le _ _)).inv fun h0 => ?_, ?_⟩
      · have h0' : (refill src (srcSkip ((b - r.shift) / 8) r)).shift - (b - r.shift) % 8 = 0 := h0
        have h5' := hi.empty_iff
        show (refill src (srcSkip ((b - r.shift) / 8) r)).pos = src.len
        rw [hs] at h0'
        rw [refill_pos, srcSkip_pos]
        omega
      · simp only [Reader.rpos]
        rw [hs, refill_pos, srcSkip_pos]
        omega

/-- Skipping `b` bits takes `b` bits off what is left. -/
theorem rskip_ravail (src : Source) (b : Nat) (r : Reader) (h : r.Window src) (hb : b ≤ r.ravail src) :
    (rskip src b r).ravail src = r.ravail src - b := by
  obtain ⟨hi, hp⟩ := rskip_spec src b r h hb
  have h1 := hi.window.rpos_add_ravail
  have h2 := h.rpos_add_ravail
  omega

/-! ## raw_read -/

/-- A field inside the buffer is the stream from the cursor on. -/
theorem extract_stream {src : Source} {r : Reader} (h : r.Window src) {n : Nat} (hn : n ≤ r.shift) :
    extract r.buf r.shift n = BitVec.ofNat 64 (streamValue src r.rpos n) := by
  have h1 := h.shift_le
  have h3 := h.shift_le_pos
  refine BitVec.eq_of_getLsbD_eq fun j _ => ?_
  rw [extract_getLsbD _ hn h1, streamWord_getLsbD _ _ _ _ (by omega)]
  by_cases hj : j < n
  · have e : 8 * r.pos - 1 - (r.shift - n + j) = r.rpos + (n - 1 - j) := by
      simp only [Reader.rpos]
      omega
    rw [h.buffer _ (by omega), e]
  · simp [hj]

/-- The first bits of a field, then the rest: the first are the high-order bits (20_memory.md R56). -/
theorem streamWord_join (src : Source) (p m n : Nat) (h : m + n ≤ 64) :
    (BitVec.ofNat 64 (streamValue src p m) <<< n) ||| BitVec.ofNat 64 (streamValue src (p + m) n)
      = BitVec.ofNat 64 (streamValue src p (m + n)) := by
  refine BitVec.eq_of_getLsbD_eq fun j hj => ?_
  rw [BitVec.getLsbD_or, BitVec.getLsbD_shiftLeft, streamWord_getLsbD _ _ _ _ (by omega),
    streamWord_getLsbD _ _ _ _ (by omega), streamWord_getLsbD _ _ _ _ h]
  by_cases h1 : j < n
  · have h2 : j < m + n := by omega
    have e : p + (m + n - 1 - j) = p + m + (n - 1 - j) := by omega
    simp [h1, h2, e]
  · by_cases h2 : j < m + n
    · have h3 : j - n < m := by omega
      have e : p + (m + n - 1 - j) = p + (m - 1 - (j - n)) := by omega
      simp [h1, h2, h3, hj, e]
    · have h3 : ¬ j - n < m := by omega
      simp [h1, h2, h3]

/-- A last pass, case A or B: the field is in the buffer. -/
theorem rawReadLoop_last (src : Source) (k bits : Nat) (acc : Word) (r : Reader) (h : r.Window src)
    (hb : bits ≤ r.shift) :
    (rawReadLoop src (k + 1) bits acc r).1 = acc ||| BitVec.ofNat 64 (streamValue src r.rpos bits) ∧
      (rawReadLoop src (k + 1) bits acc r).2.Inv src ∧
      (rawReadLoop src (k + 1) bits acc r).2.rpos = r.rpos + bits := by
  have h3 := h.shift_le_pos
  have he := extract_stream h hb
  rw [rawReadLoop]
  split
  · rename_i hlt
    refine ⟨by rw [he], (h.consume (Nat.sub_le _ _)).inv fun h0 => ?_, ?_⟩
    · have : r.shift - bits = 0 := h0
      omega
    · simp only [Reader.rpos]
      omega
  · rw [if_pos (by omega : bits = r.shift)]
    obtain ⟨hi, hp⟩ := refill_spec src r h.pos_le
    refine ⟨by rw [he], hi, hp.trans ?_⟩
    simp only [Reader.rpos]
    omega

/-- Case C. -/
theorem rawReadLoop_across (src : Source) (k bits : Nat) (acc : Word) (r : Reader) (h : r.shift < bits) :
    rawReadLoop src (k + 1) bits acc r =
      rawReadLoop src k (bits - r.shift) (acc ||| (extract r.buf r.shift r.shift <<< (bits - r.shift))) (refill src r) := by
  rw [rawReadLoop, if_neg (by omega), if_neg (by omega)]

/-- R140 and R147 for any number of passes from two on: the bits returned are the stream from the cursor on, and the cursor
has moved past them. -/
theorem rawReadLoop_spec (src : Source) (k bits : Nat) (r : Reader) (h : r.Window src) (h64 : bits ≤ 64)
    (hb : bits ≤ r.ravail src) :
    (rawReadLoop src (k + 2) bits 0 r).1 = BitVec.ofNat 64 (streamValue src r.rpos bits) ∧
      (rawReadLoop src (k + 2) bits 0 r).2.Inv src ∧
      (rawReadLoop src (k + 2) bits 0 r).2.rpos = r.rpos + bits := by
  by_cases hs : bits ≤ r.shift
  · obtain ⟨h1, h2, h3⟩ := rawReadLoop_last src (k + 1) bits 0 r h hs
    exact ⟨h1.trans BitVec.zero_or, h2, h3⟩
  · have h3 := h.shift_le_pos
    simp only [Reader.ravail] at hb
    obtain ⟨hi, hp⟩ := refill_spec src r h.pos_le
    have hrs := refill_shift src r
    have hbits : bits - r.shift ≤ (refill src r).shift := by omega
    rw [rawReadLoop_across src (k + 1) bits 0 r (by omega),
      show (0 : Word) ||| (extract r.buf r.shift r.shift <<< (bits - r.shift)) = _ from BitVec.zero_or]
    obtain ⟨h1, h2, h4⟩ := rawReadLoop_last src k (bits - r.shift)
      (extract r.buf r.shift r.shift <<< (bits - r.shift)) (refill src r) hi.window hbits
    refine ⟨?_, h2, ?_⟩
    · have e : 8 * r.pos = r.rpos + r.shift := by
        simp only [Reader.rpos]
        omega
      rw [h1, extract_stream h le_rfl, hp, e, streamWord_join _ _ _ _ (by omega)]
      congr 2
      omega
    · rw [h4, hp]
      simp only [Reader.rpos]
      omega

/-- R140, R147: `raw_read` under its preconditions. -/
theorem rawRead_spec (src : Source) (bits : Nat) (r : Reader) (h : r.Window src) (h64 : bits ≤ 64)
    (hb : bits ≤ r.ravail src) :
    (rawRead src bits r).1 = BitVec.ofNat 64 (streamValue src r.rpos bits) ∧
      (rawRead src bits r).2.Inv src ∧ (rawRead src bits r).2.rpos = r.rpos + bits :=
  rawReadLoop_spec src 0 bits r h h64 hb

/-- R145: under the preconditions two passes are enough; more change nothing. -/
theorem rawReadLoop_passes (src : Source) (k bits : Nat) (r : Reader) (h : r.Window src) (h64 : bits ≤ 64)
    (hb : bits ≤ r.ravail src) : rawReadLoop src (k + 2) bits 0 r = rawRead src bits r := by
  have hstep : ∀ (m n : Nat) (acc : Word) (q : Reader), n ≤ q.shift →
      rawReadLoop src (m + 1) n acc q = rawReadLoop src 1 n acc q := by
    intro m n acc q hn
    rw [rawReadLoop, rawReadLoop]
    split
    · rfl
    · rw [if_pos (by omega), if_pos (by omega)]
  by_cases hs : bits ≤ r.shift
  · rw [rawRead, hstep (k + 1) bits 0 r hs, hstep 1 bits 0 r hs]
  · simp only [Reader.ravail] at hb
    have h1 := h.shift_le_pos
    have hrs := refill_shift src r
    rw [rawRead, rawReadLoop_across src (k + 1) bits 0 r (by omega), rawReadLoop_across src 1 bits 0 r (by omega)]
    exact hstep k _ _ _ (by omega)

/-- Reading takes what it reads off what is left. -/
theorem rawRead_ravail (src : Source) (bits : Nat) (r : Reader) (h : r.Window src) (h64 : bits ≤ 64)
    (hb : bits ≤ r.ravail src) : (rawRead src bits r).2.ravail src = r.ravail src - bits := by
  obtain ⟨-, hi, hp⟩ := rawRead_spec src bits r h h64 hb
  have h1 := hi.window.rpos_add_ravail
  have h2 := h.rpos_add_ravail
  omega

end Sys2Proof.Machine
end

