-- ==== Sys2Proof/Laws/Writer.lean ====
section
/-! SUPPORT. What the writer's procedures can do, once each: put and emit (20_memory.md R59, R61), the loop of WRITE
(43_writer.md R162) and wskip (R164), each by the bit string it appends (R168). Callers cite `emit_spec`, `writeBits_spec` and
`wskip_spec` and unfold nothing. -/

namespace Sys2Proof.Machine

/-! ## Bits of a byte and of an argument -/

theorem byteBits_length (b : Byte) : (byteBits b).length = 8 := by simp [byteBits]

theorem byteBits_take (b : Byte) {k : Nat} (h : k ≤ 8) :
    (byteBits b).take k = (List.range k).map (fun j => b.getLsbD (7 - j)) := by
  rw [byteBits, ← List.map_take, List.take_range, Nat.min_eq_left h]

theorem range_add_map {β : Type} (m n : Nat) (f : Nat → β) :
    (List.range (m + n)).map f = (List.range m).map f ++ (List.range n).map (fun j => f (m + j)) := by
  rw [List.range_add, List.map_append, List.map_map]
  rfl

theorem range_map_const {β : Type} (n : Nat) (b : β) (f : Nat → β) (h : ∀ j, j < n → f j = b) :
    (List.range n).map f = List.replicate n b := by
  refine List.eq_replicate_iff.2 ⟨by simp, fun x hx => ?_⟩
  obtain ⟨j, hj, rfl⟩ := List.mem_map.1 hx
  exact h j (List.mem_range.1 hj)

/-- A byte whose low `k` bits are zero: its high bits, then `k` zeros. -/
theorem byteBits_split (b : Byte) {k : Nat} (hk : k ≤ 8) (h : ∀ i, i < k → b.getLsbD i = false) :
    byteBits b = (byteBits b).take (8 - k) ++ List.replicate k false := by
  have e : byteBits b = (List.range (8 - k + k)).map (fun j => b.getLsbD (7 - j)) := by
    rw [Nat.sub_add_cancel hk, byteBits]
  rw [byteBits_take b (by omega)]
  conv_lhs => rw [e, range_add_map]
  congr 1
  exact range_map_const k false _ fun j hj => h _ (by omega)

theorem argBits_length (arg : Word) (n : Nat) : (argBits arg n).length = n := by simp [argBits]

/-- The top `p` bits of the remaining value, then the rest of it. -/
theorem argBits_split (arg : Word) {p n : Nat} (h : p ≤ n) :
    argBits arg n = (List.range p).map (fun j => arg.getLsbD (n - 1 - j)) ++ argBits arg (n - p) := by
  have e : argBits arg n = (List.range (p + (n - p))).map (fun j => arg.getLsbD (n - 1 - j)) := by
    rw [Nat.add_sub_cancel' h, argBits]
  rw [e, range_add_map]
  congr 1
  refine List.map_congr_left fun j _ => ?_
  congr 1
  omega

/-! ## The bit string and the invariant -/

theorem Writer.bits_length (w : Writer) : w.bits.length = w.wpos := by
  have h1 : ∀ n, ((List.range n).flatMap (fun a => byteBits (w.snk.read a))).length = n * 8 := by
    intro n
    induction n with
    | zero => rfl
    | succ n ih => rw [List.range_succ, List.flatMap_append, List.length_append, ih]; simp [byteBits_length]; omega
  rw [Writer.bits, List.length_append, h1, List.length_take, byteBits_length, Writer.wpos]
  omega

/-- The writer's invariant without the lower half of J1: what holds inside WRITE when a byte is complete. -/
structure Writer.Window (w : Writer) : Prop where
  avail_le : w.avail ≤ 8
  free_zero : ∀ i, i < w.avail → w.buf.getLsbD i = false
  snk_wf : w.snk.wf = true
  snk_below : cellsBelow w.kpos w.snk = true
  snknb_wf : w.snknb.wf = true
  snknb_below : cellsBelow w.kpos w.snknb = true
  counts : ∀ c ∈ w.snknb, 1 ≤ c.2 ∧ c.2 ≤ 8

theorem Writer.Inv.window {w : Writer} (h : w.Inv) : w.Window :=
  ⟨h.avail_le, h.free_zero, h.snk_wf, h.snk_below, h.snknb_wf, h.snknb_below, h.counts⟩

theorem Writer.Window.inv {w : Writer} (h : w.Window) (h1 : 1 ≤ w.avail) : w.Inv :=
  ⟨h1, h.avail_le, h.free_zero, h.snk_wf, h.snk_below, h.snknb_wf, h.snknb_below, h.counts⟩

/-- J4: `SNK` has only grown, and the bytes that were in it, with their counts, are as before. -/
structure Writer.Grows (w w' : Writer) : Prop where
  kpos_le : w.kpos ≤ w'.kpos
  bytes : ∀ a, a < w.kpos → w'.snk.read a = w.snk.read a
  counts : ∀ a, a < w.kpos → w'.snknb.read a = w.snknb.read a

theorem Writer.Grows.refl (w : Writer) : w.Grows w := ⟨le_rfl, fun _ _ => rfl, fun _ _ => rfl⟩

theorem Writer.Grows.trans {u v w : Writer} (h : u.Grows v) (k : v.Grows w) : u.Grows w :=
  ⟨le_trans h.kpos_le k.kpos_le,
    fun a ha => (k.bytes a (lt_of_lt_of_le ha h.kpos_le)).trans (h.bytes a ha),
    fun a ha => (k.counts a (lt_of_lt_of_le ha h.kpos_le)).trans (h.counts a ha)⟩

/-- A change of the accumulator only. -/
theorem Writer.Grows.of_eq {w w' : Writer} (h1 : w'.kpos = w.kpos) (h2 : w'.snk = w.snk) (h3 : w'.snknb = w.snknb) :
    w.Grows w' :=
  ⟨h1.ge, fun a _ => by rw [h2], fun a _ => by rw [h3]⟩

/-! ## emit -/

/-- R61: the accumulator goes out as the next byte, padded with the zeros of its free slots; a fresh byte is started. -/
theorem emit_spec (nb : Nat) (w : Writer) (h : w.Window) (h1 : 1 ≤ nb) (h8 : nb ≤ 8) :
    (emit nb w).Inv ∧ (emit nb w).bits = w.bits ++ List.replicate w.avail false ∧ w.Grows (emit nb w) := by
  have hne : ∀ a, a < w.kpos → a ≠ w.kpos := fun a ha => by omega
  refine ⟨⟨by simp, by simp, fun i _ => by simp, ?_, ?_, ?_, ?_, ?_⟩, ?_, ⟨by simp, fun a ha => ?_, fun a ha => ?_⟩⟩
  · exact Memory.write_wf _ _ h.snk_wf
  · exact Memory.write_below _ h.snk_below
  · exact SideBand.write_wf _ _ h.snknb_wf
  · exact SideBand.write_below _ h.snknb_below
  · intro c hc
    rcases SideBand.write_mem hc with rfl | hc
    · exact ⟨h1, h8⟩
    · exact h.counts c hc
  · have hold : (List.range w.kpos).flatMap (fun a => byteBits ((w.snk.write w.kpos w.buf).read a))
        = (List.range w.kpos).flatMap (fun a => byteBits (w.snk.read a)) := by
      refine List.flatMap_congr fun a ha => ?_
      rw [Memory.read_write h.snk_wf, if_neg (hne a (List.mem_range.1 ha))]
    simp only [Writer.bits, emit_kpos, emit_snk, emit_avail, emit_buf, List.range_succ, List.flatMap_append, hold]
    simp only [List.flatMap_cons, List.flatMap_nil, List.append_nil, Nat.sub_self, List.take_zero]
    rw [Memory.read_write h.snk_wf, if_pos rfl, List.append_assoc, ← byteBits_split w.buf h.avail_le h.free_zero]
  · rw [emit_snk, Memory.read_write h.snk_wf, if_neg (hne a ha)]
  · rw [emit_snknb, SideBand.read_write h.snknb_wf, if_neg (hne a ha)]

/-- The byte an emit puts. -/
theorem emit_byte (nb : Nat) (w : Writer) (h : w.Window) :
    (emit nb w).snk.read w.kpos = w.buf ∧ (emit nb w).snknb.read w.kpos = nb := by
  rw [emit_snk, emit_snknb, Memory.read_write h.snk_wf, SideBand.read_write h.snknb_wf, if_pos rfl, if_pos rfl]
  exact ⟨rfl, rfl⟩

/-- A put with the count 8 of a whole byte is what an unlisted address of the side band reads as. -/
theorem emit_eight_snknb (w : Writer) (h : w.Window) : (emit 8 w).snknb = w.snknb := by
  refine cells_ext (d := SideBand.blank) (SideBand.write_wf _ _ h.snknb_wf) h.snknb_wf fun a => ?_
  refine (SideBand.read_write h.snknb_wf w.kpos a 8).trans ?_
  split
  · rename_i ha
    exact (SideBand.read_above h.snknb_below ha.ge).symm
  · rfl

/-! ## Fewer free slots, and runs of zero bytes -/

/-- Skipping inside the byte: the slots already hold zero. -/
theorem skipInByte_spec (w : Writer) (h : w.Window) {b : Nat} (hb : b ≤ w.avail) :
    Writer.Window { w with avail := w.avail - b } ∧
      Writer.bits { w with avail := w.avail - b } = w.bits ++ List.replicate b false ∧
      w.Grows { w with avail := w.avail - b } := by
  have h8 := h.avail_le
  refine ⟨⟨?_, fun i hi => h.free_zero i ?_, h.snk_wf, h.snk_below, h.snknb_wf, h.snknb_below, h.counts⟩, ?_,
    Writer.Grows.of_eq rfl rfl rfl⟩
  · show w.avail - b ≤ 8
    omega
  · have hi' : i < w.avail - b := hi
    omega
  · have e : 8 - (w.avail - b) = 8 - w.avail + b := by omega
    simp only [Writer.bits, List.append_assoc]
    rw [byteBits_take _ (by omega), byteBits_take _ (by omega), e, range_add_map]
    congr 2
    exact range_map_const b false _ fun j hj => h.free_zero _ (by omega)

/-- `emitZeros` keeps the invariant and appends zero bytes with count 8. -/
theorem emitZeros_spec (n : Nat) (w : Writer) (h : w.Inv) (h8 : w.avail = 8) :
    (emitZeros n w).Inv ∧ (emitZeros n w).bits = w.bits ++ List.replicate (8 * n) false ∧ w.Grows (emitZeros n w) := by
  refine ⟨⟨h.avail_pos, h.avail_le, h.free_zero, h.snk_wf, cellsBelow_mono h.snk_below (by simp), h.snknb_wf,
    cellsBelow_mono h.snknb_below (by simp), h.counts⟩, ?_, ⟨by simp, fun a _ => rfl, fun a _ => rfl⟩⟩
  simp only [Writer.bits, emitZeros_kpos, emitZeros_snk, emitZeros_avail, emitZeros_buf, h8, Nat.sub_self, List.take_zero,
    List.append_nil]
  induction n with
  | zero => simp
  | succ n ih =>
    have hz : byteBits (w.snk.read (w.kpos + n)) = List.replicate 8 false := by
      rw [Memory.read_above h.snk_below (by omega)]
      decide
    rw [← Nat.add_assoc, List.range_succ, List.flatMap_append, ih]
    simp only [List.flatMap_cons, List.flatMap_nil, List.append_nil, hz, List.append_assoc,
      List.replicate_append_replicate]
    congr 2

/-- R164: the runs of zero bytes that wskip puts at once are so many emits of a fresh empty byte. -/
theorem emitZeros_eq_emitTimes (n : Nat) (w : Writer) (h : w.Inv) (h8 : w.avail = 8) : emitZeros n w = emitTimes n w := by
  induction n generalizing w with
  | zero => rfl
  | succ n ih =>
    have hbuf : w.buf = 0 := by
      refine BitVec.eq_of_getLsbD_eq fun i hi => ?_
      rw [h.free_zero i (by omega)]
      simp
    have hsnk : w.snk.write w.kpos w.buf = w.snk := by
      refine Memory.ext (Memory.write_wf _ _ h.snk_wf) h.snk_wf fun a => ?_
      rw [Memory.read_write h.snk_wf]
      split
      · rename_i ha
        rw [Memory.read_above h.snk_below ha.ge, hbuf]
      · rfl
    have hnb : w.snknb.write w.kpos 8 = w.snknb := emit_eight_snknb w h.window
    have he : emit 8 w = { w with kpos := w.kpos + 1 } := by
      obtain ⟨buf, avail, snk, kpos, snknb⟩ := w
      simp only at h8 hbuf hsnk hnb
      subst h8 hbuf
      simp only [emit, put, hsnk, hnb]
    rw [emitTimes, ← ih (emit 8 w) (emit_spec 8 w h.window (by decide) (by decide)).1 rfl, he]
    simp only [emitZeros]
    congr 1
    omega

/-! ## WRITE -/

/-- The accumulator after the chunk of one pass is put in: the bits above it as before, the chunk, zeros below. -/
theorem writePass_buf (arg : Word) (rem : Nat) (w : Writer) (h : w.Window) (hrem : rem ≤ 64) (i : Nat) :
    (w.buf ||| (((arg >>> (rem - min w.avail rem)) &&& mask (min w.avail rem)).setWidth 8
        <<< (w.avail - min w.avail rem))).getLsbD i =
      if i < w.avail - min w.avail rem then false
      else if i < w.avail then arg.getLsbD (rem - min w.avail rem + (i - (w.avail - min w.avail rem)))
      else w.buf.getLsbD i := by
  have h8 := h.avail_le
  rw [BitVec.getLsbD_or, BitVec.getLsbD_shiftLeft, BitVec.getLsbD_setWidth, BitVec.getLsbD_and,
    BitVec.getLsbD_ushiftRight, mask_getLsbD]
  by_cases h1 : i < w.avail - min w.avail rem
  · have h2 : i < w.avail := by omega
    simp [h1, h.free_zero i h2]
  · by_cases h2 : i < w.avail
    · have h3 : i < 8 := by omega
      have h4 : i - (w.avail - min w.avail rem) < min w.avail rem := by omega
      have h5 : i - (w.avail - min w.avail rem) < 64 := by omega
      have h6 : i - (w.avail - min w.avail rem) < 8 := by omega
      simp only [h.free_zero i h2, h3, h1, h2, h4, h5, h6, decide_true, decide_false, Bool.not_false, Bool.true_and,
        Bool.and_true, Bool.false_or, if_true, if_false]
    · have h4 : ¬ i - (w.avail - min w.avail rem) < min w.avail rem := by omega
      simp only [h1, h2, h4, decide_false, Bool.false_and, Bool.and_false, Bool.or_false, if_false]

/-- One pass of WRITE: the top bits of the remaining value are appended. -/
theorem writePass_spec (arg : Word) (rem : Nat) (w : Writer) (h : w.Inv) (h0 : 0 < rem) (hrem : rem ≤ 64) :
    (writePass arg rem w).Inv ∧
      (writePass arg rem w).bits =
        w.bits ++ (List.range (min w.avail rem)).map (fun j => arg.getLsbD (rem - 1 - j)) ∧
      w.Grows (writePass arg rem w) ∧ (writePass arg rem w).snknb = w.snknb := by
  have h8 := h.avail_le
  have h1 := h.avail_pos
  have hb := writePass_buf arg rem w h.window hrem
  generalize hv : (w.buf ||| (((arg >>> (rem - min w.avail rem)) &&& mask (min w.avail rem)).setWidth 8
        <<< (w.avail - min w.avail rem))) = v at hb
  have hpass : writePass arg rem w =
      if w.avail - min w.avail rem = 0 then emit 8 { w with buf := v, avail := w.avail - min w.avail rem }
      else { w with buf := v, avail := w.avail - min w.avail rem } := by
    simp only [writePass, hv]
  have hwin : Writer.Window { w with buf := v, avail := w.avail - min w.avail rem } := by
    refine ⟨?_, fun i hi => ?_, h.snk_wf, h.snk_below, h.snknb_wf, h.snknb_below, h.counts⟩
    · show w.avail - min w.avail rem ≤ 8
      omega
    · have hi' : i < w.avail - min w.avail rem := hi
      show v.getLsbD i = false
      rw [hb, if_pos hi']
  have hbits : Writer.bits { w with buf := v, avail := w.avail - min w.avail rem } =
      w.bits ++ (List.range (min w.avail rem)).map (fun j => arg.getLsbD (rem - 1 - j)) := by
    have e : 8 - (w.avail - min w.avail rem) = 8 - w.avail + min w.avail rem := by omega
    simp only [Writer.bits, List.append_assoc]
    rw [byteBits_take _ (by omega), byteBits_take _ (by omega), e, range_add_map]
    congr 2
    · refine List.map_congr_left fun j hj => ?_
      have := List.mem_range.1 hj
      rw [hb, if_neg (by omega), if_neg (by omega)]
    · refine List.map_congr_left fun j hj => ?_
      have := List.mem_range.1 hj
      rw [hb, if_neg (by omega), if_pos (by omega)]
      congr 1
      omega
  have hgrow : w.Grows { w with buf := v, avail := w.avail - min w.avail rem } := Writer.Grows.of_eq rfl rfl rfl
  rw [hpass]
  split
  · rename_i hz
    obtain ⟨g1, g2, g3⟩ := emit_spec 8 _ hwin (by decide) (by decide)
    refine ⟨g1, ?_, hgrow.trans g3, emit_eight_snknb _ hwin⟩
    rw [g2, hbits]
    simp [hz]
  · rename_i hnz
    exact ⟨hwin.inv (Nat.one_le_iff_ne_zero.2 hnz), hbits, hgrow, rfl⟩

/-- The loop of WRITE appends the remaining value, whatever passes it has left beyond the bits it still has to write. -/
theorem writeLoop_spec (arg : Word) (passes rem : Nat) (w : Writer) (h : w.Inv) (hrem : rem ≤ 64) (hp : rem ≤ passes) :
    (writeLoop arg passes rem w).Inv ∧ (writeLoop arg passes rem w).bits = w.bits ++ argBits arg rem ∧
      w.Grows (writeLoop arg passes rem w) ∧ (writeLoop arg passes rem w).snknb = w.snknb := by
  induction passes generalizing rem w with
  | zero =>
    have : rem = 0 := by omega
    subst this
    exact ⟨h, by simp [writeLoop, argBits], Writer.Grows.refl w, rfl⟩
  | succ passes ih =>
    rw [writeLoop]
    split
    · rename_i h0
      subst h0
      exact ⟨h, by simp [argBits], Writer.Grows.refl w, rfl⟩
    · rename_i h0
      have h1 := h.avail_pos
      obtain ⟨g1, g2, g3, g4⟩ := writePass_spec arg rem w h (Nat.pos_of_ne_zero h0) hrem
      obtain ⟨k1, k2, k3, k4⟩ := ih (rem - min w.avail rem) (writePass arg rem w) g1 (by omega) (by omega)
      refine ⟨k1, ?_, g3.trans k3, k4.trans g4⟩
      rw [k2, g2, List.append_assoc, ← argBits_split arg (Nat.min_le_right _ _)]

/-- R162, R168: WRITE appends the low `width` bits of its argument, most significant first. -/
theorem writeBits_spec (arg : Word) (width : Nat) (w : Writer) (h : w.Inv) (hw : width ≤ 64) :
    (writeBits arg width w).Inv ∧ (writeBits arg width w).bits = w.bits ++ argBits arg width ∧
      w.Grows (writeBits arg width w) ∧ (writeBits arg width w).snknb = w.snknb :=
  writeLoop_spec arg (width + 1) width w h hw (Nat.le_succ width)

/-! ## wskip -/

/-- R164: wskip appends `b` zero bits. -/
theorem wskip_spec (b : Nat) (w : Writer) (h : w.Inv) :
    (wskip b w).Inv ∧ (wskip b w).bits = w.bits ++ List.replicate b false ∧ w.Grows (wskip b w) ∧
      (wskip b w).snknb = w.snknb := by
  have h8 := h.avail_le
  unfold wskip
  split
  · rename_i hlt
    obtain ⟨g1, g2, g3⟩ := skipInByte_spec w h.window (Nat.le_of_lt hlt)
    refine ⟨g1.inv ?_, g2, g3, rfl⟩
    show 1 ≤ w.avail - b
    omega
  · split
    · rename_i _ heq
      obtain ⟨g1, g2, g3⟩ := emit_spec 8 w h.window (by decide) (by decide)
      exact ⟨g1, by rw [g2, heq], g3, emit_eight_snknb w h.window⟩
    · rename_i h1 h2
      obtain ⟨g1, g2, g3⟩ := emit_spec 8 w h.window (by decide) (by decide)
      obtain ⟨k1, k2, k3⟩ := emitZeros_spec ((b - w.avail) / 8) (emit 8 w) g1 rfl
      obtain ⟨m1, m2, m3⟩ := skipInByte_spec (emitZeros ((b - w.avail) / 8) (emit 8 w)) k1.window
        (b := (b - w.avail) % 8) (by rw [emitZeros_avail, emit_avail]; omega)
      rw [emitZeros_avail, emit_avail] at m1 m2 m3
      refine ⟨m1.inv ?_, ?_, (g3.trans k3).trans m3, emit_eight_snknb w h.window⟩
      · show 1 ≤ 8 - (b - w.avail) % 8
        omega
      · rw [m2, k2, g2]
        simp only [List.append_assoc, List.replicate_append_replicate]
        congr 2
        omega

end Sys2Proof.Machine
end

