-- ==== Sys2Proof/Laws/Exec.lean ====
section
/-! SUPPORT. How a command ends (60_exceptions.md R205, R209, R210), once each for the shared bodies of READ, PEEK and WRITE
and for `exec`: later proofs cite these and unfold no meaning. -/

namespace Sys2Proof.Machine

theorem complete_eq (v : Word) (s : State) : complete v s = .next (s.withAnswer (.okay v)) := rfl

theorem raise_eq (e : Status) (s : State) : raise e s = .next (s.withAnswer (.error e)) := rfl

@[simp] theorem okay_status (v : Word) : (Response.okay v).status = .ok := rfl
@[simp] theorem okay_result (v : Word) : (Response.okay v).result = v := rfl
@[simp] theorem error_status (e : Status) : (Response.error e).status = e := rfl
@[simp] theorem error_result (e : Status) : (Response.error e).result = 0 := rfl

/-- A width a type allows is at most 64 (60_exceptions.md R203). -/
theorem widthOk_le {t : VType} {w : Nat} (h : widthOk t w = true) : w ≤ 64 := by
  have h8 : ∀ ts : TSize, 8 * tsizeBytes ts ≤ 64 := fun ts => by cases ts <;> decide
  cases t with
  | unsigned ts => exact le_trans (of_decide_eq_true h) (h8 ts)
  | signed ts => exact le_trans (of_decide_eq_true h) (h8 ts)
  | f32 => exact le_of_eq_of_le (of_decide_eq_true h) (by decide)
  | f64 => exact le_of_eq_of_le (of_decide_eq_true h) (by decide)

/-! ## The shared bodies -/

theorem readTyped_contract {t : VType} {w : Nat} (s : State) (h : widthOk t w = false) :
    readTyped t w s = raise .contract s := by
  rw [readTyped, if_pos h]

theorem readTyped_eos {t : VType} {w : Nat} {s : State} (h : widthOk t w = true) (hw : s.ravail < w) :
    readTyped t w s = raise .eos s := by
  rw [readTyped, if_neg (by simp [h]), if_pos hw]

theorem readTyped_ok {t : VType} {w : Nat} {s : State} (h : widthOk t w = true) (hw : w ≤ s.ravail) :
    readTyped t w s =
      complete (readValue t w (rawRead s.source w s.rd).1) (s.withReader (rawRead s.source w s.rd).2) := by
  rw [readTyped, if_neg (by simp [h]), if_neg (by omega)]

theorem peekTyped_contract {t : VType} {w : Nat} (s : State) (h : widthOk t w = false) :
    peekTyped t w s = raise .contract s := by
  rw [peekTyped, if_pos h]

theorem peekTyped_eos {t : VType} {w : Nat} {s : State} (h : widthOk t w = true) (hw : s.ravail < w) :
    peekTyped t w s = raise .eos s := by
  rw [peekTyped, if_neg (by simp [h]), if_pos hw]

theorem peekTyped_ok {t : VType} {w : Nat} {s : State} (h : widthOk t w = true) (hw : w ≤ s.ravail) :
    peekTyped t w s = complete (readValue t w (rawRead s.source w s.rd).1) s := by
  rw [peekTyped, if_neg (by simp [h]), if_neg (by omega)]

theorem writeTyped_contract {t : VType} {w : Nat} (arg : Word) (s : State) (h : widthOk t w = false) :
    writeTyped t w arg s = raise .contract s := by
  rw [writeTyped, if_pos h]

theorem writeTyped_ok {t : VType} {w : Nat} (arg : Word) (s : State) (h : widthOk t w = true) :
    writeTyped t w arg s = complete 0 (s.withWriter (writeBits arg w s.wr)) := by
  rw [writeTyped, if_neg (by simp [h])]

/-- The reader after RSEEK's discard of the buffer, at a byte of the source or its end (41_reader_cursor.md R126). -/
theorem seekWindow (src : Source) (r : Reader) {b : Nat} (h : b ≤ src.len) :
    Reader.Window src { srcSeek b r with shift := 0 } :=
  ⟨Nat.zero_le _, h, Nat.zero_le _, fun i hi => absurd hi (Nat.not_lt_zero i)⟩

/-! ## exec -/

theorem exec_readOf (t : VType) (w : Nat) (s : State) :
    Sys2Proof.Machine.exec (readOf t w) s = readTyped t w s := by cases t <;> rfl

theorem exec_peekOf (t : VType) (w : Nat) (s : State) :
    Sys2Proof.Machine.exec (peekOf t w) s = peekTyped t w s := by cases t <;> rfl

theorem exec_writeOf (t : VType) (w : Nat) (arg : Word) (s : State) :
    Sys2Proof.Machine.exec (writeOf t w arg) s = writeTyped t w arg s := by cases t <;> rfl

/-- What a reader's change of its registers may be: the invariant kept. -/
def ReaderOutcome (s : State) (r : Reader) : Prop := s.source.legal = true → s.rd.Inv s.source → r.Inv s.source

/-- What a writer's change may be: the invariant kept, and the sink only grown. -/
def WriterOutcome (s : State) (w : Writer) : Prop := s.wr.Inv → w.Inv ∧ s.wr.Grows w

/-- Everything `exec` can do: raise an error with nothing written, complete with nothing written, complete with the reader
moved (reader commands), or complete with the writer moved (writer commands). -/
inductive Ends (i : Instr) (s : State) : Result → Prop where
  | raised (e : Status) (h1 : e ≠ .ok) (h2 : e ≠ .ioerr) : Ends i s (raise e s)
  | answered (v : Word) : Ends i s (complete v s)
  | read (v : Word) (r : Reader) (hi : i.isReader = true) (h : ReaderOutcome s r) : Ends i s (complete v (s.withReader r))
  | wrote (w : Writer) (hi : i.isWriter = true) (h : WriterOutcome s w) : Ends i s (complete 0 (s.withWriter w))

theorem readTyped_ends (i : Instr) (hi : i.isReader = true) (t : VType) (w : Nat) (s : State) :
    Ends i s (readTyped t w s) := by
  cases h : widthOk t w with
  | false => exact readTyped_contract s h ▸ .raised .contract (by decide) (by decide)
  | true =>
    rcases Nat.lt_or_ge s.ravail w with hw | hw
    · exact readTyped_eos h hw ▸ .raised .eos (by decide) (by decide)
    · rw [readTyped_ok h hw]
      exact .read _ _ hi fun _ hr => (rawRead_spec s.source w s.rd hr.window (widthOk_le h) hw).2.1

theorem peekTyped_ends (i : Instr) (t : VType) (w : Nat) (s : State) : Ends i s (peekTyped t w s) := by
  cases h : widthOk t w with
  | false => exact peekTyped_contract s h ▸ .raised .contract (by decide) (by decide)
  | true =>
    rcases Nat.lt_or_ge s.ravail w with hw | hw
    · exact peekTyped_eos h hw ▸ .raised .eos (by decide) (by decide)
    · exact peekTyped_ok h hw ▸ .answered _

theorem writeTyped_ends (i : Instr) (hi : i.isWriter = true) (t : VType) (w : Nat) (arg : Word) (s : State) :
    Ends i s (writeTyped t w arg s) := by
  cases h : widthOk t w with
  | false => exact writeTyped_contract arg s h ▸ .raised .contract (by decide) (by decide)
  | true =>
    rw [writeTyped_ok arg s h]
    exact .wrote _ hi fun hw =>
      ⟨(writeBits_spec arg w s.wr hw (widthOk_le h)).1, (writeBits_spec arg w s.wr hw (widthOk_le h)).2.2.1⟩

theorem rskip_outcome (s : State) (b : Nat) (hb : b ≤ s.ravail) : ReaderOutcome s (rskip s.source b s.rd) :=
  fun _ hr => (rskip_spec s.source b s.rd hr.window hb).1

theorem wskip_outcome (s : State) (b : Nat) : WriterOutcome s (wskip b s.wr) :=
  fun hw => ⟨(wskip_spec b s.wr hw).1, (wskip_spec b s.wr hw).2.2.1⟩

/-- RSEEK's body moves the cursor to the target (41_reader_cursor.md R126). -/
theorem rseek_spec (src : Source) (r : Reader) (n : Nat) (h : n ≤ 8 * src.len) :
    (rskip src (n % 8) { srcSeek (n / 8) r with shift := 0 }).Inv src ∧
      (rskip src (n % 8) { srcSeek (n / 8) r with shift := 0 }).rpos = n := by
  obtain ⟨h1, h2⟩ := rskip_spec src (n % 8) _ (seekWindow src r (b := n / 8) (by omega)) (by
    simp only [Reader.ravail, srcSeek_pos]
    omega)
  refine ⟨h1, h2.trans ?_⟩
  simp only [Reader.rpos, srcSeek_pos]
  omega

/-- What one command can do. -/
theorem exec_ends (i : Instr) (s : State) : Ends i s (Sys2Proof.Machine.exec i s) := by
  cases i with
  | rpos => exact .answered _
  | ravail => exact .answered _
  | rseek a =>
    show Ends _ s (execRseek a s)
    unfold execRseek
    split
    · exact .raised .range (by decide) (by decide)
    · exact .read 0 _ rfl fun _ _ => (rseek_spec s.source s.rd a.toNat (by omega)).1
  | rskip a =>
    show Ends _ s (execRskip a s)
    unfold execRskip
    split
    · exact .raised .eos (by decide) (by decide)
    · exact .read 0 _ rfl (rskip_outcome s _ (by omega))
  | ralign a =>
    show Ends _ s (execRalign a s)
    unfold execRalign
    split
    · exact .raised .contract (by decide) (by decide)
    · split
      · exact .raised .eos (by decide) (by decide)
      · exact .read 0 _ rfl (rskip_outcome s _ (by omega))
  | readU ts w => exact readTyped_ends _ rfl (.unsigned ts) w s
  | readS ts w => exact readTyped_ends _ rfl (.signed ts) w s
  | readF32 w => exact readTyped_ends _ rfl .f32 w s
  | readF64 w => exact readTyped_ends _ rfl .f64 w s
  | peekU ts w => exact peekTyped_ends _ (.unsigned ts) w s
  | peekS ts w => exact peekTyped_ends _ (.signed ts) w s
  | peekF32 w => exact peekTyped_ends _ .f32 w s
  | peekF64 w => exact peekTyped_ends _ .f64 w s
  | wpos => exact .answered _
  | writeU ts w a => exact writeTyped_ends _ rfl (.unsigned ts) w a s
  | writeS ts w a => exact writeTyped_ends _ rfl (.signed ts) w a s
  | writeF32 w a => exact writeTyped_ends _ rfl .f32 w a s
  | writeF64 w a => exact writeTyped_ends _ rfl .f64 w a s
  | wflush =>
    show Ends _ s (execWflush s)
    unfold execWflush
    split
    · refine .wrote _ rfl fun hw => ?_
      have h1 := hw.avail_pos
      obtain ⟨g1, -, g3⟩ := emit_spec (8 - s.wr.avail) s.wr hw.window (by omega) (by omega)
      exact ⟨g1, g3⟩
    · exact .answered _
  | wskip a => exact .wrote _ rfl (wskip_outcome s _)
  | walign a =>
    show Ends _ s (execWalign a s)
    unfold execWalign
    split
    · exact .raised .contract (by decide) (by decide)
    · exact .wrote _ rfl (wskip_outcome s _)
  | mask w =>
    show Ends _ s (execMask w s)
    unfold execMask
    split
    · exact .raised .contract (by decide) (by decide)
    · exact .answered _
  | sext w a =>
    show Ends _ s (execSext w a s)
    unfold execSext
    split
    · exact .raised .contract (by decide) (by decide)
    · exact .answered _

/-! ## step -/

/-- A command presented next is run, with the rest of the events still to come. -/
theorem step_command {s : State} {c : Cmd} {a : Word} {rest : List Event} (h : s.input = .command c a :: rest) :
    step s = runCommand c a (s.withInput rest) := by
  simp only [step, h, runEvent]

/-- A reset presented next binds its source. -/
theorem step_reset {s : State} {src : Source} {rest : List Event} (h : s.input = .reset src :: rest) :
    step s = runReset src (s.withInput rest) := by
  simp only [step, h, runEvent]

/-- With nothing presented there is no transition. -/
theorem step_idle {s : State} (h : s.input = []) : step s = .refused .noEvent := by
  simp only [step, h]

end Sys2Proof.Machine
end

