-- ==== Sys2Proof/Laws/PerInstr.lean ====
section
/-! SUPPORT. One lemma per command about its encoding (30_encoding.md R94): the word the encoder writes is a word of the
command's row. -/

namespace Sys2Proof.Laws

/-- The encoded word of a command is accepted by the row of the opcode map that carries the command's mnemonic. -/
def EncodedRow.Statement (i : Instr) : Prop :=
  ∃ r ∈ rows, r.mnemonic = i.mnemonic ∧ r.accepts (encodeCmd i) = true

theorem EncodedRow.rpos : EncodedRow.Statement .rpos :=
  ⟨⟨"RPOS", 0x1000, 0xFFFF⟩, by simp [rows], rfl, by
    show Row.accepts ⟨_, 0x1000, 0xFFFF⟩ (pack 0x1 0 0 0) = true
    decide⟩

theorem EncodedRow.ravail : EncodedRow.Statement .ravail :=
  ⟨⟨"RAVAIL", 0x2000, 0xFFFF⟩, by simp [rows], rfl, by
    show Row.accepts ⟨_, 0x2000, 0xFFFF⟩ (pack 0x2 0 0 0) = true
    decide⟩

theorem EncodedRow.rseek (a : Word) : EncodedRow.Statement (.rseek a) :=
  ⟨⟨"RSEEK", 0x3000, 0xFFFF⟩, by simp [rows], rfl, by
    show Row.accepts ⟨_, 0x3000, 0xFFFF⟩ (pack 0x3 0 0 0) = true
    decide⟩

theorem EncodedRow.rskip (a : Word) : EncodedRow.Statement (.rskip a) :=
  ⟨⟨"RSKIP", 0x4000, 0xFFFF⟩, by simp [rows], rfl, by
    show Row.accepts ⟨_, 0x4000, 0xFFFF⟩ (pack 0x4 0 0 0) = true
    decide⟩

theorem EncodedRow.ralign (a : Word) : EncodedRow.Statement (.ralign a) :=
  ⟨⟨"RALIGN", 0x5000, 0xFFFF⟩, by simp [rows], rfl, by
    show Row.accepts ⟨_, 0x5000, 0xFFFF⟩ (pack 0x5 0 0 0) = true
    decide⟩

theorem EncodedRow.readU (ts : TSize) (w : Nat) : EncodedRow.Statement (.readU ts w) :=
  ⟨⟨"READ.U", 0x6000, 0xFC80⟩, by simp [rows], rfl, by
    rw [Row.accepts, beq_iff_eq]
    refine (pack_and_FC80 _ _ _ _).trans ?_
    show pack 0x6 0 0 0 = 0x6000
    decide⟩

theorem EncodedRow.readS (ts : TSize) (w : Nat) : EncodedRow.Statement (.readS ts w) :=
  ⟨⟨"READ.S", 0x6400, 0xFC80⟩, by simp [rows], rfl, by
    rw [Row.accepts, beq_iff_eq]
    refine (pack_and_FC80 _ _ _ _).trans ?_
    show pack 0x6 1 0 0 = 0x6400
    decide⟩

theorem EncodedRow.readF32 (w : Nat) : EncodedRow.Statement (.readF32 w) :=
  ⟨⟨"READ.F32", 0x6A00, 0xFF80⟩, by simp [rows], rfl, by
    rw [Row.accepts, beq_iff_eq]
    refine (pack_and_FF80 _ _ _ _).trans ?_
    show pack 0x6 2 2 0 = 0x6A00
    decide⟩

theorem EncodedRow.readF64 (w : Nat) : EncodedRow.Statement (.readF64 w) :=
  ⟨⟨"READ.F64", 0x6B00, 0xFF80⟩, by simp [rows], rfl, by
    rw [Row.accepts, beq_iff_eq]
    refine (pack_and_FF80 _ _ _ _).trans ?_
    show pack 0x6 2 3 0 = 0x6B00
    decide⟩

theorem EncodedRow.peekU (ts : TSize) (w : Nat) : EncodedRow.Statement (.peekU ts w) :=
  ⟨⟨"PEEK.U", 0x7000, 0xFC80⟩, by simp [rows], rfl, by
    rw [Row.accepts, beq_iff_eq]
    refine (pack_and_FC80 _ _ _ _).trans ?_
    show pack 0x7 0 0 0 = 0x7000
    decide⟩

theorem EncodedRow.peekS (ts : TSize) (w : Nat) : EncodedRow.Statement (.peekS ts w) :=
  ⟨⟨"PEEK.S", 0x7400, 0xFC80⟩, by simp [rows], rfl, by
    rw [Row.accepts, beq_iff_eq]
    refine (pack_and_FC80 _ _ _ _).trans ?_
    show pack 0x7 1 0 0 = 0x7400
    decide⟩

theorem EncodedRow.peekF32 (w : Nat) : EncodedRow.Statement (.peekF32 w) :=
  ⟨⟨"PEEK.F32", 0x7A00, 0xFF80⟩, by simp [rows], rfl, by
    rw [Row.accepts, beq_iff_eq]
    refine (pack_and_FF80 _ _ _ _).trans ?_
    show pack 0x7 2 2 0 = 0x7A00
    decide⟩

theorem EncodedRow.peekF64 (w : Nat) : EncodedRow.Statement (.peekF64 w) :=
  ⟨⟨"PEEK.F64", 0x7B00, 0xFF80⟩, by simp [rows], rfl, by
    rw [Row.accepts, beq_iff_eq]
    refine (pack_and_FF80 _ _ _ _).trans ?_
    show pack 0x7 2 3 0 = 0x7B00
    decide⟩

theorem EncodedRow.wpos : EncodedRow.Statement .wpos :=
  ⟨⟨"WPOS", 0x8000, 0xFFFF⟩, by simp [rows], rfl, by
    show Row.accepts ⟨_, 0x8000, 0xFFFF⟩ (pack 0x8 0 0 0) = true
    decide⟩

theorem EncodedRow.writeU (ts : TSize) (w : Nat) (a : Word) : EncodedRow.Statement (.writeU ts w a) :=
  ⟨⟨"WRITE.U", 0x9000, 0xFC80⟩, by simp [rows], rfl, by
    rw [Row.accepts, beq_iff_eq]
    refine (pack_and_FC80 _ _ _ _).trans ?_
    show pack 0x9 0 0 0 = 0x9000
    decide⟩

theorem EncodedRow.writeS (ts : TSize) (w : Nat) (a : Word) : EncodedRow.Statement (.writeS ts w a) :=
  ⟨⟨"WRITE.S", 0x9400, 0xFC80⟩, by simp [rows], rfl, by
    rw [Row.accepts, beq_iff_eq]
    refine (pack_and_FC80 _ _ _ _).trans ?_
    show pack 0x9 1 0 0 = 0x9400
    decide⟩

theorem EncodedRow.writeF32 (w : Nat) (a : Word) : EncodedRow.Statement (.writeF32 w a) :=
  ⟨⟨"WRITE.F32", 0x9A00, 0xFF80⟩, by simp [rows], rfl, by
    rw [Row.accepts, beq_iff_eq]
    refine (pack_and_FF80 _ _ _ _).trans ?_
    show pack 0x9 2 2 0 = 0x9A00
    decide⟩

theorem EncodedRow.writeF64 (w : Nat) (a : Word) : EncodedRow.Statement (.writeF64 w a) :=
  ⟨⟨"WRITE.F64", 0x9B00, 0xFF80⟩, by simp [rows], rfl, by
    rw [Row.accepts, beq_iff_eq]
    refine (pack_and_FF80 _ _ _ _).trans ?_
    show pack 0x9 2 3 0 = 0x9B00
    decide⟩

theorem EncodedRow.wflush : EncodedRow.Statement .wflush :=
  ⟨⟨"WFLUSH", 0xA000, 0xFFFF⟩, by simp [rows], rfl, by
    show Row.accepts ⟨_, 0xA000, 0xFFFF⟩ (pack 0xa 0 0 0) = true
    decide⟩

theorem EncodedRow.wskip (a : Word) : EncodedRow.Statement (.wskip a) :=
  ⟨⟨"WSKIP", 0xB000, 0xFFFF⟩, by simp [rows], rfl, by
    show Row.accepts ⟨_, 0xB000, 0xFFFF⟩ (pack 0xb 0 0 0) = true
    decide⟩

theorem EncodedRow.walign (a : Word) : EncodedRow.Statement (.walign a) :=
  ⟨⟨"WALIGN", 0xC000, 0xFFFF⟩, by simp [rows], rfl, by
    show Row.accepts ⟨_, 0xC000, 0xFFFF⟩ (pack 0xc 0 0 0) = true
    decide⟩

theorem EncodedRow.mask (w : Nat) : EncodedRow.Statement (.mask w) :=
  ⟨⟨"MASK", 0xD000, 0xFF80⟩, by simp [rows], rfl, by
    rw [Row.accepts, beq_iff_eq]
    refine (pack_and_FF80 _ _ _ _).trans ?_
    show pack 0xd 0 0 0 = 0xD000
    decide⟩

theorem EncodedRow.sext (w : Nat) (a : Word) : EncodedRow.Statement (.sext w a) :=
  ⟨⟨"SEXT", 0xE000, 0xFF80⟩, by simp [rows], rfl, by
    rw [Row.accepts, beq_iff_eq]
    refine (pack_and_FF80 _ _ _ _).trans ?_
    show pack 0xe 0 0 0 = 0xE000
    decide⟩

end Sys2Proof.Laws
end

