-- ==== Sys2Proof/Tests/Slice0.lean ====
section
/-! SUPPORT. The model's own tests: refused ill-formed terms, words written out from the encoding tables, one-step runs whose
expected values are those of spec/95_test_vectors.md (named in each comment), and for every statement with hypotheses a
witness that meets them. -/

namespace Sys2Proof.Tests
open Sys2Proof Sys2Proof.Machine

/-! ## Helpers -/

/-- The next state of a result. -/
def nextOf : Result → Option State
  | .next t => some t
  | .fault _ => none
  | .refused _ => none

/-- The status and the result a command answers with. -/
def answer (r : Result) : Option (Status × Word) := (nextOf r).bind fun t => t.resp.map fun a => (a.status, a.result)

/-- The reader's registers after a command. -/
def readerAfter (r : Result) : Option Reader := (nextOf r).map State.rd

/-- The bytes of SNK with their counts, `W.buf` and `W.avail` after a command. -/
def writerAfter (r : Result) : Option (List (Byte × Nat) × Byte × Nat) :=
  (nextOf r).map fun t =>
    ((List.range t.wr.kpos).map (fun i => (t.wr.snk.read i, t.wr.snknb.read i)), t.wr.buf, t.wr.avail)

/-- The refusal of a result. -/
def refusal : Result → Option Refusal
  | .next _ => none
  | .fault _ => none
  | .refused r => some r

/-- The 12-byte source of 95_test_vectors.md. -/
def s12 : Source := Source.ofBytes [0x11, 0x22, 0x33, 0x44, 0x55, 0x66, 0x77, 0x88, 0x99, 0xAA, 0xBB, 0xCC]

/-- The machine right after reset over `s12`. -/
def fresh : State := State.resetOver s12

/-- `fresh` with the reader where `RSEEK p` leaves it (rows 15, 19, 20 of RC1). -/
def fresh.at' (buf : Word) (shift pos : Nat) : State := fresh.withReader { buf := buf, shift := shift, pos := pos }

/-- The writer of `WRITE.u8 0xFD, 3` from reset (fixture F5): three bits pending. -/
def pending : State := fresh.withWriter { buf := 0xA0, avail := 5, snk := [], kpos := 0, snknb := [] }

/-- One command presented to a state. -/
def given (c : Cmd) (a : Word) (s : State) : State := s.withInput [.command c a]

/-! ## The samples are at rest -/

theorem resetWriter_rest : resetWriter.Inv :=
  ⟨by decide, by decide, fun i _ => by simp [resetWriter], rfl, rfl, rfl, rfl, fun c hc => by cases hc⟩

theorem fresh_reader : fresh.rd = { buf := 0x1122334455667788, shift := 64, pos := 8 } := by decide

theorem fresh_rest : fresh.Inv :=
  ⟨by decide, ⟨by decide, by decide, by decide, by decide, by decide⟩, resetWriter_rest, fun r hr => by cases hr⟩

theorem reset_rest : State.reset.Inv :=
  ⟨by decide, ⟨by decide, by decide, by decide, by decide, by decide⟩, resetWriter_rest, fun r hr => by cases hr⟩

theorem pending_rest : pending.Inv :=
  ⟨fresh_rest.source, fresh_rest.reader,
    ⟨by decide, by decide, by decide, rfl, rfl, rfl, rfl, fun c hc => by cases hc⟩, fun r hr => by cases hr⟩

/-- Row 20 of RC1: the last byte of `s12` is left to read. -/
theorem lastByte_rest : (fresh.at' 0xCC 8 12).Inv :=
  ⟨fresh_rest.source, ⟨by decide, by decide, by decide, by decide, by decide⟩, resetWriter_rest, fun r hr => by cases hr⟩

/-- Row 17 of RC1: the reader is depleted. -/
theorem depleted_rest : (fresh.at' 0 0 12).Inv :=
  ⟨fresh_rest.source, ⟨by decide, by decide, by decide, by decide, by decide⟩, resetWriter_rest, fun r hr => by cases hr⟩

/-! ## WellFormed -/

/-- Every constructor with a width refuses 128. -/
theorem test_wf_refuses_128 :
    [Instr.readU .b64 128, .readS .b64 128, .readF32 128, .readF64 128, .peekU .b8 128, .peekS .b8 128, .peekF32 128,
      .peekF64 128, .writeU .b8 128 0, .writeS .b8 128 0, .writeF32 128 0, .writeF64 128 0, .mask 128, .sext 128 0].all
      (fun i => !i.wf) = true := by decide

/-- Every constructor with a width admits 127; the others have no operand to check. -/
theorem test_wf_admits :
    [Instr.readU .b64 127, .readS .b64 127, .readF32 127, .readF64 127, .peekU .b8 127, .peekS .b8 127, .peekF32 127,
      .peekF64 127, .writeU .b8 127 0, .writeS .b8 127 0, .writeF32 127 0, .writeF64 127 0, .mask 127, .sext 127 0,
      .rpos, .ravail, .rseek 1, .rskip 1, .ralign 1, .wpos, .wflush, .wskip 1, .walign 1].all Instr.wf = true := by decide

/-- A line whose width is above 127 is an assembler error (R101). -/
theorem test_asm_refuses_128 :
    assemble "MASK 128".toList = none ∧ assemble "SEXT 1, 128".toList = none ∧ assemble "WRITE.u8 1, 128".toList = none := by
  decide

/-! ## Decode: words written out field by field (op, cat, tsize, z, width) from 30_encoding.md R81 to R85 -/

theorem test_decode_rpos : decode 0b0001_00_00_0_0000000 9 = .instr .rpos := by decide
theorem test_decode_ravail : decode 0b0010_00_00_0_0000000 9 = .instr .ravail := by decide
theorem test_decode_rseek : decode 0b0011_00_00_0_0000000 9 = .instr (.rseek 9) := by decide
theorem test_decode_rskip : decode 0b0100_00_00_0_0000000 9 = .instr (.rskip 9) := by decide
theorem test_decode_ralign : decode 0b0101_00_00_0_0000000 9 = .instr (.ralign 9) := by decide
theorem test_decode_readU : decode 0b0110_00_01_0_0001100 9 = .instr (.readU .b16 12) := by decide
theorem test_decode_readS : decode 0b0110_01_10_0_0100000 9 = .instr (.readS .b32 32) := by decide
theorem test_decode_readF32 : decode 0b0110_10_10_0_0100000 9 = .instr (.readF32 32) := by decide
theorem test_decode_readF64 : decode 0b0110_10_11_0_1000000 9 = .instr (.readF64 64) := by decide
theorem test_decode_peekU : decode 0b0111_00_11_0_1000000 9 = .instr (.peekU .b64 64) := by decide
theorem test_decode_peekS : decode 0b0111_01_00_0_0000110 9 = .instr (.peekS .b8 6) := by decide
theorem test_decode_peekF32 : decode 0b0111_10_10_0_0011111 9 = .instr (.peekF32 31) := by decide
theorem test_decode_peekF64 : decode 0b0111_10_11_0_1111111 9 = .instr (.peekF64 127) := by decide
theorem test_decode_wpos : decode 0b1000_00_00_0_0000000 9 = .instr .wpos := by decide
theorem test_decode_writeU : decode 0b1001_00_00_0_0000011 0xFD = .instr (.writeU .b8 3 0xFD) := by decide
theorem test_decode_writeS : decode 0b1001_01_01_0_0001100 9 = .instr (.writeS .b16 12 9) := by decide
theorem test_decode_writeF32 : decode 0b1001_10_10_0_0100000 9 = .instr (.writeF32 32 9) := by decide
theorem test_decode_writeF64 : decode 0b1001_10_11_0_1000000 9 = .instr (.writeF64 64 9) := by decide
theorem test_decode_wflush : decode 0b1010_00_00_0_0000000 9 = .instr .wflush := by decide
theorem test_decode_wskip : decode 0b1011_00_00_0_0000000 9 = .instr (.wskip 9) := by decide
theorem test_decode_walign : decode 0b1100_00_00_0_0000000 9 = .instr (.walign 9) := by decide
theorem test_decode_mask : decode 0b1101_00_00_0_1000000 9 = .instr (.mask 64) := by decide
theorem test_decode_sext : decode 0b1110_00_00_0_0000110 0x3F = .instr (.sext 6 0x3F) := by decide

/-- IL1, IL2, IL8, IL15, IL17: reserved operations and `CMD[7]`. -/
theorem test_decode_reserved :
    decode 0x0000 0 = .illegal .reservedOp ∧ decode 0xFFFF 0 = .illegal .reservedOp ∧ decode 0x3080 0 = .illegal .zBit ∧
    decode 0xD080 0 = .illegal .zBit ∧ decode 0x6080 0 = .illegal .zBit := by decide

/-- IL5, IL6, IL7, IL9, IL11, IL12, IL14: unused fields. -/
theorem test_decode_unused :
    decode 0x1001 0 = .illegal .unusedField ∧ decode 0x1400 0 = .illegal .unusedField ∧
    decode 0x2100 0 = .illegal .unusedField ∧ decode 0xA001 0 = .illegal .unusedField ∧
    decode 0x8040 0 = .illegal .unusedField ∧ decode 0xD100 0 = .illegal .unusedField ∧
    decode 0xE800 0 = .illegal .unusedField := by decide

/-- IL18 to IL24: reserved category, float sizes. -/
theorem test_decode_category :
    decode 0x6C08 0 = .illegal .reservedCat ∧ decode 0x7C00 0 = .illegal .reservedCat ∧
    decode 0x9F40 0 = .illegal .reservedCat ∧ decode 0x6808 0 = .illegal .floatSize ∧
    decode 0x6908 0 = .illegal .floatSize ∧ decode 0x7820 0 = .illegal .floatSize ∧
    decode 0x9910 0 = .illegal .floatSize := by decide

/-- Words of R105 written by the encoder. -/
theorem test_encode :
    encode (.writeS .b16 12 0xFFFFFFFFFFFFFFFE) = (0x950C, 0xFFFFFFFFFFFFFFFE) ∧ encode (.peekS .b8 6) = (0x7406, 0) ∧
    encode (.readF32 32) = (0x6A20, 0) ∧ encode (.sext 6 0x3F) = (0xE006, 0x3F) := by decide

/-- A table word: `CMD` in bits 15..0, zeros above; and with an argument in bits 79..16. -/
theorem test_table_word :
    decodeTableWord 16 0x6340 = some (.readU .b64 64) ∧ decodeTableWord 16 0x3000 = some (.rseek 0) ∧
    decodeTableWord 80 0xD3000 = some (.rseek 13) ∧ decodeTableWord 16 0x6C08 = none := by decide

/-! ## One step: the reader (RC1, RD1, RD3 to RD6 of 95_test_vectors.md) -/

/-- RC1 row 1. -/
theorem test_rpos : answer (exec .rpos fresh) = some (.ok, 0) ∧ answer (exec .rpos (fresh.at' 0xCC 1 12)) = some (.ok, 95) := by
  decide

/-- RC1 rows 2 and 12. -/
theorem test_ravail : answer (exec .ravail fresh) = some (.ok, 0x60) ∧ answer (exec .ravail (fresh.at' 0 0 12)) = some (.ok, 0) := by
  decide

/-- RC1 row 15. -/
theorem test_rseek : readerAfter (exec (.rseek 13) fresh) = some ⟨0x2233445566778899, 59, 9⟩ := by decide

/-- RC1 row 18: one past the end. -/
theorem test_rseek_range :
    answer (exec (.rseek 97) fresh) = some (.range, 0) ∧ readerAfter (exec (.rseek 97) fresh) = some fresh.rd := by decide

/-- RC3 row 2, on `s12`: a skip of 75 from bit 3 passes over one whole byte (`rem = 14`). -/
theorem test_rskip : readerAfter (exec (.rskip 75) (fresh.at' 0x1122334455667788 61 8)) = some ⟨0xAABBCC, 18, 12⟩ := by decide

/-- RC1 rows 8 and 10. -/
theorem test_rskip_eos :
    readerAfter (exec (.rskip 43) (fresh.at' 0x1122334455667788 43 8)) = some ⟨0x99AABBCC, 32, 12⟩ ∧
    answer (exec (.rskip 33) (fresh.at' 0x99AABBCC 32 12)) = some (.eos, 0) := by decide

/-- RC1 rows 5 and 7. -/
theorem test_ralign :
    readerAfter (exec (.ralign 8) (fresh.at' 0x1122334455667788 51 8)) = some ⟨0x1122334455667788, 48, 8⟩ ∧
    readerAfter (exec (.ralign 7) (fresh.at' 0x1122334455667788 48 8)) = some ⟨0x1122334455667788, 43, 8⟩ := by decide

/-- RC1 rows 21 and 22. -/
theorem test_ralign_raises :
    answer (exec (.ralign 0) (fresh.at' 0xCC 8 12)) = some (.contract, 0) ∧
    answer (exec (.ralign 64) (fresh.at' 0xCC 8 12)) = some (.eos, 0) := by decide

/-- RD6 row 2: 64 bits from bit 1 on, across the refill. -/
theorem test_readU :
    answer (exec (.readU .b64 64) (fresh.at' 0x1122334455667788 63 8)) = some (.ok, 0x22446688AACCEF11) ∧
    readerAfter (exec (.readU .b64 64) (fresh.at' 0x1122334455667788 63 8)) = some ⟨0x99AABBCC, 31, 12⟩ := by decide

/-- RD4 rows 6 to 8: the width check comes before the stream check, and width 0 reads nothing. -/
theorem test_readU_priority :
    answer (exec (.readU .b8 9) (fresh.at' 0 0 12)) = some (.contract, 0) ∧
    answer (exec (.readU .b8 1) (fresh.at' 0 0 12)) = some (.eos, 0) ∧
    answer (exec (.readU .b8 0) (fresh.at' 0 0 12)) = some (.ok, 0) := by decide

/-- RD3 row 4. -/
theorem test_readS :
    answer (exec (.readS .b32 32) (fresh.at' 0x99AABBCC 32 12)) = some (.ok, 0xFFFFFFFF99AABBCC) ∧
    readerAfter (exec (.readS .b32 32) (fresh.at' 0x99AABBCC 32 12)) = some ⟨0, 0, 12⟩ := by decide

/-- RD1 row 10: top bit 0, no extension; case B refills. -/
theorem test_readS_positive :
    answer (exec (.readS .b16 12) (fresh.at' 0x1122334455667788 12 8)) = some (.ok, 0x788) ∧
    readerAfter (exec (.readS .b16 12) (fresh.at' 0x1122334455667788 12 8)) = some ⟨0x99AABBCC, 32, 12⟩ := by decide

/-- RD5 rows 1 and 3, on `s12`. -/
theorem test_readF32 :
    answer (exec (.readF32 32) fresh) = some (.ok, 0x11223344) ∧ answer (exec (.readF32 31) fresh) = some (.contract, 0) := by
  decide

/-- RD5 rows 4 and 5, on `s12`. -/
theorem test_readF64 :
    answer (exec (.readF64 64) fresh) = some (.ok, 0x1122334455667788) ∧
    answer (exec (.readF64 32) fresh) = some (.contract, 0) := by decide

/-- PR1 row 6: a peek across the refill, and nothing moves. -/
theorem test_peekU :
    answer (exec (.peekU .b64 64) (fresh.at' 0x1122334455667788 49 8)) = some (.ok, 0x19A22AB33BC44CD5) ∧
    readerAfter (exec (.peekU .b64 64) (fresh.at' 0x1122334455667788 49 8)) = some ⟨0x1122334455667788, 49, 8⟩ := by decide

/-- RD3 row 2. -/
theorem test_peekU_eos : answer (exec (.peekU .b64 33) (fresh.at' 0x99AABBCC 32 12)) = some (.eos, 0) := by decide

/-- RD1 row 5, and a field whose top bit is 1. -/
theorem test_peekS :
    answer (exec (.peekS .b8 4) (fresh.at' 0x1122334455667788 60 8)) = some (.ok, 1) ∧
    answer (exec (.peekS .b8 4) (fresh.at' 0xCC 4 12)) = some (.ok, 0xFFFFFFFFFFFFFFFC) := by decide

/-- RD5 row 2, on `s12`. -/
theorem test_peekF32 :
    answer (exec (.peekF32 32) fresh) = some (.ok, 0x11223344) ∧ readerAfter (exec (.peekF32 32) fresh) = some fresh.rd := by
  decide

theorem test_peekF64 :
    answer (exec (.peekF64 64) fresh) = some (.ok, 0x1122334455667788) ∧
    answer (exec (.peekF64 64) (fresh.at' 0xCC 8 12)) = some (.eos, 0) := by decide

/-! ## One step: the writer (F5, F6, WR rows) -/

/-- R161: 3 after `WRITE.u8 0xFD, 3`. -/
theorem test_wpos : answer (exec .wpos fresh) = some (.ok, 0) ∧ answer (exec .wpos pending) = some (.ok, 3) := by decide

/-- F5 row 1; the example `WRITE.u16 0xABC, 12` of R162. -/
theorem test_writeU :
    writerAfter (exec (.writeU .b8 3 0xFD) fresh) = some ([], 0xA0, 5) ∧
    writerAfter (exec (.writeU .b16 12 0xABC) fresh) = some ([(0xAB, 8)], 0xC0, 4) := by decide

/-- R162: width 0 writes nothing; a width above the type is CONTRACT. -/
theorem test_writeU_edges :
    writerAfter (exec (.writeU .b8 0 0xFF) pending) = some ([], 0xA0, 5) ∧
    answer (exec (.writeU .b8 9 0) pending) = some (.contract, 0) := by decide

/-- R105's `WRITE.i16 -2, 12` after three bits `101`: `101 1 1111 | 1111 110` and one slot free. -/
theorem test_writeS :
    writerAfter (exec (.writeS .b16 12 0xFFFFFFFFFFFFFFFE) pending) = some ([(0xBF, 8)], 0xFC, 1) := by decide

theorem test_writeF32 :
    writerAfter (exec (.writeF32 32 0x3F800000) fresh) = some ([(0x3F, 8), (0x80, 8), (0, 8), (0, 8)], 0, 8) ∧
    answer (exec (.writeF32 31 0) fresh) = some (.contract, 0) := by decide

theorem test_writeF64 :
    writerAfter (exec (.writeF64 64 0x3FF0000000000000) pending)
      = some ([(0xA7, 8), (0xFE, 8), (0, 8), (0, 8), (0, 8), (0, 8), (0, 8), (0, 8)], 0, 5) := by decide

/-- F5 row 2; nothing when no byte is partly filled. -/
theorem test_wflush :
    writerAfter (exec .wflush pending) = some ([(0xA0, 3)], 0, 8) ∧ writerAfter (exec .wflush fresh) = some ([], 0, 8) := by
  decide

/-- R165: `ARG = 13` at `W.avail = 5` with `W.buf = 0xA0`; `ARG = 16` at `W.avail = 8`. -/
theorem test_wskip :
    writerAfter (exec (.wskip 13) pending) = some ([(0xA0, 8), (0, 8)], 0, 8) ∧
    writerAfter (exec (.wskip 16) fresh) = some ([(0, 8), (0, 8)], 0, 8) := by decide

/-- R165: a very large `ARG` is no loop. -/
theorem test_wskip_large : (nextOf (exec (.wskip 0xFFFFFFFFFFFFFFFF) fresh)).map (fun t => t.wr.kpos) = some (2 ^ 61 - 1) := by
  decide

/-- F6 row 2: `WALIGN 7` at bit 3 of `pending` skips four. -/
theorem test_walign :
    writerAfter (exec (.walign 7) pending) = some ([], 0xA0, 1) ∧ writerAfter (exec (.walign 8) pending) = some ([(0xA0, 8)], 0, 8) := by
  decide

theorem test_walign_zero : answer (exec (.walign 0) pending) = some (.contract, 0) := by decide

/-! ## One step: the helpers (HM and HS rows) -/

/-- HM1, HM3, HM8, HM9. -/
theorem test_mask :
    answer (exec (.mask 0) fresh) = some (.ok, 0) ∧ answer (exec (.mask 5) fresh) = some (.ok, 0x1F) ∧
    answer (exec (.mask 64) fresh) = some (.ok, 0xFFFFFFFFFFFFFFFF) ∧ answer (exec (.mask 65) fresh) = some (.contract, 0) := by
  decide

/-- HS1, HS9, HS12, HS16. -/
theorem test_sext :
    answer (exec (.sext 0 0xFFFFFFFFFFFFFFFF) fresh) = some (.ok, 0) ∧
    answer (exec (.sext 6 0x20) fresh) = some (.ok, 0xFFFFFFFFFFFFFFE0) ∧
    answer (exec (.sext 8 0x1FE) fresh) = some (.ok, 0xFFFFFFFFFFFFFFFE) ∧
    answer (exec (.sext 63 0x4000000000000000) fresh) = some (.ok, 0xC000000000000000) := by decide

/-- HS17, HS19. -/
theorem test_sext_edges :
    answer (exec (.sext 64 0x8000000000000000) fresh) = some (.ok, 0x8000000000000000) ∧
    answer (exec (.sext 65 1) fresh) = some (.contract, 0) := by decide

/-! ## step -/

/-- A transaction presented next is decoded and run, and leaves the input. -/
theorem test_step_command :
    answer (step (given 0x6008 0 fresh)) = some (.ok, 0x11) ∧ (nextOf (step (given 0x6008 0 fresh))).map State.input = some [] := by
  decide

/-- IL18: an illegal word. -/
theorem test_step_illegal : answer (step (given 0x6C08 0 fresh)) = some (.illegal, 0) := by decide

theorem test_step_fetched : answer (step (State.reset.withFetchWord 16 0xD040)) = some (.ok, 0xFFFFFFFFFFFFFFFF) := by decide

theorem test_step_idle : refusal (step State.reset) = some .noEvent := by decide

/-- A reset binds its source; a store with an entry beyond the length is no source. -/
theorem test_step_reset :
    readerAfter (step (State.reset.withInput [.reset s12])) = some fresh.rd ∧
    refusal (step (State.reset.withInput [.reset { mem := [(1, 1)], len := 1 }])) = some .sourceBinding := by decide

/-! ## Host macros -/

/-- F4: the first and the fourth decode. -/
theorem test_ueRead :
    (ueRead .b8 (State.resetOver (Source.ofBytes [0xA6, 0x40]))).2 = .yield 0 ∧
    (ueRead .b8 (State.resetOver (Source.ofBytes [0x20]))).2 = .yield 3 := by decide

/-- R183: `UE.WR.u8 254` and the refused 255. -/
theorem test_ueWrite :
    ((ueWrite .b8 254 fresh).1.wr.snk.read 0, (ueWrite .b8 254 fresh).1.wr.buf) = (0x01, 0xFE) ∧
    (ueWrite .b8 255 fresh).2 = .fail .contract := by decide

/-- R185's example. -/
theorem test_szRead : (szRead (State.resetOver (Source.ofBytes [0x48, 0x69, 0x00, 0x21]))).2 = .yield [0x48, 0x69] := by decide

theorem test_szWrite : (szWrite [0x48, 0x69] fresh).1.wr.bits = byteBits 0x48 ++ byteBits 0x69 ++ byteBits 0 := by decide

/-! ## Witnesses: for each statement with hypotheses, values that meet them, each clause at a boundary

`witness_<Name>` belongs to `Obligations.<Name>`. -/

/-- A result is a next state with this answer. -/
def answers (r : Result) (a : Status) : Prop := ∃ t x, r = .next t ∧ t.resp = some x ∧ x.status = a

theorem witness_DecodeOfEncodeIsTheCommand : (Instr.writeU .b64 127 0xFF).wf = true ∧ Instr.wflush.wf = true := by decide

theorem witness_DecodedWordIsTheOnlyEncoding : decode 0x977F 5 = .instr (.writeS .b64 127 5) := by decide

theorem witness_RowsAcceptExactlyTheirCommands :
    decode 0x637F 0 = .instr (.readU .b64 127) ∧ decode 0x6980 0 = .illegal .zBit := by decide

/-- A word for each test of the decoder, and one that passes them all. -/
theorem witness_DecoderTestsInOrder :
    [(0x0FFF : Cmd), 0xF000, 0x1080, 0x1001, 0xD100, 0x6C00, 0x697F].map (fun c => decode c 0)
      = [.illegal .reservedOp, .illegal .reservedOp, .illegal .zBit, .illegal .unusedField, .illegal .unusedField,
        .illegal .reservedCat, .illegal .floatSize] := by decide

theorem witness_StepRunsTheDecodedCommand :
    (given 0xC000 7 fresh).input = .command 0xC000 7 :: [] ∧ decode 0xC000 7 = .instr (.walign 7) ∧
    decodeTableWord 16 0xE040 = some (.sext 64 0) := by decide

theorem witness_IllegalWordAnswersIllegal :
    decode 0xFFFF 0 = .illegal .reservedOp ∧ answer (runCommand 0xFFFF 0 fresh) = some (.illegal, 0) := by decide

/-- The longest source the platform may bind, and the empty one. -/
theorem witness_ResetEventRebuildsEverything :
    (fresh.withInput [.reset { mem := [], len := 2 ^ 61 - 1 }]).input = [.reset { mem := [], len := 2 ^ 61 - 1 }] ∧
    Source.legal { mem := [], len := 2 ^ 61 - 1 } = true ∧ Source.legal { mem := [], len := 2 ^ 61 } = false := by decide

theorem witness_ResetValues : (Source.ofBytes []).len = 0 := by decide

theorem witness_ResetIsAtRest : s12.legal = true ∧ Source.legal { mem := [], len := 0 } = true := by decide

theorem witness_StepKeepsMachineAtRest :
    (given 0x6340 0 fresh).Inv ∧ ∃ t, step (given 0x6340 0 fresh) = .next t :=
  ⟨⟨fresh_rest.source, fresh_rest.reader, fresh_rest.writer, fresh_rest.answer⟩, _, rfl⟩

theorem witness_RaisingWritesNoStateElement :
    answers (runCommand 0x3000 97 fresh) .range ∧ answers (runCommand 0x6C08 0 fresh) .illegal :=
  ⟨⟨_, _, rfl, rfl, rfl⟩, ⟨_, _, rfl, rfl, rfl⟩⟩

theorem witness_ErrorLeavesNoTrace :
    answers (runCommand 0x5000 0 fresh) .contract ∧ answers (runCommand 0x6008 0 fresh) .ok :=
  ⟨⟨_, _, rfl, rfl, rfl⟩, ⟨_, _, rfl, rfl, rfl⟩⟩

/-- One command for each status a clause speaks of. -/
theorem witness_StatusesEachCommandCanAnswer :
    answers (exec (.rskip 97) fresh) .eos ∧ answers (exec (.rseek 97) fresh) .range ∧
    answers (exec (.walign 0) fresh) .contract ∧ answers (exec .wflush fresh) .ok :=
  ⟨⟨_, _, rfl, rfl, rfl⟩, ⟨_, _, rfl, rfl, rfl⟩, ⟨_, _, rfl, rfl, rfl⟩, ⟨_, _, rfl, rfl, rfl⟩⟩

/-- Each clause on both sides of its bound, and a command that never raises CONTRACT. -/
theorem witness_ContractExactlyOnOperandRange :
    answer (exec (.readU .b8 8) fresh) = some (.ok, 0x11) ∧ answer (exec (.readU .b8 9) fresh) = some (.contract, 0) ∧
    answer (exec (.peekF32 32) fresh) = some (.ok, 0x11223344) ∧ answer (exec (.peekF32 33) fresh) = some (.contract, 0) ∧
    answer (exec (.writeF64 64 0) fresh) = some (.ok, 0) ∧ answer (exec (.writeF64 63 0) fresh) = some (.contract, 0) ∧
    answer (exec (.sext 64 0) fresh) = some (.ok, 0) ∧ answer (exec (.mask 65) fresh) = some (.contract, 0) ∧
    answer (exec (.ralign 1) fresh) = some (.ok, 0) ∧ answer (exec (.walign 0) fresh) = some (.contract, 0) ∧
    answer (exec (.wskip 0) fresh) = some (.ok, 0) := by decide

/-- Each clause on both sides of its bound. -/
theorem witness_EndOfStreamExactlyBeyondAvailable :
    answer (exec (readOf (.unsigned .b16) 9) (fresh.at' 0xCC 8 12)) = some (.eos, 0) ∧
    answer (exec (readOf (.unsigned .b16) 8) (fresh.at' 0xCC 8 12)) = some (.ok, 0xCC) ∧
    answer (exec (peekOf .f64 64) (fresh.at' 0xCC 8 12)) = some (.eos, 0) ∧
    answer (exec (.rskip 96) fresh) = some (.ok, 0) ∧ answer (exec (.rskip 97) fresh) = some (.eos, 0) ∧
    answer (exec (.ralign 96) (fresh.at' 0xCC 8 12)) = some (.ok, 0) ∧
    answer (exec (.ralign 97) (fresh.at' 0xCC 8 12)) = some (.eos, 0) := by decide

theorem witness_RangeExactlyBeyondStream :
    answer (exec (.rseek 96) fresh) = some (.ok, 0) ∧ answers (exec (.rseek 97) fresh) .range :=
  ⟨by decide, _, _, rfl, rfl, rfl⟩

/-- Two states with the same reader and other writers, and two with the same writer and other readers. -/
theorem witness_UnitsShareNoState :
    (Instr.readU .b8 8).isReader = true ∧ fresh.source = pending.source ∧ fresh.rd = pending.rd ∧
    (Instr.writeU .b8 8 0).isWriter = true ∧ fresh.wr = (fresh.at' 0 0 12).wr ∧
    (Instr.mask 5).isReader = false ∧ (Instr.mask 5).isWriter = false ∧
    (∃ t t', exec (.readU .b8 8) fresh = .next t ∧ exec (.readU .b8 8) pending = .next t') ∧
    (∃ t t', exec (.writeU .b8 8 0) fresh = .next t ∧ exec (.writeU .b8 8 0) (fresh.at' 0 0 12) = .next t') ∧
    ∃ t t', exec (.mask 5) fresh = .next t ∧ exec (.mask 5) pending = .next t' :=
  ⟨rfl, rfl, rfl, rfl, rfl, rfl, rfl, ⟨_, _, rfl, rfl⟩, ⟨_, _, rfl, rfl⟩, ⟨_, _, rfl, rfl⟩⟩

theorem witness_QueriesWriteNothing :
    answers (exec (peekOf .f64 64) fresh) .ok ∧ answers (exec .rpos fresh) .ok ∧ answers (exec .ravail fresh) .ok ∧
    answers (exec .wpos fresh) .ok ∧ answers (exec (.mask 65) fresh) .contract ∧ answers (exec (.sext 64 1) fresh) .ok :=
  ⟨⟨_, _, rfl, rfl, rfl⟩, ⟨_, _, rfl, rfl, rfl⟩, ⟨_, _, rfl, rfl, rfl⟩, ⟨_, _, rfl, rfl, rfl⟩, ⟨_, _, rfl, rfl, rfl⟩,
    ⟨_, _, rfl, rfl, rfl⟩⟩

/-- Both ends of the range (R110's own values). -/
theorem witness_MaskIsAllOnesBelow : mask 0 = 0 ∧ mask 64 = 0xFFFFFFFFFFFFFFFF ∧ (64 : Nat) ≤ 64 ∧ (63 : Nat) < 64 := by decide

/-- Width 0, width 1 and the full width; widening from 8 to 64 bits. -/
theorem witness_SignExtensionIsTwosComplement :
    (0 : Nat) ≤ 8 ∧ (0 : BitVec 8).toNat < 2 ^ 0 ∧ (1 : Nat) ≤ 8 ∧ (1 : BitVec 8).toNat < 2 ^ 1 ∧
    (sextN 8 1 1).toInt = -1 ∧ (8 : Nat) ≤ 8 ∧ (0xFE : BitVec 8).toNat < 2 ^ 8 ∧ (sextN 8 8 0xFE).toInt = -2 ∧
    (8 : Nat) ≤ 64 := by decide

/-- A full field, and two buffers that differ above `s` only. -/
theorem witness_ExtractIgnoresBitsAbove :
    (64 : Nat) ≤ 64 ∧ (8 : Nat) ≤ 8 ∧ (∀ i, i < 8 → (0x1FF : Word).getLsbD i = (0xFF : Word).getLsbD i) ∧
    (0x1FF : Word) ≠ 0xFF := by decide

theorem witness_MaskAnswersTheMask : (64 : Nat) ≤ 64 ∧ answer (exec (.mask 64) fresh) = some (.ok, 0xFFFFFFFFFFFFFFFF) := by
  decide

theorem witness_SextAnswersTheSignedField : (64 : Nat) ≤ 64 ∧ answer (exec (.sext 0 7) fresh) = some (.ok, 0) := by decide

/-- The last byte and the first of a stretch. -/
theorem witness_MemReadIsBigEndian : (7 : Nat) < 8 ∧ (0 : Nat) < 8 ∧ memRead s12 4 8 = 0x5566778899AABBCC := by decide

theorem witness_RposAndRavailAnswerTheCounts : fresh.Inv ∧ fresh.rpos = 0 ∧ fresh.ravail = 96 := ⟨fresh_rest, by decide, by decide⟩

/-- Inside the buffer, exactly the buffer, to the end of the stream. -/
theorem witness_RskipAdvancesTheCursor :
    fresh.Inv ∧ (63 : Word).toNat ≤ fresh.ravail ∧ (64 : Word).toNat ≤ fresh.ravail ∧ (96 : Word).toNat ≤ fresh.ravail :=
  ⟨fresh_rest, by decide, by decide, by decide⟩

theorem witness_RseekSetsTheCursor :
    (96 : Word).toNat ≤ 8 * fresh.source.len ∧ (0 : Word).toNat ≤ 8 * fresh.source.len := by decide

/-- A distance of 0, and one to the very end. -/
theorem witness_RalignReachesTheNextMultiple :
    (fresh.at' 0xCC 8 12).Inv ∧ (8 : Word) ≠ 0 ∧ (96 : Word) ≠ 0 ∧
    ((96 : Word).toNat - (fresh.at' 0xCC 8 12).rpos % (96 : Word).toNat) % (96 : Word).toNat = (fresh.at' 0xCC 8 12).ravail ∧
    ((8 : Word).toNat - (fresh.at' 0xCC 8 12).rpos % (8 : Word).toNat) % (8 : Word).toNat = 0 :=
  ⟨lastByte_rest, by decide, by decide, by decide, by decide⟩

/-- The full width, the whole of what is left, and width 0 of a depleted reader. -/
theorem witness_ReadUnsignedAndFloatReturnTheField :
    fresh.Inv ∧ 64 ≤ fresh.ravail ∧ widthOk (.unsigned .b64) 64 = true ∧ (fresh.at' 0xCC 8 12).Inv ∧
    8 ≤ (fresh.at' 0xCC 8 12).ravail ∧ widthOk (.unsigned .b8) 8 = true ∧ (fresh.at' 0 0 12).Inv ∧
    0 ≤ (fresh.at' 0 0 12).ravail :=
  ⟨fresh_rest, by decide, by decide, lastByte_rest, by decide, by decide, depleted_rest, by decide⟩

theorem witness_ReadSignedReturnsTheSignedField :
    (fresh.at' 0xCC 8 12).Inv ∧ widthOk (.signed .b8) 8 = true ∧ 8 ≤ (fresh.at' 0xCC 8 12).ravail ∧
    (fresh.at' 0xCC 8 12).source.bit (fresh.at' 0xCC 8 12).rpos = true ∧ fresh.source.bit fresh.rpos = false ∧
    widthOk (.signed .b8) 0 = true :=
  ⟨lastByte_rest, by decide, by decide, by decide, by decide, by decide⟩

/-- The three cases: inside the buffer, exactly the buffer, and a read that empties the stream. -/
theorem witness_ReadLeavesTheLoopsRegisters :
    fresh.Inv ∧ widthOk (.unsigned .b64) 63 = true ∧ 63 < fresh.rd.shift ∧ widthOk (.unsigned .b64) 64 = true ∧
    64 - fresh.rd.shift < 8 * min 8 (fresh.source.len - fresh.rd.pos) ∧
    (∃ t, exec (readOf (.unsigned .b64) 64) fresh = .next t) ∧ (fresh.at' 0xCC 8 12).Inv ∧
    ¬ 8 - (fresh.at' 0xCC 8 12).rd.shift < 8 * min 8 ((fresh.at' 0xCC 8 12).source.len - (fresh.at' 0xCC 8 12).rd.pos) :=
  ⟨fresh_rest, by decide, by decide, by decide, by decide, ⟨_, rfl⟩, lastByte_rest, by decide⟩

theorem witness_PeekUnsignedAndFloatReturnTheField :
    fresh.Inv ∧ 64 ≤ fresh.ravail ∧ widthOk (.unsigned .b64) 64 = true ∧ (fresh.at' 0 0 12).Inv ∧
    0 ≤ (fresh.at' 0 0 12).ravail ∧ widthOk (.unsigned .b8) 0 = true :=
  ⟨fresh_rest, by decide, by decide, depleted_rest, by decide, by decide⟩

theorem witness_PeekSignedReturnsTheSignedField :
    (fresh.at' 0xCC 8 12).Inv ∧ widthOk (.signed .b64) 8 = true ∧ 8 ≤ (fresh.at' 0xCC 8 12).ravail :=
  ⟨lastByte_rest, by decide, by decide⟩

theorem witness_PeekThenReadAgree :
    ∃ t u, exec (peekOf (.signed .b8) 4) fresh = .next t ∧ exec (readOf (.signed .b8) 4) t = .next u :=
  ⟨_, _, rfl, rfl⟩

/-- A command that succeeds, one that fails, and one at the end of the stream. -/
theorem witness_ReaderIsOneBitCursor :
    fresh.Inv ∧ absReader fresh.source fresh.rpos (.readU .b64 16) = some (.okay 0x1122, 16) ∧
    absReader fresh.source fresh.rpos (.rseek 97) = some (.error .range, 0) ∧
    absReader fresh.source fresh.rpos (.rskip 96) = some (.okay 0, 96) :=
  ⟨fresh_rest, by decide, by decide, by decide⟩

/-- RC1 rows 4 and 15: the triples that `RSKIP 13` and `RSEEK 13` leave, two for one bit cursor. -/
theorem witness_BufferTripleIsUnobservable :
    (fresh.at' 0x1122334455667788 51 8).Inv ∧ (fresh.at' 0x2233445566778899 59 9).Inv ∧
    (fresh.at' 0x1122334455667788 51 8).rpos = (fresh.at' 0x2233445566778899 59 9).rpos ∧
    (Instr.readU .b64 60).isReader = true ∧
    ∃ t t', exec (.readU .b64 60) (fresh.at' 0x1122334455667788 51 8) = .next t ∧
      exec (.readU .b64 60) (fresh.at' 0x2233445566778899 59 9) = .next t' :=
  ⟨⟨fresh_rest.source, ⟨by decide, by decide, by decide, by decide, by decide⟩, resetWriter_rest, fun r hr => by cases hr⟩,
    ⟨fresh_rest.source, ⟨by decide, by decide, by decide, by decide, by decide⟩, resetWriter_rest, fun r hr => by cases hr⟩,
    by decide, rfl, _, _, rfl, rfl⟩

theorem witness_OnlySeekMovesTheCursorBack :
    fresh.Inv ∧ (∃ t, exec (.rskip 96) fresh = .next t) ∧ ∀ a, Instr.rskip 96 ≠ .rseek a :=
  ⟨fresh_rest, ⟨_, rfl⟩, fun _ => by simp⟩

/-- The full width across eight bytes, and width 0. -/
theorem witness_WriteAppendsTheLowBits :
    pending.Inv ∧ widthOk (.unsigned .b64) 64 = true ∧ widthOk .f32 32 = true ∧ widthOk (.signed .b8) 0 = true :=
  ⟨pending_rest, by decide, by decide, by decide⟩

/-- A partly filled byte, and none. -/
theorem witness_WflushForcesOutAPartialByte : pending.Inv ∧ pending.wr.avail < 8 ∧ fresh.Inv ∧ fresh.wr.avail = 8 :=
  ⟨pending_rest, by decide, fresh_rest, by decide⟩

theorem witness_WskipAppendsZeros : pending.Inv ∧ fresh.Inv := ⟨pending_rest, fresh_rest⟩

theorem witness_WalignReachesTheNextMultiple : pending.Inv ∧ (8 : Word) ≠ 0 ∧ (1 : Word) ≠ 0 :=
  ⟨pending_rest, by decide, by decide⟩

theorem witness_WriterIsItsBitString :
    pending.Inv ∧ absWriter pending.wr.bits .wflush = some (.okay 0, [true, false, true, false, false, false, false, false]) ∧
    absWriter pending.wr.bits (.walign 0) = some (.error .contract, [true, false, true]) :=
  ⟨pending_rest, by decide, by decide⟩

/-- Two writers at rest that differ in the side band only: a byte flushed, and the same byte aligned. -/
theorem witness_BitStringDeterminesTheWriter :
    (emit 3 pending.wr).Inv ∧ (emit 8 pending.wr).Inv ∧ (emit 3 pending.wr).bits = (emit 8 pending.wr).bits ∧
    (emit 3 pending.wr).snknb ≠ (emit 8 pending.wr).snknb :=
  ⟨(emit_spec 3 _ pending_rest.writer.window (by decide) (by decide)).1,
    (emit_spec 8 _ pending_rest.writer.window (by decide) (by decide)).1, by decide, by decide⟩

/-- A byte in the sink before a command that puts another. -/
theorem witness_SinkIsAppendOnly :
    (fresh.withWriter (emit 3 pending.wr)).Inv ∧ (emit 3 pending.wr).byte 0 = some 0xA0 ∧
    ∃ t, exec (.wskip 8) (fresh.withWriter (emit 3 pending.wr)) = .next t :=
  ⟨⟨fresh_rest.source, fresh_rest.reader, (emit_spec 3 _ pending_rest.writer.window (by decide) (by decide)).1,
    fun r hr => by cases hr⟩, by decide, _, rfl⟩

/-- A flush that puts a byte, and a skip that does. -/
theorem witness_SideBandRecordsTheCounts :
    pending.Inv ∧ (∃ t, exec .wflush pending = .next t ∧ 0 < t.wr.kpos) ∧ ∃ t, exec (.wskip 5) pending = .next t ∧ 0 < t.wr.kpos :=
  ⟨pending_rest, ⟨_, rfl, by decide⟩, ⟨_, rfl, by decide⟩⟩

theorem witness_FlushIsAlignEightAndIdempotent :
    pending.Inv ∧ ∃ t u v, exec .wflush pending = .next t ∧ exec (.walign 8) pending = .next u ∧ exec .wflush t = .next v :=
  ⟨pending_rest, _, _, _, rfl, rfl, rfl⟩

theorem witness_AlignTwiceIsAlignOnce :
    fresh.Inv ∧ pending.Inv ∧
    (∃ t, exec (.ralign 7) fresh = .next t ∧ t.resp = some { status := .ok, result := 0 }) ∧
    ∃ t, exec (.walign 7) pending = .next t ∧ t.resp = some { status := .ok, result := 0 } :=
  ⟨fresh_rest, pending_rest, ⟨_, rfl, rfl⟩, ⟨_, rfl, rfl⟩⟩

/-- Fields of every category, the widest and the empty one among them, and no field at all. -/
theorem witness_WriteFlushReadRoundTrip :
    (∀ f ∈ [PackedField.mk (.unsigned .b64) 64 5, ⟨.signed .b8, 0, 1⟩, ⟨.f32, 32, 7⟩], widthOk f.vtype f.width = true) ∧
    ∀ f ∈ ([] : List PackedField), widthOk f.vtype f.width = true :=
  ⟨by decide, fun f hf => by cases hf⟩

/-- Zero, and the largest value that has a code. -/
theorem witness_ExpGolombWritesTheCode :
    fresh.Inv ∧ 0 + 2 ≤ 2 ^ vtypeBits (.unsigned .b8) ∧ 254 + 2 ≤ 2 ^ vtypeBits (.unsigned .b8) ∧ Nat.log2 (254 + 1) = 7 :=
  ⟨fresh_rest, by decide, by decide, by decide⟩

/-- `s12` starts with three zeros and a one. -/
theorem witness_ExpGolombReadsTheCode :
    fresh.Inv ∧ 3 < vtypeBits (.unsigned .b8) ∧ 2 * 3 + 1 ≤ fresh.ravail ∧
    (∀ j, j < 3 → fresh.source.bit (fresh.rpos + j) = false) ∧ fresh.source.bit (fresh.rpos + 3) = true :=
  ⟨fresh_rest, by decide, by decide, by decide, by decide⟩

theorem zeros_rest : (State.resetOver (Source.ofBytes [0x00, 0x80])).Inv :=
  ⟨by decide, ⟨by decide, by decide, by decide, by decide, by decide⟩, resetWriter_rest, fun r hr => by cases hr⟩

/-- Eight zeros and a one, for the 8-bit type; a depleted stream. -/
theorem witness_ExpGolombReadFailuresConsumeThePrefix :
    (State.resetOver (Source.ofBytes [0x00, 0x80])).Inv ∧ vtypeBits (.unsigned .b8) ≤ 8 ∧
    8 + 1 ≤ (State.resetOver (Source.ofBytes [0x00, 0x80])).ravail ∧
    (∀ j, j < 8 → (Source.ofBytes [0x00, 0x80]).bit (0 + j) = false) ∧ (Source.ofBytes [0x00, 0x80]).bit (0 + 8) = true ∧
    (fresh.at' 0 0 12).Inv ∧ ∀ j, j < (fresh.at' 0 0 12).ravail → (fresh.at' 0 0 12).source.bit ((fresh.at' 0 0 12).rpos + j) = false :=
  ⟨zeros_rest, by decide, by decide, by decide, by decide, depleted_rest, by decide⟩

theorem witness_ExpGolombRoundTrip :
    0 + 2 ≤ 2 ^ vtypeBits (.unsigned .b8) ∧ 2 ^ 64 - 2 + 2 ≤ 2 ^ vtypeBits (.unsigned .b64) := by decide

theorem witness_StringRoundTrip : ∀ b ∈ ([0x48, 0x69, 0xFF] : List Byte), b ≠ 0 := by decide

end Sys2Proof.Tests
end

