-- ==== Sys2Proof/Proofs/Units.lean ====
section
/-! What a command can read and write, unit by unit (00_scope.md R2, 20_memory.md R50): each command answers in every state,
computes from its own unit's part of the state, and writes that part and the answer only. -/

namespace Sys2Proof.Machine

/-- `f` always answers, and it is local to one unit: the part `β` it writes and its answer are functions of the part `α` it
sees. -/
def ActsOn {α β : Type} (view : State → α) (write : State → β → State) (f : State → Result) : Prop :=
  ∃ act : α → β × Response, ∀ s, f s = .next ((write s (act (view s)).1).withAnswer (act (view s)).2)

section ActsOn
variable {α β : Type} {view : State → α} {write : State → β → State} {f g : State → Result}

theorem ActsOn.of_next (part : α → β) (answer : α → Response) :
    ActsOn view write fun s => .next ((write s (part (view s))).withAnswer (answer (view s))) :=
  ⟨fun x => (part x, answer x), fun _ => rfl⟩

/-- A test keeps a command local when the unit's part decides it. -/
theorem ActsOn.ite (p : α → Prop) [DecidablePred p] (hf : ActsOn view write f) (hg : ActsOn view write g) :
    ActsOn view write fun s => if p (view s) then f s else g s := by
  obtain ⟨actF, hf⟩ := hf
  obtain ⟨actG, hg⟩ := hg
  refine ⟨fun x => if p x then actF x else actG x, fun s => ?_⟩
  by_cases h : p (view s)
  · simp only [if_pos h, hf]
  · simp only [if_neg h, hg]

/-- Two runs that see the same write the same part and give the same answer. -/
theorem ActsOn.same_effect (hf : ActsOn view write f) {s s' t t' : State} (hv : view s = view s')
    (ht : f s = .next t) (ht' : f s' = .next t') :
    ∃ b a, t = (write s b).withAnswer a ∧ t' = (write s' b).withAnswer a := by
  obtain ⟨act, hact⟩ := hf
  rw [hact] at ht ht'
  cases ht
  cases ht'
  exact ⟨_, _, rfl, by rw [hv]⟩

end ActsOn

/-! ## The reader -/

/-- `f` sees the source and the reader, and writes the reader. -/
abbrev ActsOnReader : (State → Result) → Prop := ActsOn (fun s => (s.source, s.rd)) State.withReader

theorem reader_stays (answer : Source × Reader → Response) :
    ActsOnReader fun s => .next (s.withAnswer (answer (s.source, s.rd))) :=
  .of_next Prod.snd answer

theorem reader_moves (value : Source × Reader → Word) (move : Source × Reader → Reader) :
    ActsOnReader fun s => complete (value (s.source, s.rd)) (s.withReader (move (s.source, s.rd))) :=
  .of_next move fun x => .okay (value x)

theorem readTyped_actsOnReader (t : VType) (w : Nat) : ActsOnReader (readTyped t w) :=
  .ite (fun _ => widthOk t w = false) (reader_stays fun _ => .error .contract) <|
    .ite (fun x => x.2.ravail x.1 < w) (reader_stays fun _ => .error .eos) <|
      reader_moves (fun x => readValue t w (rawRead x.1 w x.2).1) fun x => (rawRead x.1 w x.2).2

theorem peekTyped_actsOnReader (t : VType) (w : Nat) : ActsOnReader (peekTyped t w) :=
  .ite (fun _ => widthOk t w = false) (reader_stays fun _ => .error .contract) <|
    .ite (fun x => x.2.ravail x.1 < w) (reader_stays fun _ => .error .eos) <|
      reader_stays fun x => .okay (readValue t w (rawRead x.1 w x.2).1)

theorem execRseek_actsOnReader (a : Word) : ActsOnReader (execRseek a) :=
  .ite (fun x => 8 * x.1.len < a.toNat) (reader_stays fun _ => .error .range) <|
    reader_moves (fun _ => 0) fun x => rskip x.1 (a.toNat % 8) { srcSeek (a.toNat / 8) x.2 with shift := 0 }

theorem execRskip_actsOnReader (a : Word) : ActsOnReader (execRskip a) :=
  .ite (fun x : Source × Reader => x.2.ravail x.1 < a.toNat) (reader_stays fun _ => .error .eos) <|
    reader_moves (fun _ => 0) fun x => rskip x.1 a.toNat x.2

theorem execRalign_actsOnReader (a : Word) : ActsOnReader (execRalign a) :=
  .ite (fun _ => a.toNat = 0) (reader_stays fun _ => .error .contract) <|
    .ite (fun x => x.2.ravail x.1 < alignDistance x.2.rpos a.toNat) (reader_stays fun _ => .error .eos) <|
      reader_moves (fun _ => 0) fun x => rskip x.1 (alignDistance x.2.rpos a.toNat) x.2

theorem exec_actsOnReader {i : Instr} (hi : i.isReader = true) : ActsOnReader (exec i) := by
  cases i with
  | rpos => exact reader_stays fun x => .okay (BitVec.ofNat 64 x.2.rpos)
  | ravail => exact reader_stays fun x => .okay (BitVec.ofNat 64 (x.2.ravail x.1))
  | rseek a => exact execRseek_actsOnReader a
  | rskip a => exact execRskip_actsOnReader a
  | ralign a => exact execRalign_actsOnReader a
  | readU ts w => exact readTyped_actsOnReader (.unsigned ts) w
  | readS ts w => exact readTyped_actsOnReader (.signed ts) w
  | readF32 w => exact readTyped_actsOnReader .f32 w
  | readF64 w => exact readTyped_actsOnReader .f64 w
  | peekU ts w => exact peekTyped_actsOnReader (.unsigned ts) w
  | peekS ts w => exact peekTyped_actsOnReader (.signed ts) w
  | peekF32 w => exact peekTyped_actsOnReader .f32 w
  | peekF64 w => exact peekTyped_actsOnReader .f64 w
  | _ => cases hi

/-! ## The writer -/

/-- `f` sees the writer and writes the writer. -/
abbrev ActsOnWriter : (State → Result) → Prop := ActsOn State.wr State.withWriter

theorem writer_stays (answer : Writer → Response) : ActsOnWriter fun s => .next (s.withAnswer (answer s.wr)) :=
  .of_next id answer

theorem writer_moves (move : Writer → Writer) : ActsOnWriter fun s => complete 0 (s.withWriter (move s.wr)) :=
  .of_next move fun _ => .okay 0

theorem writeTyped_actsOnWriter (t : VType) (w : Nat) (a : Word) : ActsOnWriter (writeTyped t w a) :=
  .ite (fun _ => widthOk t w = false) (writer_stays fun _ => .error .contract) <| writer_moves (writeBits a w)

theorem execWflush_actsOnWriter : ActsOnWriter execWflush :=
  .ite (fun w : Writer => w.avail < 8) (writer_moves fun w => emit (8 - w.avail) w) <| writer_stays fun _ => .okay 0

theorem execWalign_actsOnWriter (a : Word) : ActsOnWriter (execWalign a) :=
  .ite (fun _ => a.toNat = 0) (writer_stays fun _ => .error .contract) <|
    writer_moves fun w => wskip (alignDistance w.wpos a.toNat) w

theorem exec_actsOnWriter {i : Instr} (hi : i.isWriter = true) : ActsOnWriter (exec i) := by
  cases i with
  | wpos => exact writer_stays fun w => .okay (BitVec.ofNat 64 w.wpos)
  | writeU ts w a => exact writeTyped_actsOnWriter (.unsigned ts) w a
  | writeS ts w a => exact writeTyped_actsOnWriter (.signed ts) w a
  | writeF32 w a => exact writeTyped_actsOnWriter .f32 w a
  | writeF64 w a => exact writeTyped_actsOnWriter .f64 w a
  | wflush => exact execWflush_actsOnWriter
  | wskip a => exact writer_moves (wskip a.toNat)
  | walign a => exact execWalign_actsOnWriter a
  | _ => cases hi

/-! ## The helper unit -/

/-- `f` sees nothing of the state, and writes the answer only. -/
abbrev ActsOnNothing : (State → Result) → Prop := ActsOn (fun _ => ()) fun s (_ : Unit) => s

theorem helper_answers (a : Response) : ActsOnNothing fun s => .next (s.withAnswer a) := .of_next id fun _ => a

theorem exec_actsOnNothing {i : Instr} (hr : i.isReader = false) (hw : i.isWriter = false) : ActsOnNothing (exec i) := by
  cases i with
  | mask w => exact .ite (fun _ => 64 < w) (helper_answers (.error .contract)) (helper_answers (.okay (mask w)))
  | sext w a =>
    exact .ite (fun _ => 64 < w) (helper_answers (.error .contract)) (helper_answers (.okay (sextN 64 w (a &&& mask w))))
  | wpos | writeU | writeS | writeF32 | writeF64 | wflush | wskip | walign => cases hw
  | _ => cases hr

/-- Settles O21: each command acts on its own unit alone, so two runs that agree on that unit have the same effect on it. -/
theorem unitsShareNoState : Obligations.UnitsShareNoState := by
  refine ⟨fun i s s' t t' hi hsrc hrd ht ht' => ?reader, fun i s s' t t' hi hwr ht ht' => ?writer,
    fun i s s' t t' hr hw ht ht' => ?helper⟩
  case reader =>
    obtain ⟨r, a, rfl, rfl⟩ := (exec_actsOnReader hi).same_effect (Prod.ext hsrc hrd) ht ht'
    exact ⟨rfl, rfl, rfl⟩
  case writer =>
    obtain ⟨w, a, rfl, rfl⟩ := (exec_actsOnWriter hi).same_effect hwr ht ht'
    exact ⟨rfl, rfl, rfl⟩
  case helper =>
    obtain ⟨-, a, rfl, rfl⟩ := (exec_actsOnNothing hr hw).same_effect rfl ht ht'
    exact ⟨rfl, rfl, rfl⟩

end Sys2Proof.Machine
end

