-- ==== Sys2Proof/Proofs/AtRest.lean ====
section
/-! The machine at rest (10_state.md R25, R29): every update of the state that a command or an event makes keeps `State.Inv`,
so `exec`, `runEvent` and `step` keep it, and reset establishes it; and which commands update nothing but the answer (R20). -/

namespace Sys2Proof.Machine

/-! ## The updates of the state keep the invariant -/

theorem State.Inv.withInput {s : State} (h : s.Inv) (es : List Event) : (s.withInput es).Inv :=
  ⟨h.source, h.reader, h.writer, h.answer⟩

theorem State.Inv.withReader {s : State} (h : s.Inv) {r : Reader} (hr : r.Inv s.source) : (s.withReader r).Inv :=
  ⟨h.source, hr, h.writer, h.answer⟩

theorem State.Inv.withWriter {s : State} (h : s.Inv) {w : Writer} (hw : w.Inv) : (s.withWriter w).Inv :=
  ⟨h.source, h.reader, hw, h.answer⟩

theorem State.Inv.withAnswer {s : State} (h : s.Inv) {a : Response} (ha : a.fair = true) : (s.withAnswer a).Inv :=
  ⟨h.source, h.reader, h.writer, fun _ hr => Option.some.inj hr ▸ ha⟩

theorem okay_fair (v : Word) : (Response.okay v).fair = true := by simp [Response.fair]

theorem error_fair {e : Status} (h : e ≠ .ioerr) : (Response.error e).fair = true := by simp [Response.fair, h]

/-! ## Reset -/

theorem resetWriter_inv : resetWriter.Inv :=
  ⟨by decide, by decide, fun _ _ => BitVec.getLsbD_zero, rfl, rfl, rfl, rfl, nofun⟩

theorem resetReader_inv (src : Source) : (resetReader src).Inv src :=
  (refill_spec src _ (Nat.zero_le _)).1

theorem resetOver_inv {src : Source} (h : src.legal = true) : (State.resetOver src).Inv :=
  ⟨h, resetReader_inv src, resetWriter_inv, nofun⟩

theorem reset_eq_resetOver_empty : State.reset = State.resetOver (Source.ofBytes []) := by decide

/-- Settles O12: the initial fill puts the reader at rest, and the writer starts at rest. -/
theorem resetIsAtRest : Obligations.ResetIsAtRest :=
  ⟨reset_eq_resetOver_empty ▸ resetOver_inv (by decide), reset_eq_resetOver_empty, fun _ => resetOver_inv⟩

/-! ## What a command can do to the state -/

/-- `exec_ends` for the next state: the answer alone is given, or the command's own unit is moved as well. -/
theorem exec_next {i : Instr} {s t : State} (ht : exec i s = .next t) :
    (∃ a, a.fair = true ∧ t = s.withAnswer a) ∨
    (∃ v r, i.isReader = true ∧ ReaderOutcome s r ∧ t = (s.withReader r).withAnswer (.okay v)) ∨
    (∃ w, i.isWriter = true ∧ WriterOutcome s w ∧ t = (s.withWriter w).withAnswer (.okay 0)) := by
  have hends := exec_ends i s
  generalize exec i s = res at hends ht
  cases hends with
  | raised e _ h =>
    cases ht
    exact .inl ⟨.error e, error_fair h, rfl⟩
  | answered v =>
    cases ht
    exact .inl ⟨.okay v, okay_fair v, rfl⟩
  | read v r hi h =>
    cases ht
    exact .inr (.inl ⟨v, r, hi, h, rfl⟩)
  | wrote w hi h =>
    cases ht
    exact .inr (.inr ⟨w, hi, h, rfl⟩)

theorem exec_keeps_inv {i : Instr} {s t : State} (hs : s.Inv) (ht : exec i s = .next t) : t.Inv := by
  obtain ⟨a, ha, rfl⟩ | ⟨v, r, -, hr, rfl⟩ | ⟨w, -, hw, rfl⟩ := exec_next ht
  · exact hs.withAnswer ha
  · exact (hs.withReader (hr hs.source hs.reader)).withAnswer (okay_fair v)
  · exact (hs.withWriter (hw hs.writer).1).withAnswer (okay_fair 0)

/-! ## Events and the step -/

theorem runCommand_keeps_inv {c : Cmd} {arg : Word} {s t : State} (hs : s.Inv) (ht : runCommand c arg s = .next t) :
    t.Inv := by
  unfold runCommand at ht
  split at ht
  · exact exec_keeps_inv hs ht
  · cases ht
    exact hs.withAnswer (error_fair (by decide))

theorem runReset_keeps_inv {src : Source} {s t : State} (ht : runReset src s = .next t) : t.Inv := by
  unfold runReset at ht
  split at ht
  · cases ht
    exact (resetOver_inv ‹_›).withInput s.input
  · cases ht

/-- Settles O13: the step's event is an illegal word, a command or a reset; the first gives an answer only, a command is one
of the cases of `exec_next`, and a reset starts at rest. -/
theorem stepKeepsMachineAtRest : Obligations.StepKeepsMachineAtRest := by
  intro s t hs ht
  cases hin : s.input with
  | nil =>
    rw [step_idle hin] at ht
    cases ht
  | cons e rest =>
    cases e with
    | command c arg => exact runCommand_keeps_inv (hs.withInput rest) (step_command hin ▸ ht)
    | reset src => exact runReset_keeps_inv (step_reset hin ▸ ht)

/-! ## The queries -/

/-- A peek reads on a copy of the reader (42_reader_read_peek.md R144), so it ends with an answer and no more. -/
theorem peekTyped_answers (ty : VType) (w : Nat) (s : State) : ∃ a, peekTyped ty w s = .next (s.withAnswer a) := by
  cases h : widthOk ty w with
  | false => exact ⟨_, peekTyped_contract s h⟩
  | true =>
    rcases Nat.lt_or_ge s.ravail w with hw | hw
    · exact ⟨_, peekTyped_eos h hw⟩
    · exact ⟨_, peekTyped_ok h hw⟩

/-- A command of neither unit gives an answer and no more. -/
theorem helper_answers_only {i : Instr} (hr : i.isReader = false) (hw : i.isWriter = false) (s : State) :
    ∃ a, exec i s = .next (s.withAnswer a) := by
  obtain ⟨act, hact⟩ := exec_actsOnNothing hr hw
  exact ⟨_, hact s⟩

/-- Settles O22: each query ends in `s.withAnswer a`, and a result has one next state. -/
theorem queriesWriteNothing : Obligations.QueriesWriteNothing := by
  intro i s t hi ht
  have hans : ∃ a, exec i s = .next (s.withAnswer a) := by
    rcases hi with ⟨ty, w, rfl⟩ | rfl | rfl | rfl | ⟨w, rfl⟩ | ⟨w, arg, rfl⟩
    · exact exec_peekOf ty w s ▸ peekTyped_answers ty w s
    · exact ⟨.okay (BitVec.ofNat 64 s.rpos), rfl⟩
    · exact ⟨.okay (BitVec.ofNat 64 s.ravail), rfl⟩
    · exact ⟨.okay (BitVec.ofNat 64 s.wpos), rfl⟩
    · exact helper_answers_only rfl rfl s
    · exact helper_answers_only rfl rfl s
  obtain ⟨a, ha⟩ := hans
  exact ⟨a, Host.Outcome.next.inj (ht.symm.trans ha)⟩

end Sys2Proof.Machine
end

