-- ==== Sys2Proof/Proofs/ReaderAbstraction.lean ====
section
/-! The reader against the machine of its abstraction law (10_state.md R35, 42_reader_read_peek.md R147): a meaning and its
abstract counterpart make the same tests in the same order, so each command refines its counterpart branch by branch. `Refines`
serves the writer too. -/

namespace Sys2Proof.Machine

/-! ## Refining an abstract outcome -/

/-- The engine's result `res` in `s` refines the abstract outcome `out`: the answer is the same, `write` is all that happened
to the state, and what was written stands for the abstract value after the command. -/
def Refines {β γ : Type} (write : State → β → State) (view : β → γ) (s : State) (res : Result) (out : Response × γ) : Prop :=
  ∃ b, res = .next ((write s b).withAnswer out.1) ∧ view b = out.2

/-- Equivalent tests, and refining branches. -/
theorem Refines.ite {β γ : Type} {write : State → β → State} {view : β → γ} {s : State} {p q : Prop} [Decidable p]
    [Decidable q] {f g : Result} {x y : Response × γ} (hpq : p ↔ q) (hf : Refines write view s f x)
    (hg : ¬p → Refines write view s g y) : Refines write view s (if p then f else g) (if q then x else y) := by
  by_cases hp : p
  · rw [if_pos hp, if_pos (hpq.1 hp)]
    exact hf
  · rw [if_neg hp, if_neg (mt hpq.2 hp)]
    exact hg hp

/-! ## The reader as one bit cursor -/

/-- The outcome of a one-cursor machine: an answer, and `rpos()` after the command. -/
abbrev RefinesCursor : State → Result → Response × Nat → Prop := Refines State.withReader Reader.rpos

theorem reader_refines_stay (s : State) (a : Response) : RefinesCursor s (.next (s.withAnswer a)) (a, s.rpos) :=
  ⟨s.rd, rfl, rfl⟩

theorem reader_refines_move (s : State) {r : Reader} {v v' : Word} {p : Nat} (hv : v = v') (hp : r.rpos = p) :
    RefinesCursor s (complete v (s.withReader r)) (.okay v', p) :=
  ⟨r, hv ▸ rfl, hp⟩

theorem State.Inv.rpos_add_ravail {s : State} (h : s.Inv) : s.rpos + s.ravail = 8 * s.source.len :=
  h.reader.window.rpos_add_ravail

/-- At rest too few bits are left exactly when the target lies beyond the stream (I7). -/
theorem State.Inv.ravail_lt_iff {s : State} (h : s.Inv) (n : Nat) : s.ravail < n ↔ 8 * s.source.len < s.rpos + n := by
  have := h.rpos_add_ravail
  omega

theorem readTyped_refines {s : State} (h : s.Inv) (ty : VType) (w : Nat) :
    RefinesCursor s (readTyped ty w s) (absRead s.source s.rpos ty w) := by
  refine .ite Iff.rfl (reader_refines_stay s _) fun hok => ?_
  refine .ite (h.ravail_lt_iff w) (reader_refines_stay s _) fun hw => ?_
  obtain ⟨hval, -, hpos⟩ :=
    rawRead_spec s.source w s.rd h.reader.window (widthOk_le (Bool.not_eq_false _ ▸ hok)) (Nat.le_of_not_lt hw)
  exact reader_refines_move s (congrArg (readValue ty w) hval) hpos

/-- R144: a peek gives the answer of the read, without its move. -/
theorem peekTyped_of_readTyped {ty : VType} {w : Nat} {s : State} {r : Reader} {a : Response}
    (hread : readTyped ty w s = .next ((s.withReader r).withAnswer a)) : peekTyped ty w s = .next (s.withAnswer a) := by
  cases hok : widthOk ty w with
  | false =>
    rw [readTyped_contract s hok] at hread
    cases hread
    exact peekTyped_contract s hok
  | true =>
    rcases Nat.lt_or_ge s.ravail w with hw | hw
    · rw [readTyped_eos hok hw] at hread
      cases hread
      exact peekTyped_eos hok hw
    · rw [readTyped_ok hok hw] at hread
      cases hread
      exact peekTyped_ok hok hw

theorem peekTyped_refines {s : State} (h : s.Inv) (ty : VType) (w : Nat) :
    RefinesCursor s (peekTyped ty w s) (absPeek s.source s.rpos ty w) := by
  obtain ⟨r, hr, -⟩ := readTyped_refines h ty w
  exact ⟨s.rd, peekTyped_of_readTyped hr, rfl⟩

/-- The body that RSKIP and RALIGN share. -/
theorem skip_refines {s : State} (h : s.Inv) (n : Nat) :
    RefinesCursor s
      (if s.ravail < n then raise .eos s else complete 0 (s.withReader (rskip s.source n s.rd)))
      (if 8 * s.source.len < s.rpos + n then (.error .eos, s.rpos) else (.okay 0, s.rpos + n)) :=
  .ite (h.ravail_lt_iff n) (reader_refines_stay s _) fun hn =>
    reader_refines_move s rfl (rskip_spec s.source n s.rd h.reader.window (Nat.le_of_not_lt hn)).2

theorem execRseek_refines (s : State) (a : Word) :
    RefinesCursor s (execRseek a s)
      (if 8 * s.source.len < a.toNat then (.error .range, s.rpos) else (.okay 0, a.toNat)) :=
  .ite Iff.rfl (reader_refines_stay s _) fun ha =>
    reader_refines_move s rfl (rseek_spec s.source s.rd a.toNat (Nat.le_of_not_lt ha)).2

theorem execRalign_refines {s : State} (h : s.Inv) (a : Word) :
    RefinesCursor s (execRalign a s)
      (if a.toNat = 0 then (.error .contract, s.rpos)
        else if 8 * s.source.len < s.rpos + alignDistance s.rpos a.toNat then (.error .eos, s.rpos)
        else (.okay 0, s.rpos + alignDistance s.rpos a.toNat)) :=
  .ite Iff.rfl (reader_refines_stay s _) fun _ => skip_refines h _

theorem execRavail_refines {s : State} (h : s.Inv) :
    RefinesCursor s (execRavail s) (.okay (BitVec.ofNat 64 (8 * s.source.len - s.rpos)), s.rpos) := by
  have hleft : 8 * s.source.len - s.rpos = s.ravail := by
    have := h.rpos_add_ravail
    omega
  rw [hleft]
  exact reader_refines_stay s _

/-- R35: at rest a command that the one-cursor machine performs refines it. -/
theorem exec_refines_absReader {i : Instr} {s : State} {out : Response × Nat} (h : s.Inv)
    (hi : absReader s.source s.rpos i = some out) : RefinesCursor s (exec i s) out := by
  cases i with
  | rpos => cases hi; exact reader_refines_stay s _
  | ravail => cases hi; exact execRavail_refines h
  | rseek a => cases hi; exact execRseek_refines s a
  | rskip a => cases hi; exact skip_refines h a.toNat
  | ralign a => cases hi; exact execRalign_refines h a
  | readU ts w => cases hi; exact readTyped_refines h (.unsigned ts) w
  | readS ts w => cases hi; exact readTyped_refines h (.signed ts) w
  | readF32 w => cases hi; exact readTyped_refines h .f32 w
  | readF64 w => cases hi; exact readTyped_refines h .f64 w
  | peekU ts w => cases hi; exact peekTyped_refines h (.unsigned ts) w
  | peekS ts w => cases hi; exact peekTyped_refines h (.signed ts) w
  | peekF32 w => cases hi; exact peekTyped_refines h .f32 w
  | peekF64 w => cases hi; exact peekTyped_refines h .f64 w
  | _ => cases hi

/-- Settles O39: the state after the command is that of `exec_refines_absReader`, which writes the reader and the answer
only. -/
theorem readerIsOneBitCursor : Obligations.ReaderIsOneBitCursor := by
  intro i s a p hs hi
  obtain ⟨r, hr, hp⟩ := exec_refines_absReader hs hi
  exact ⟨_, hr, rfl, hp, rfl, rfl, rfl⟩

/-- The one-cursor machine performs every reader command. -/
theorem absReader_of_isReader {i : Instr} (hi : i.isReader = true) (src : Source) (p : Nat) :
    ∃ out, absReader src p i = some out := by
  cases i with
  | rpos | ravail | rseek | rskip | ralign | readU | readS | readF32 | readF64 | peekU | peekS | peekF32 | peekF64 =>
    exact ⟨_, rfl⟩
  | _ => cases hi

/-- Settles O40: both states refine one run of the one-cursor machine, which sees the source and `rpos()` only. -/
theorem bufferTripleIsUnobservable : Obligations.BufferTripleIsUnobservable := by
  intro i s s' t t' hi hs hs' hsrc hpos ht ht'
  obtain ⟨out, hout⟩ := absReader_of_isReader hi s.source s.rpos
  obtain ⟨r, hr, hp⟩ := exec_refines_absReader hs hout
  obtain ⟨r', hr', hp'⟩ := exec_refines_absReader hs' (hsrc ▸ hpos ▸ hout)
  obtain rfl := Host.Outcome.next.inj (ht.symm.trans hr)
  obtain rfl := Host.Outcome.next.inj (ht'.symm.trans hr')
  exact ⟨rfl, hp.trans hp'.symm⟩

end Sys2Proof.Machine
end

