-- ==== Sys2Proof/Proofs/WriterAbstraction.lean ====
section
/-! The writer against the machine of its abstraction law (10_state.md R38, 43_writer.md R168): each command refines its
counterpart on the bit string; the bit string in turn fixes every part of the writer but the side band; and what was put in
the sink, with its count, stays (R28, R29 J4). -/

namespace Sys2Proof.Machine

/-! ## The writer as its bit string -/

/-- The outcome of a bit-string machine: an answer, and the bit string after the command. -/
abbrev RefinesBits : State → Result → Response × List Bool → Prop := Refines State.withWriter Writer.bits

theorem writer_refines_stay (s : State) (a : Response) : RefinesBits s (.next (s.withAnswer a)) (a, s.wr.bits) :=
  ⟨s.wr, rfl, rfl⟩

theorem writer_refines_move (s : State) {w : Writer} {B : List Bool} (hB : w.bits = B) :
    RefinesBits s (complete 0 (s.withWriter w)) (.okay 0, B) :=
  ⟨w, rfl, hB⟩

theorem writeTyped_refines {s : State} (h : s.Inv) (ty : VType) (w : Nat) (arg : Word) :
    RefinesBits s (writeTyped ty w arg s) (absWrite s.wr.bits ty w arg) :=
  .ite Iff.rfl (writer_refines_stay s _) fun hok =>
    writer_refines_move s (writeBits_spec arg w s.wr h.writer (widthOk_le (Bool.not_eq_false _ ▸ hok))).2.1

theorem wskip_refines {s : State} (h : s.Inv) (n : Nat) :
    RefinesBits s (complete 0 (s.withWriter (wskip n s.wr))) (.okay 0, s.wr.bits ++ List.replicate n false) :=
  writer_refines_move s (wskip_spec n s.wr h.writer).2.1

theorem execWalign_refines {s : State} (h : s.Inv) (a : Word) :
    RefinesBits s (execWalign a s)
      (if a.toNat = 0 then (.error .contract, s.wr.bits)
        else (.okay 0, s.wr.bits ++ List.replicate (alignDistance s.wr.bits.length a.toNat) false)) :=
  .ite Iff.rfl (writer_refines_stay s _) fun _ => s.wr.bits_length ▸ wskip_refines h _

/-- At rest the next byte boundary is the end of the byte being filled: no bits away, or its free slots. -/
theorem alignDistance_wpos_eight {w : Writer} (h : w.Inv) :
    alignDistance w.wpos 8 = if w.avail < 8 then w.avail else 0 := by
  have h1 := h.avail_pos
  have h8 := h.avail_le
  simp only [alignDistance, Writer.wpos]
  split <;> omega

theorem execWflush_refines {s : State} (h : s.Inv) :
    RefinesBits s (execWflush s) (.okay 0, s.wr.bits ++ List.replicate (alignDistance s.wr.bits.length 8) false) := by
  have h1 := h.writer.avail_pos
  rw [s.wr.bits_length, alignDistance_wpos_eight h.writer, execWflush]
  split
  · exact writer_refines_move s (emit_spec _ s.wr h.writer.window (by omega) (by omega)).2.1
  · rw [List.replicate_zero, List.append_nil]
    exact writer_refines_stay s _

/-- R38: at rest a command that the bit-string machine performs refines it. -/
theorem exec_refines_absWriter {i : Instr} {s : State} {out : Response × List Bool} (h : s.Inv)
    (hi : absWriter s.wr.bits i = some out) : RefinesBits s (exec i s) out := by
  cases i with
  | wpos => cases hi; exact s.wr.bits_length ▸ writer_refines_stay s _
  | writeU ts w a => cases hi; exact writeTyped_refines h (.unsigned ts) w a
  | writeS ts w a => cases hi; exact writeTyped_refines h (.signed ts) w a
  | writeF32 w a => cases hi; exact writeTyped_refines h .f32 w a
  | writeF64 w a => cases hi; exact writeTyped_refines h .f64 w a
  | wflush => cases hi; exact execWflush_refines h
  | wskip a => cases hi; exact wskip_refines h a.toNat
  | walign a => cases hi; exact execWalign_refines h a
  | _ => cases hi

/-- Settles O47: the state after the command is that of `exec_refines_absWriter`, which writes the writer and the answer
only. -/
theorem writerIsItsBitString : Obligations.WriterIsItsBitString := by
  intro i s a B hs hi
  obtain ⟨w, hw, hB⟩ := exec_refines_absWriter hs hi
  exact ⟨_, hw, rfl, hB, rfl, rfl, rfl⟩

/-! ## The bit string determines the writer -/

theorem byteBits_injective {a b : Byte} (h : byteBits a = byteBits b) : a = b := by
  refine BitVec.eq_of_getLsbD_eq fun i hi => ?_
  have hbit := List.map_inj_left.1 h (7 - i) (List.mem_range.2 (by omega))
  rwa [Nat.sub_sub_self (by omega)] at hbit

/-- Equal strings of whole bytes are of equal bytes. -/
theorem bytes_eq_of_flatMap_eq {f g : Nat → Byte} {n : Nat}
    (h : (List.range n).flatMap (fun a => byteBits (f a)) = (List.range n).flatMap (fun a => byteBits (g a))) :
    ∀ a, a < n → f a = g a := by
  induction n with
  | zero => exact fun a ha => absurd ha (Nat.not_lt_zero a)
  | succ n ih =>
    simp only [List.range_succ, List.flatMap_append, List.flatMap_cons, List.flatMap_nil, List.append_nil] at h
    obtain ⟨hinit, hlast⟩ := List.append_inj' h (by rw [byteBits_length, byteBits_length])
    intro a ha
    rcases Nat.lt_succ_iff_lt_or_eq.1 ha with ha | rfl
    · exact ih hinit a ha
    · exact byteBits_injective hlast

/-- Two bytes with zeros below the same filled bits are the same byte. -/
theorem byte_eq_of_filled_eq {a b : Byte} {k : Nat} (hk : k ≤ 8) (ha : ∀ i, i < k → a.getLsbD i = false)
    (hb : ∀ i, i < k → b.getLsbD i = false) (h : (byteBits a).take (8 - k) = (byteBits b).take (8 - k)) : a = b :=
  byteBits_injective (by rw [byteBits_split a hk ha, byteBits_split b hk hb, h])

/-- At rest a position is one byte address and one count of free slots. -/
theorem Writer.Inv.place_eq_of_wpos_eq {w x : Writer} (hw : w.Inv) (hx : x.Inv) (h : w.wpos = x.wpos) :
    w.kpos = x.kpos ∧ w.avail = x.avail := by
  have hw1 := hw.avail_pos
  have hw8 := hw.avail_le
  have hx1 := hx.avail_pos
  have hx8 := hx.avail_le
  simp only [Writer.wpos] at h
  omega

/-- Sinks with the same bytes below the same `K.pos` are the same data. -/
theorem Writer.Inv.snk_eq {w x : Writer} (hw : w.Inv) (hx : x.Inv) (hk : w.kpos = x.kpos)
    (h : ∀ a, a < w.kpos → w.snk.read a = x.snk.read a) : w.snk = x.snk := by
  refine Memory.ext hw.snk_wf hx.snk_wf fun a => ?_
  rcases Nat.lt_or_ge a w.kpos with ha | ha
  · exact h a ha
  · rw [Memory.read_above hw.snk_below ha, Memory.read_above hx.snk_below (hk ▸ ha)]

/-- Settles O49: the length of the bit string gives `K.pos` and `W.avail`, its whole bytes the sink, and the rest `W.buf`. -/
theorem bitStringDeterminesTheWriter : Obligations.BitStringDeterminesTheWriter := by
  intro w x hw hx h
  have hpos : w.wpos = x.wpos := by rw [← w.bits_length, ← x.bits_length, h]
  obtain ⟨hk, ha⟩ := hw.place_eq_of_wpos_eq hx hpos
  simp only [Writer.bits, ← hk, ← ha] at h
  obtain ⟨hbytes, hfilled⟩ := List.append_inj' h (by simp only [List.length_take, byteBits_length])
  exact ⟨byte_eq_of_filled_eq hw.avail_le hw.free_zero (ha ▸ hx.free_zero) hfilled, ha, hk,
    hw.snk_eq hx hk (bytes_eq_of_flatMap_eq hbytes)⟩

/-! ## The sink is append-only -/

theorem Writer.Grows.byte {w w' : Writer} (h : w.Grows w') {j : Nat} {b : Byte} (hb : w.byte j = some b) :
    w'.byte j = some b := by
  obtain ⟨hj, hread⟩ := Option.ite_none_right_eq_some.1 hb
  rw [Writer.byte, if_pos (lt_of_lt_of_le hj h.kpos_le), h.bytes j hj, hread]

theorem Writer.Grows.count {w w' : Writer} (h : w.Grows w') {j n : Nat} (hn : w.count j = some n) :
    w'.count j = some n := by
  obtain ⟨hj, hread⟩ := Option.ite_none_right_eq_some.1 hn
  rw [Writer.count, if_pos (lt_of_lt_of_le hj h.kpos_le), h.counts j hj, hread]

/-- Only a command that moves the writer touches the sink, and it only appends. -/
theorem exec_grows {i : Instr} {s t : State} (hs : s.Inv) (ht : exec i s = .next t) : s.wr.Grows t.wr := by
  obtain ⟨a, -, rfl⟩ | ⟨v, r, -, -, rfl⟩ | ⟨w, -, hw, rfl⟩ := exec_next ht
  · exact .refl s.wr
  · exact .refl s.wr
  · exact (hw hs.writer).2

/-- Settles O50: every command's writer grows from the one before. -/
theorem sinkIsAppendOnly : Obligations.SinkIsAppendOnly := fun _ _ _ hs ht =>
  ⟨(exec_grows hs ht).kpos_le, fun _ _ => (exec_grows hs ht).byte⟩

/-! ## The counts of the side band -/

theorem writeTyped_snknb {s t : State} (hs : s.Inv) {ty : VType} {w : Nat} {arg : Word}
    (ht : writeTyped ty w arg s = .next t) : t.wr.snknb = s.wr.snknb := by
  cases hok : widthOk ty w with
  | false =>
    cases (writeTyped_contract arg s hok).symm.trans ht
    rfl
  | true =>
    cases (writeTyped_ok arg s hok).symm.trans ht
    exact (writeBits_spec arg w s.wr hs.writer (widthOk_le hok)).2.2.2

theorem execWalign_snknb {s t : State} (hs : s.Inv) {a : Word} (ht : execWalign a s = .next t) :
    t.wr.snknb = s.wr.snknb := by
  unfold execWalign at ht
  split at ht
  · cases ht
    rfl
  · cases ht
    exact (wskip_spec _ s.wr hs.writer).2.2.2

/-- Every emit but WFLUSH's has the count 8 of an unlisted address, so the side band stays the same data. -/
theorem exec_snknb {i : Instr} {s t : State} (hs : s.Inv) (hi : i ≠ .wflush) (ht : exec i s = .next t) :
    t.wr.snknb = s.wr.snknb := by
  obtain ⟨a, -, rfl⟩ | ⟨v, r, -, -, rfl⟩ | ⟨w, hwr, -, -⟩ := exec_next ht
  · rfl
  · rfl
  · cases i with
    | wpos => cases ht; rfl
    | writeU | writeS | writeF32 | writeF64 => exact writeTyped_snknb hs ht
    | wflush => exact absurd rfl hi
    | wskip a => cases ht; exact (wskip_spec _ s.wr hs.writer).2.2.2
    | walign a => exact execWalign_snknb hs ht
    | _ => cases hwr

/-- R163: the one byte that WFLUSH puts, if it puts one, has the count of its filled bits. -/
theorem execWflush_count {s t : State} (hs : s.Inv) (ht : execWflush s = .next t) {j : Nat} (hj : s.wr.kpos ≤ j)
    (hj' : j < t.wr.kpos) : t.wr.snknb.read j = 8 - s.wr.avail := by
  unfold execWflush at ht
  split at ht
  · cases ht
    have hlt : j < s.wr.kpos + 1 := hj'
    obtain rfl : j = s.wr.kpos := by omega
    exact (emit_byte _ s.wr hs.writer.window).2
  · cases ht
    exact absurd hj' (Nat.not_lt.2 hj)

/-- Settles O51: old counts stay as the sink grows; a new one is WFLUSH's, or reads as 8 because the side band is the data it
was, with nothing listed at or above the old `K.pos`. -/
theorem sideBandRecordsTheCounts : Obligations.SideBandRecordsTheCounts := by
  intro i s t hs ht
  refine ⟨fun j n => (exec_grows hs ht).count, fun j hj hj' => ?_⟩
  rw [Writer.count, if_pos hj']
  by_cases hi : i = .wflush
  · subst hi
    rw [if_pos rfl, execWflush_count hs ht hj hj']
  · rw [if_neg hi, exec_snknb hs hi ht, SideBand.read_above hs.writer.snknb_below hj]

end Sys2Proof.Machine
end

