-- ==== Sys2Proof/Proofs/MemRead.lean ====
section
/-! The bytes of `MemRead` (20_memory.md R52): a longer read shifts the shorter one up by a byte and puts the next byte below it,
so dropping low digits shortens the read and the digit left lowest is its last byte. -/

namespace Sys2Proof.Machine

theorem memRead_succ_div (src : Source) (a n : Nat) : memRead src a (n + 1) / 256 = memRead src a n := by
  have hbyte := (src.mem.read (a + n)).isLt
  rw [memRead]
  omega

theorem memRead_succ_mod (src : Source) (a n : Nat) :
    memRead src a (n + 1) % 256 = (src.mem.read (a + n)).toNat := by
  have hbyte := (src.mem.read (a + n)).isLt
  rw [memRead]
  omega

/-- Without its low `k` digits, a read of `m + k` bytes is the read of the first `m`. -/
theorem memRead_add_div_pow (src : Source) (a m k : Nat) : memRead src a (m + k) / 256 ^ k = memRead src a m := by
  induction k with
  | zero => rw [Nat.pow_zero, Nat.div_one, Nat.add_zero]
  | succ k ih =>
    calc memRead src a (m + (k + 1)) / 256 ^ (k + 1)
        = memRead src a (m + k + 1) / 256 / 256 ^ k := by rw [Nat.div_div_eq_div_mul, Nat.pow_succ', Nat.add_assoc]
      _ = memRead src a m := by rw [memRead_succ_div, ih]

/-- Settles O28: the bound is `memRead_lt` in base 256; above the `n - 1 - j` digits of the later bytes stands the read of
`j + 1` bytes, whose lowest digit is the byte at `a + j`. -/
theorem memReadIsBigEndian : Obligations.MemReadIsBigEndian := by
  intro src a n
  constructor
  · have hlt := memRead_lt src a n
    rwa [Nat.pow_mul] at hlt
  · intro j hj
    have hn : n = j + 1 + (n - 1 - j) := by omega
    calc memRead src a n / 256 ^ (n - 1 - j) % 256
        = memRead src a (j + 1 + (n - 1 - j)) / 256 ^ (n - 1 - j) % 256 := by rw [← hn]
      _ = memRead src a (j + 1) % 256 := by rw [memRead_add_div_pow]
      _ = (src.mem.read (a + j)).toNat := memRead_succ_mod src a j

end Sys2Proof.Machine
end

