-- ==== Sys2Proof/Proofs/Decoder.lean ====
section
/-! The decoder and the encoder meet in the fields of the command word (30_encoding.md R81 to R89): an operation has one of
three forms, a form spells each of its commands by one choice of fields, and a word decodes to a command exactly when it is
made of the fields that spell it. -/

namespace Sys2Proof

/-! ## The format of an operation -/

/-- What an operation makes of the fields below `op` (30_encoding.md R82): a plain one uses none of them, a helper uses
`width`, and READ, PEEK and WRITE use them all. -/
inductive Form where
  | plain (i : Instr)
  | helper (mk : Nat → Instr)
  | typed (mk : VType → Nat → Instr)

/-- The form of each operation, with the `ARG` presented for the commands that take it (R86). -/
def Op.form (arg : Word) : Op → Form
  | .rpos => .plain .rpos
  | .ravail => .plain .ravail
  | .rseek => .plain (.rseek arg)
  | .rskip => .plain (.rskip arg)
  | .ralign => .plain (.ralign arg)
  | .read => .typed readOf
  | .peek => .typed peekOf
  | .wpos => .plain .wpos
  | .write => .typed fun t w => writeOf t w arg
  | .wflush => .plain .wflush
  | .wskip => .plain (.wskip arg)
  | .walign => .plain (.walign arg)
  | .mask => .helper .mask
  | .sext => .helper fun w => .sext w arg

/-- R89 tests 3 to 6: what is left of decoding once the operation is known and bit 7 is 0. -/
def Form.decodeWord (c : Cmd) : Form → Decoded
  | .plain i => decodePlain c i
  | .helper mk => decodeHelper c mk
  | .typed mk => decodeTyped c mk

/-- R82: the `op` field of an operation. -/
def Op.code : Op → BitVec 4
  | .rpos => 0x1
  | .ravail => 0x2
  | .rseek => 0x3
  | .rskip => 0x4
  | .ralign => 0x5
  | .read => 0x6
  | .peek => 0x7
  | .wpos => 0x8
  | .write => 0x9
  | .wflush => 0xA
  | .wskip => 0xB
  | .walign => 0xC
  | .mask => 0xD
  | .sext => 0xE

theorem opOf_code (o : Op) : opOf o.code = some o := by cases o <;> rfl

theorem opOf_eq_some_iff {op : BitVec 4} {o : Op} : opOf op = some o ↔ op = o.code := by
  constructor
  · cases o <;> revert op <;> decide
  · rintro rfl
    exact opOf_code o

theorem opOf_eq_none_iff {op : BitVec 4} : opOf op = none ↔ op.toNat = 0x0 ∨ op.toNat = 0xF := by
  revert op
  decide

/-- The decoder by the form of the operation. -/
theorem decode_eq_form (c : Cmd) (arg : Word) :
    decode c arg =
      match opOf (fieldsOf c).op with
      | none => .illegal .reservedOp
      | some o => if (fieldsOf c).z = 1 then .illegal .zBit else (o.form arg).decodeWord c := by
  rw [decode]
  cases opOf (fieldsOf c).op with
  | none => rfl
  | some o => cases o <;> rfl

theorem decode_of_reserved {c : Cmd} (arg : Word) (h : opOf (fieldsOf c).op = none) :
    decode c arg = .illegal .reservedOp := by
  rw [decode_eq_form, h]

theorem decode_of_zBit {c : Cmd} (arg : Word) {o : Op} (h : opOf (fieldsOf c).op = some o) (hz : (fieldsOf c).z = 1) :
    decode c arg = .illegal .zBit := by
  rw [decode_eq_form, h]
  exact if_pos hz

theorem decode_of_form {c : Cmd} (arg : Word) {o : Op} (h : opOf (fieldsOf c).op = some o) (hz : (fieldsOf c).z ≠ 1) :
    decode c arg = (o.form arg).decodeWord c := by
  rw [decode_eq_form, h]
  exact if_neg hz

/-! ## Which words decode -/

/-- The fields below `op` with which a form spells a command (30_encoding.md R83 to R85, R88). -/
inductive Form.Spells : Form → BitVec 2 → BitVec 2 → Nat → Instr → Prop where
  | plain (i : Instr) : Spells (.plain i) 0 0 0 i
  | helper (mk : Nat → Instr) (w : Nat) : Spells (.helper mk) 0 0 w (mk w)
  | typed (mk : VType → Nat → Instr) (t : VType) (w : Nat) : Spells (.typed mk) (catCode t) (vtypeCode t) w (mk t w)

theorem Form.Spells.decode_pack {f : Form} {cat ts : BitVec 2} {w : Nat} {i : Instr} (h : f.Spells cat ts w i)
    (hw : w < 128) (op : BitVec 4) : f.decodeWord (pack op cat ts w) = .instr i := by
  cases h with
  | plain => exact decodePlain_pack op i
  | helper mk => exact decodeHelper_pack op w hw mk
  | typed mk t => exact decodeTyped_pack op t w hw mk

theorem Form.spells_of_decode {f : Form} {op : BitVec 4} {cat ts : BitVec 2} {w : Nat} {i : Instr} (hw : w < 128)
    (h : f.decodeWord (pack op cat ts w) = .instr i) : f.Spells cat ts w i := by
  cases f with
  | plain j =>
    rw [Form.decodeWord, decodePlain] at h
    split at h
    next h0 =>
      obtain ⟨rfl, rfl, hw0⟩ := (pack_low12 op cat ts w).1 h0
      obtain rfl : w = 0 := by rw [← width_toNat hw, hw0]; rfl
      cases h
      exact .plain _
    next => cases h
  | helper mk =>
    rw [Form.decodeWord, decodeHelper, fieldsOf_pack] at h
    split at h
    next h0 =>
      obtain ⟨rfl, rfl⟩ := (pack_bits11_8 op cat ts w).1 h0
      rw [width_toNat hw] at h
      cases h
      exact .helper mk w
    next => cases h
  | typed mk =>
    simp only [Form.decodeWord, decodeTyped, fieldsOf_pack, width_toNat hw] at h
    split at h
    next h0 =>
      obtain rfl : cat = 0 := BitVec.eq_of_toNat_eq h0
      cases h
      have := Form.Spells.typed mk (.unsigned (tsizeOf ts)) w
      rwa [catCode, vtypeCode, tsizeCode_tsizeOf] at this
    next h1 =>
      obtain rfl : cat = 1 := BitVec.eq_of_toNat_eq h1
      cases h
      have := Form.Spells.typed mk (.signed (tsizeOf ts)) w
      rwa [catCode, vtypeCode, tsizeCode_tsizeOf] at this
    next h2 =>
      obtain rfl : cat = 2 := BitVec.eq_of_toNat_eq h2
      split at h
      next hts =>
        obtain rfl : ts = 2 := BitVec.eq_of_toNat_eq hts
        cases h
        exact .typed mk .f32 w
      next hts =>
        obtain rfl : ts = 3 := BitVec.eq_of_toNat_eq hts
        cases h
        exact .typed mk .f64 w
      next => cases h
    next => cases h

theorem decode_of_spells {o : Op} {arg : Word} {cat ts : BitVec 2} {w : Nat} {i : Instr}
    (h : (o.form arg).Spells cat ts w i) (hw : w < 128) : decode (pack o.code cat ts w) arg = .instr i := by
  have hop : opOf (fieldsOf (pack o.code cat ts w)).op = some o := by rw [fieldsOf_pack]; exact opOf_code o
  have hz : (fieldsOf (pack o.code cat ts w)).z ≠ 1 := by rw [fieldsOf_pack]; exact (by decide : (0 : BitVec 1) ≠ 1)
  rw [decode_of_form arg hop hz]
  exact h.decode_pack hw o.code

/-- R92: a bit that is not 1 is 0. -/
theorem eq_zero_of_ne_one {z : BitVec 1} : z ≠ 1 → z = 0 := by
  revert z
  decide

/-- R88, R89: a word decodes to a command exactly when its fields spell it in the form of its operation. -/
theorem decode_eq_instr_iff {c : Cmd} {arg : Word} {i : Instr} :
    decode c arg = .instr i ↔
      ∃ o cat ts w, w < 128 ∧ c = pack (Op.code o) cat ts w ∧ (o.form arg).Spells cat ts w i := by
  constructor
  · intro h
    cases ho : opOf (fieldsOf c).op with
    | none =>
      rw [decode_of_reserved arg ho] at h
      cases h
    | some o =>
      by_cases hz : (fieldsOf c).z = 1
      · rw [decode_of_zBit arg ho hz] at h
        cases h
      · rw [decode_of_form arg ho hz] at h
        have hc := pack_fieldsOf c (eq_zero_of_ne_one hz)
        rw [opOf_eq_some_iff.1 ho] at hc
        rw [← hc] at h
        exact ⟨o, _, _, _, (fieldsOf c).width.isLt, hc.symm, Form.spells_of_decode (fieldsOf c).width.isLt h⟩
  · rintro ⟨o, cat, ts, w, hw, rfl, hs⟩
    exact decode_of_spells hs hw

/-! ## The encoder -/

/-- What a form spells is encoded by the fields that spell it, and is well formed when its width fits. -/
theorem Form.Spells.encodeCmd_wf {o : Op} {arg : Word} {cat ts : BitVec 2} {w : Nat} {i : Instr}
    (h : (o.form arg).Spells cat ts w i) : encodeCmd i = pack o.code cat ts w ∧ i.wf = decide (w < 128) := by
  cases o with
  | read | peek | write =>
    obtain ⟨⟩ | ⟨⟩ | ⟨_, t⟩ := h
    cases t <;> exact ⟨rfl, rfl⟩
  | _ =>
    cases h
    exact ⟨rfl, rfl⟩

/-- Every command is spelled in the form of its row's operation, under its own `ARG`. -/
theorem exists_spells (i : Instr) : ∃ (o : Op) (cat ts : BitVec 2) (w : Nat), (o.form (encodeArg i)).Spells cat ts w i := by
  cases i with
  | rpos => exact ⟨.rpos, _, _, _, .plain _⟩
  | ravail => exact ⟨.ravail, _, _, _, .plain _⟩
  | rseek a => exact ⟨.rseek, _, _, _, .plain _⟩
  | rskip a => exact ⟨.rskip, _, _, _, .plain _⟩
  | ralign a => exact ⟨.ralign, _, _, _, .plain _⟩
  | readU ts w => exact ⟨.read, _, _, _, .typed readOf (.unsigned ts) w⟩
  | readS ts w => exact ⟨.read, _, _, _, .typed readOf (.signed ts) w⟩
  | readF32 w => exact ⟨.read, _, _, _, .typed readOf .f32 w⟩
  | readF64 w => exact ⟨.read, _, _, _, .typed readOf .f64 w⟩
  | peekU ts w => exact ⟨.peek, _, _, _, .typed peekOf (.unsigned ts) w⟩
  | peekS ts w => exact ⟨.peek, _, _, _, .typed peekOf (.signed ts) w⟩
  | peekF32 w => exact ⟨.peek, _, _, _, .typed peekOf .f32 w⟩
  | peekF64 w => exact ⟨.peek, _, _, _, .typed peekOf .f64 w⟩
  | wpos => exact ⟨.wpos, _, _, _, .plain _⟩
  | writeU ts w a => exact ⟨.write, _, _, _, .typed (writeOf · · a) (.unsigned ts) w⟩
  | writeS ts w a => exact ⟨.write, _, _, _, .typed (writeOf · · a) (.signed ts) w⟩
  | writeF32 w a => exact ⟨.write, _, _, _, .typed (writeOf · · a) .f32 w⟩
  | writeF64 w a => exact ⟨.write, _, _, _, .typed (writeOf · · a) .f64 w⟩
  | wflush => exact ⟨.wflush, _, _, _, .plain _⟩
  | wskip a => exact ⟨.wskip, _, _, _, .plain _⟩
  | walign a => exact ⟨.walign, _, _, _, .plain _⟩
  | mask w => exact ⟨.mask, _, _, _, .helper .mask w⟩
  | sext w a => exact ⟨.sext, _, _, _, .helper (.sext · a) w⟩

/-- Settles O1: the encoder writes the fields that spell the command, and the decoder reads them back. -/
theorem decodeOfEncodeIsTheCommand : Obligations.DecodeOfEncodeIsTheCommand := by
  intro i hwf
  obtain ⟨o, cat, ts, w, hs⟩ := exists_spells i
  obtain ⟨hcmd, hw⟩ := hs.encodeCmd_wf
  rw [hw, decide_eq_true_iff] at hwf
  show decode (encodeCmd i) (encodeArg i) = .instr i
  rw [hcmd]
  exact decode_of_spells hs hwf

/-- Settles O2: the word is made of the fields that spell its command, and these are what the encoder writes. -/
theorem decodedWordIsTheOnlyEncoding : Obligations.DecodedWordIsTheOnlyEncoding := by
  intro c arg i h
  obtain ⟨o, cat, ts, w, hw, rfl, hs⟩ := decode_eq_instr_iff.1 h
  obtain ⟨hcmd, hwf⟩ := hs.encodeCmd_wf
  exact ⟨by rw [hwf, decide_eq_true_iff]; exact hw, hcmd⟩

end Sys2Proof
end

