-- ==== Sys2Proof/Proofs/Rows.lean ====
section
/-! The match/mask rows of 30_encoding.md R94. A mask leaves free no field, `width`, or `tsize` and `width`; in each case a row
accepts exactly the words made of its fixed fields and any value of the free ones. -/

namespace Sys2Proof

/-! ## The three kinds of row -/

theorem accepts_word_iff {m : String} {v c : Cmd} : (⟨m, v, 0xFFFF⟩ : Row).accepts c = true ↔ c = v := by
  rw [Row.accepts, and_FFFF, beq_iff_eq]

/-- A word whose bit 7 is masked to 0 is made of its fields. -/
theorem eq_pack_of_and {c : Cmd} {op : BitVec 4} {cat ts : BitVec 2} {m : Cmd} (hm : m.getLsbD 7 = true)
    (h : c &&& m = pack op cat ts 0) :
    c = pack (fieldsOf c).op (fieldsOf c).cat (fieldsOf c).tsize (fieldsOf c).width.toNat := by
  have hbit := congrArg (fun b : Cmd => b.getLsbD 7) h
  simp only [BitVec.getLsbD_and, hm, pack_getLsbD] at hbit
  refine (pack_fieldsOf c (BitVec.eq_of_getLsbD_eq fun i hi => ?_)).symm
  interval_cases i
  simpa [fieldsOf] using hbit

theorem accepts_width_iff {m : String} {op : BitVec 4} {cat ts : BitVec 2} {c : Cmd} :
    (⟨m, pack op cat ts 0, 0xFF80⟩ : Row).accepts c = true ↔ ∃ w, w < 128 ∧ c = pack op cat ts w := by
  rw [Row.accepts, beq_iff_eq]
  constructor
  · intro h
    have hc := eq_pack_of_and (m := 0xFF80) (by decide) h
    rw [hc, pack_and_FF80] at h
    have hf := congrArg fieldsOf h
    simp only [fieldsOf_pack, Fields.mk.injEq] at hf
    obtain ⟨hop, hcat, hts, -, -⟩ := hf
    rw [hop, hcat, hts] at hc
    exact ⟨_, (fieldsOf c).width.isLt, hc⟩
  · rintro ⟨w, -, rfl⟩
    exact pack_and_FF80 op cat ts w

theorem accepts_size_iff {m : String} {op : BitVec 4} {cat : BitVec 2} {c : Cmd} :
    (⟨m, pack op cat 0 0, 0xFC80⟩ : Row).accepts c = true ↔ ∃ ts w, w < 128 ∧ c = pack op cat (tsizeCode ts) w := by
  rw [Row.accepts, beq_iff_eq]
  constructor
  · intro h
    have hc := eq_pack_of_and (m := 0xFC80) (by decide) h
    rw [hc, pack_and_FC80] at h
    have hf := congrArg fieldsOf h
    simp only [fieldsOf_pack, Fields.mk.injEq] at hf
    obtain ⟨hop, hcat, -, -, -⟩ := hf
    rw [hop, hcat, ← tsizeCode_tsizeOf (fieldsOf c).tsize] at hc
    exact ⟨_, _, (fieldsOf c).width.isLt, hc⟩
  · rintro ⟨ts, w, -, rfl⟩
    exact pack_and_FC80 op cat _ w

/-- Every word a row accepts decodes to a command with the row's mnemonic. -/
def Row.Sound (r : Row) : Prop :=
  ∀ (c : Cmd) (arg : Word), r.accepts c = true → ∃ i, decode c arg = .instr i ∧ i.mnemonic = r.mnemonic

theorem plainRow_sound {m : String} (o : Op) {mk : Word → Instr} (hs : ∀ arg, (o.form arg).Spells 0 0 0 (mk arg))
    (hm : ∀ arg, (mk arg).mnemonic = m) : Row.Sound ⟨m, pack o.code 0 0 0, 0xFFFF⟩ := by
  intro c arg h
  rw [accepts_word_iff.1 h]
  exact ⟨mk arg, decode_of_spells (hs arg) (by decide), hm arg⟩

theorem widthRow_sound {m : String} (o : Op) {cat ts : BitVec 2} {mk : Word → Nat → Instr}
    (hs : ∀ arg w, (o.form arg).Spells cat ts w (mk arg w)) (hm : ∀ arg w, (mk arg w).mnemonic = m) :
    Row.Sound ⟨m, pack o.code cat ts 0, 0xFF80⟩ := by
  intro c arg h
  obtain ⟨w, hw, rfl⟩ := accepts_width_iff.1 h
  exact ⟨mk arg w, decode_of_spells (hs arg w) hw, hm arg w⟩

theorem sizeRow_sound {m : String} (o : Op) {cat : BitVec 2} {mk : Word → TSize → Nat → Instr}
    (hs : ∀ arg ts w, (o.form arg).Spells cat (tsizeCode ts) w (mk arg ts w))
    (hm : ∀ arg ts w, (mk arg ts w).mnemonic = m) : Row.Sound ⟨m, pack o.code cat 0 0, 0xFC80⟩ := by
  intro c arg h
  obtain ⟨ts, w, hw, rfl⟩ := accepts_size_iff.1 h
  exact ⟨mk arg ts w, decode_of_spells (hs arg ts w) hw, hm arg ts w⟩

theorem rows_sound : ∀ r ∈ rows, r.Sound := by
  simp only [rows, List.forall_mem_cons]
  exact
   ⟨plainRow_sound .rpos (fun _ => .plain .rpos) fun _ => rfl,
    plainRow_sound .ravail (fun _ => .plain .ravail) fun _ => rfl,
    plainRow_sound .rseek (fun a => .plain (.rseek a)) fun _ => rfl,
    plainRow_sound .rskip (fun a => .plain (.rskip a)) fun _ => rfl,
    plainRow_sound .ralign (fun a => .plain (.ralign a)) fun _ => rfl,
    sizeRow_sound .read (fun _ ts => .typed readOf (.unsigned ts)) fun _ _ _ => rfl,
    sizeRow_sound .read (fun _ ts => .typed readOf (.signed ts)) fun _ _ _ => rfl,
    widthRow_sound .read (fun _ => .typed readOf .f32) fun _ _ => rfl,
    widthRow_sound .read (fun _ => .typed readOf .f64) fun _ _ => rfl,
    sizeRow_sound .peek (fun _ ts => .typed peekOf (.unsigned ts)) fun _ _ _ => rfl,
    sizeRow_sound .peek (fun _ ts => .typed peekOf (.signed ts)) fun _ _ _ => rfl,
    widthRow_sound .peek (fun _ => .typed peekOf .f32) fun _ _ => rfl,
    widthRow_sound .peek (fun _ => .typed peekOf .f64) fun _ _ => rfl,
    plainRow_sound .wpos (fun _ => .plain .wpos) fun _ => rfl,
    sizeRow_sound .write (fun a ts => .typed (writeOf · · a) (.unsigned ts)) fun _ _ _ => rfl,
    sizeRow_sound .write (fun a ts => .typed (writeOf · · a) (.signed ts)) fun _ _ _ => rfl,
    widthRow_sound .write (fun a => .typed (writeOf · · a) .f32) fun _ _ => rfl,
    widthRow_sound .write (fun a => .typed (writeOf · · a) .f64) fun _ _ => rfl,
    plainRow_sound .wflush (fun _ => .plain .wflush) fun _ => rfl,
    plainRow_sound .wskip (fun a => .plain (.wskip a)) fun _ => rfl,
    plainRow_sound .walign (fun a => .plain (.walign a)) fun _ => rfl,
    widthRow_sound .mask (fun _ => .helper .mask) fun _ _ => rfl,
    widthRow_sound .sext (fun a => .helper (.sext · a)) fun _ _ => rfl,
    fun _ h => nomatch h⟩

theorem rows_mnemonics_nodup : (rows.map Row.mnemonic).Nodup := by decide

/-- A row that leaves `width` free sees a word as it sees the one with width 0. -/
theorem accepts_pack_width {r : Row} (h : r.mask = 0xFF80 &&& r.mask) (op : BitVec 4) (cat ts : BitVec 2) (w : Nat) :
    r.accepts (pack op cat ts w) = r.accepts (pack op cat ts 0) := by
  rw [Row.accepts, Row.accepts, h, ← BitVec.and_assoc, ← BitVec.and_assoc, pack_and_FF80, pack_and_FF80]

theorem exists_row_of_width_zero {op : BitVec 4} {cat ts : BitVec 2} (w : Nat)
    (h : ∃ r ∈ rows, r.mask = 0xFF80 &&& r.mask ∧ r.accepts (pack op cat ts 0) = true) :
    ∃ r ∈ rows, r.accepts (pack op cat ts w) = true := by
  obtain ⟨r, hr, hmask, hacc⟩ := h
  exact ⟨r, hr, by rw [accepts_pack_width hmask, hacc]⟩

theorem exists_row_of_spells {o : Op} {arg : Word} {cat ts : BitVec 2} {w : Nat} {i : Instr}
    (h : (o.form arg).Spells cat ts w i) : ∃ r ∈ rows, r.accepts (pack o.code cat ts w) = true := by
  cases o with
  | mask | sext =>
    cases h
    exact exists_row_of_width_zero w (by decide)
  | read | peek | write =>
    obtain ⟨⟩ | ⟨⟩ | ⟨_, t⟩ := h
    cases t with
    | unsigned ts | signed ts => cases ts <;> exact exists_row_of_width_zero w (by decide)
    | f32 | f64 => exact exists_row_of_width_zero w (by decide)
  | _ =>
    cases h
    decide

/-- Settles O3: some row accepts the fields that spell a command, every row accepts its own commands only, and as no two rows
share a mnemonic the accepting row is the command's. -/
theorem rowsAcceptExactlyTheirCommands : Obligations.RowsAcceptExactlyTheirCommands := by
  intro c arg
  have hsome : ∀ i, decode c arg = .instr i → ∃ r ∈ rows, r.accepts c = true := by
    intro i h
    obtain ⟨o, cat, ts, w, -, rfl, hs⟩ := decode_eq_instr_iff.1 h
    exact exists_row_of_spells hs
  have hown : ∀ i, decode c arg = .instr i → ∀ r ∈ rows, r.accepts c = true → r.mnemonic = i.mnemonic := by
    intro i h r hr hacc
    obtain ⟨j, hj, hm⟩ := rows_sound r hr c arg hacc
    rw [h] at hj
    cases hj
    exact hm.symm
  refine ⟨fun i h r hr => ⟨hown i h r hr, fun hm => ?_⟩, hsome, fun why h r hr => ?_⟩
  · obtain ⟨r', hr', hacc⟩ := hsome i h
    have hsame : r = r' := List.inj_on_of_nodup_map rows_mnemonics_nodup hr hr' (hm.trans (hown i h r' hr' hacc).symm)
    rw [hsame, hacc]
  · rw [Bool.eq_false_iff]
    intro hacc
    obtain ⟨i, hi, -⟩ := rows_sound r hr c arg hacc
    rw [h] at hi
    cases hi

end Sys2Proof
end

