-- ==== Sys2Proof/Proofs/DecoderTests.lean ====
section
/-! The six tests of 30_encoding.md R89: what each stage of the decoder rejects, as conditions on the number the word is. -/

namespace Sys2Proof

/-! ## The fields of a word as numbers (30_encoding.md R81) -/

theorem fieldsOf_op_toNat (c : Cmd) : (fieldsOf c).op.toNat = c.toNat / 4096 := by
  have hc := c.isLt
  simp only [fieldsOf, BitVec.extractLsb'_toNat, Nat.shiftRight_eq_div_pow]
  omega

theorem fieldsOf_cat_toNat (c : Cmd) : (fieldsOf c).cat.toNat = c.toNat / 1024 % 4 := by
  simp only [fieldsOf, BitVec.extractLsb'_toNat, Nat.shiftRight_eq_div_pow]

theorem fieldsOf_tsize_toNat (c : Cmd) : (fieldsOf c).tsize.toNat = c.toNat / 256 % 4 := by
  simp only [fieldsOf, BitVec.extractLsb'_toNat, Nat.shiftRight_eq_div_pow]

theorem fieldsOf_z_eq_one_iff (c : Cmd) : (fieldsOf c).z = 1 ↔ c.toNat / 128 % 2 = 1 := by
  simp only [fieldsOf, ← BitVec.toNat_inj, BitVec.extractLsb'_toNat, Nat.shiftRight_eq_div_pow]
  rfl

theorem low12_eq_zero_iff (c : Cmd) : c.extractLsb' 0 12 = 0 ↔ c.toNat % 4096 = 0 := by
  simp only [← BitVec.toNat_inj, BitVec.extractLsb'_toNat, Nat.shiftRight_zero]
  rfl

theorem bits11_8_eq_zero_iff (c : Cmd) : c.extractLsb' 8 4 = 0 ↔ c.toNat / 256 % 16 = 0 := by
  simp only [← BitVec.toNat_inj, BitVec.extractLsb'_toNat, Nat.shiftRight_eq_div_pow]
  rfl

/-! ## Why a word is rejected -/

/-- The test that rejected a word (30_encoding.md R89), if one did. -/
def Decoded.why? : Decoded → Option Illegal
  | .instr _ => none
  | .illegal why => some why

theorem Decoded.why?_eq_some_iff {d : Decoded} {why : Illegal} : d.why? = some why ↔ d = .illegal why := by
  cases d <;> simp [why?]

theorem decodePlain_why? (c : Cmd) (i : Instr) :
    (decodePlain c i).why? = if c.toNat % 4096 ≠ 0 then some .unusedField else none := by
  rw [ite_not, decodePlain, apply_ite Decoded.why?]
  exact if_congr (low12_eq_zero_iff c) rfl rfl

theorem decodeHelper_why? (c : Cmd) (mk : Nat → Instr) :
    (decodeHelper c mk).why? = if c.toNat / 256 % 16 ≠ 0 then some .unusedField else none := by
  rw [ite_not, decodeHelper, apply_ite Decoded.why?]
  exact if_congr (bits11_8_eq_zero_iff c) rfl rfl

theorem decodeTyped_why? (c : Cmd) (mk : VType → Nat → Instr) :
    (decodeTyped c mk).why? =
      if c.toNat / 1024 % 4 = 3 then some .reservedCat
      else if c.toNat / 1024 % 4 = 2 ∧ c.toNat / 256 % 4 < 2 then some .floatSize
      else none := by
  have hcat : c.toNat / 1024 % 4 < 4 := Nat.mod_lt _ (by decide)
  have hts : c.toNat / 256 % 4 < 4 := Nat.mod_lt _ (by decide)
  simp only [decodeTyped, fieldsOf_cat_toNat, fieldsOf_tsize_toNat]
  generalize c.toNat / 1024 % 4 = cat at hcat
  generalize c.toNat / 256 % 4 = ts at hts
  obtain rfl | rfl | rfl | rfl : cat = 0 ∨ cat = 1 ∨ cat = 2 ∨ cat = 3 := by omega
  · rfl
  · rfl
  · interval_cases ts <;> rfl
  · rfl

/-- Settles O4: the first two tests are those before the form of the operation is looked at, and each form makes its own of
the other four. -/
theorem decoderTestsInOrder : Obligations.DecoderTestsInOrder := by
  rintro c arg op cat tsize z hop rfl rfl rfl why
  rw [← Decoded.why?_eq_some_iff]
  rw [← fieldsOf_op_toNat] at hop
  subst hop
  cases ho : opOf (fieldsOf c).op with
  | none => rw [decode_of_reserved arg ho, if_pos (opOf_eq_none_iff.1 ho), Decoded.why?]
  | some o =>
    have hres : ¬((fieldsOf c).op.toNat = 0x0 ∨ (fieldsOf c).op.toNat = 0xF) := by
      rw [← opOf_eq_none_iff, ho]
      exact Option.some_ne_none o
    rw [if_neg hres]
    by_cases hz : c.toNat / 128 % 2 = 1
    · rw [decode_of_zBit arg ho ((fieldsOf_z_eq_one_iff c).2 hz), if_pos hz, Decoded.why?]
    · rw [decode_of_form arg ho (mt (fieldsOf_z_eq_one_iff c).1 hz), if_neg hz, opOf_eq_some_iff.1 ho]
      cases o with
      | read | peek | write => simp [Op.form, Op.code, Form.decodeWord, decodeTyped_why?]
      | mask | sext => simp [Op.form, Op.code, Form.decodeWord, decodeHelper_why?]
      | _ => simp [Op.form, Op.code, Form.decodeWord, decodePlain_why?]

end Sys2Proof
end

