-- ==== Sys2Proof/Proofs/WorkedEncodings.lean ====
section
/-! The table of 30_encoding.md R105, as words and as lines of assembly. -/

namespace Sys2Proof

/-- Settles O5: each word is the encoding of its row's command, so O1 reads the command back. -/
theorem workedEncodings : Obligations.WorkedEncodings :=
  ⟨decodeOfEncodeIsTheCommand (.readU .b32 32) rfl, decodeOfEncodeIsTheCommand (.readU .b64 64) rfl,
    decodeOfEncodeIsTheCommand (.readU .b8 8) rfl, decodeOfEncodeIsTheCommand (.readS .b8 8) rfl,
    decodeOfEncodeIsTheCommand (.peekS .b8 6) rfl, decodeOfEncodeIsTheCommand (.readF32 32) rfl,
    decodeOfEncodeIsTheCommand (.writeU .b8 3 0xFD) rfl, decodeOfEncodeIsTheCommand (.writeS .b16 12 (-2)) rfl,
    decodeOfEncodeIsTheCommand (.writeF64 64 0x3FF0000000000000) rfl, decodeOfEncodeIsTheCommand .wflush rfl,
    decodeOfEncodeIsTheCommand (.walign 7) rfl, decodeOfEncodeIsTheCommand (.rseek 0xD) rfl,
    decodeOfEncodeIsTheCommand (.mask 64) rfl, decodeOfEncodeIsTheCommand (.sext 6 0x3F) rfl⟩

end Sys2Proof

namespace Sys2Proof.Machine

theorem assembleCommand_of_assemble {line : List Char} {i : Instr} (h : assemble line = some (.command i)) :
    assembleCommand line = some (encode i) := by
  rw [assembleCommand, h]

/-- R103: an enumeration is read as its underlying type. -/
theorem assemble_enum : assemble "READ.e:u16 12".toList = assemble "READ.u16 12".toList := by decide

/-- Settles O6: each line of the table reads as its row's command, whose encoding is the pair beside it. -/
theorem assemblerLines : Obligations.AssemblerLines :=
  ⟨assembleCommand_of_assemble (i := .readU .b32 32) (by decide), assembleCommand_of_assemble (i := .readU .b64 64) (by decide),
    assembleCommand_of_assemble (i := .readU .b8 8) (by decide), assembleCommand_of_assemble (i := .readS .b8 8) (by decide),
    assembleCommand_of_assemble (i := .peekS .b8 6) (by decide), assembleCommand_of_assemble (i := .readF32 32) (by decide),
    assembleCommand_of_assemble (i := .writeU .b8 3 0xFD) (by decide),
    assembleCommand_of_assemble (i := .writeS .b16 12 (-2)) (by decide),
    assembleCommand_of_assemble (i := .writeF64 64 0x3FF0000000000000) (by decide),
    assembleCommand_of_assemble (i := .wflush) (by decide), assembleCommand_of_assemble (i := .walign 7) (by decide),
    assembleCommand_of_assemble (i := .rseek 0xD) (by decide), assembleCommand_of_assemble (i := .mask 64) (by decide),
    assembleCommand_of_assemble (i := .sext 6 0x3F) (by decide), by rw [assembleCommand, assembleCommand, assemble_enum],
    assembleCommand_of_assemble (i := .walign 7) (by decide), by decide, by decide⟩

end Sys2Proof.Machine
end

