-- ==== Sys2Proof/Proofs/StepDecoded.lean ====
section
/-! The step on a legal word (30_encoding.md R80). -/

namespace Sys2Proof.Machine

theorem runCommand_of_decode {c : Cmd} {arg : Word} {i : Instr} (h : decode c arg = .instr i) (s : State) :
    runCommand c arg s = exec i s := by
  rw [runCommand, h]

theorem decodeTableWord_eq_some_iff {nbits w : Nat} {i : Instr} :
    decodeTableWord nbits w = some i ↔ decode (tableCmd nbits w) (tableArg nbits w) = .instr i := by
  rw [decodeTableWord]
  cases decode (tableCmd nbits w) (tableArg nbits w) <;> simp

/-- Settles O7: the step runs the transaction in front, and taking a fetched word off again restores the input. -/
theorem stepRunsTheDecodedCommand : Obligations.StepRunsTheDecodedCommand := by
  have hstep : ∀ (s : State) (c : Cmd) (arg : Word) (rest : List Event) (i : Instr),
      s.input = .command c arg :: rest → decode c arg = .instr i → step s = exec i (s.withInput rest) := by
    intro s c arg rest i hin hdec
    rw [step_command hin, runCommand_of_decode hdec]
  refine ⟨hstep, fun s nbits w i h => ?_⟩
  rw [hstep (s.withFetchWord nbits w) _ _ s.input i rfl (decodeTableWord_eq_some_iff.1 h)]
  rw [State.withFetchWord, withInput_withInput, withInput_self]

end Sys2Proof.Machine
end

