-- ==== Sys2Proof/Proofs/Helpers.lean ====
section
/-! The helper unit (40_helpers.md R110 to R115). The key fact is that the engine's exclusive-or and subtraction are the
library's sign extension of the field at its own width (R112), from which the bits and the composition law follow. -/

namespace Sys2Proof.Machine

/-! ## Sign extension -/

/-- The field of a raw value, read in two's complement at exactly its own width. -/
theorem setWidth_toInt_of_lt {N w : Nat} (raw : BitVec N) (hr : raw.toNat < 2 ^ w) :
    (raw.setWidth w).toInt =
      if w = 0 then 0 else if raw.toNat < 2 ^ (w - 1) then (raw.toNat : Int) else (raw.toNat : Int) - 2 ^ w := by
  cases w with
  | zero => exact BitVec.toInt_zero_length _
  | succ k =>
    have htop : 2 * raw.toNat < 2 ^ (k + 1) ↔ raw.toNat < 2 ^ k := by rw [Nat.pow_succ]; omega
    rw [BitVec.toInt_eq_toNat_cond, BitVec.toNat_setWidth, Nat.mod_eq_of_lt hr]
    simp [htop]

/-- R112: `sext_N(w, raw)` is the sign extension of the field at exactly `w` bits. -/
theorem sextN_eq_signExtend {N w : Nat} (raw : BitVec N) (hw : w ≤ N) (hr : raw.toNat < 2 ^ w) :
    sextN N w raw = (raw.setWidth w).signExtend N := by
  rw [← BitVec.toInt_inj, BitVec.toInt_signExtend_of_le hw, setWidth_toInt_of_lt raw hr, sextN_toInt raw hw hr]

/-- R112 bit by bit: the bits below the width are kept, and those from it up repeat its top bit. -/
theorem sextN_getLsbD {N w j : Nat} (raw : BitVec N) (hw : w ≤ N) (hpos : 1 ≤ w) (hr : raw.toNat < 2 ^ w) (hj : j < N) :
    (sextN N w raw).getLsbD j = raw.getLsbD (min j (w - 1)) := by
  rw [sextN_eq_signExtend raw hw hr, BitVec.getLsbD_signExtend]
  by_cases hjw : j < w
  · have hmin : min j (w - 1) = j := by omega
    simp [hj, hjw, hmin]
  · have hmin : min j (w - 1) = w - 1 := by omega
    have htop : (raw.setWidth w).msb = raw.getLsbD (w - 1) := by simp [BitVec.msb_setWidth, show 0 < w from hpos]
    simp [hj, hjw, hmin, htop]

/-- R112: widening a sign-extended value again is sign extension to the wider word at once. -/
theorem sextN_widen {N M w : Nat} (raw : BitVec N) (hw : w ≤ N) (hM : N ≤ M) (hr : raw.toNat < 2 ^ w) :
    sextN M N ((sextN N w raw).setWidth M) = sextN M w (raw.setWidth M) := by
  have hwM : w ≤ M := hw.trans hM
  have hraw : (raw.setWidth M).toNat < 2 ^ w :=
    lt_of_le_of_lt (BitVec.toNat_setWidth M raw ▸ Nat.mod_le _ _) hr
  have hext : ((sextN N w raw).setWidth M).toNat < 2 ^ N :=
    lt_of_le_of_lt (BitVec.toNat_setWidth M _ ▸ Nat.mod_le _ _) (sextN N w raw).isLt
  have hleft : sextN M N ((sextN N w raw).setWidth M) = (sextN N w raw).signExtend M := by
    rw [sextN_eq_signExtend _ hM hext, BitVec.setWidth_setWidth_of_le _ hM, BitVec.setWidth_eq]
  have hright : sextN M w (raw.setWidth M) = (raw.setWidth w).signExtend M := by
    rw [sextN_eq_signExtend _ hwM hraw, BitVec.setWidth_setWidth_of_le _ hwM]
  rw [hleft, hright, ← BitVec.toInt_inj, BitVec.toInt_signExtend_of_le hM, BitVec.toInt_signExtend_of_le hwM,
    sextN_eq_signExtend raw hw hr, BitVec.toInt_signExtend_of_le hw]

/-- Settles O24: the value is the law `sextN_toInt`; the other two follow from `sextN_eq_signExtend`. -/
theorem signExtensionIsTwosComplement : Obligations.SignExtensionIsTwosComplement :=
  ⟨fun _ _ raw hw hr => sextN_toInt raw hw hr, fun _ _ _ raw hpos hw hr hj => sextN_getLsbD raw hw hpos hr hj,
    fun _ _ _ raw hw hM hr => sextN_widen raw hw hM hr⟩

/-! ## Fields and masks -/

/-- R115: a field is made of buffer bits below `s` only. -/
theorem extract_congr {buf buf' : Word} {s n : Nat} (hn : n ≤ s) (hs : s ≤ 64)
    (h : ∀ i, i < s → buf.getLsbD i = buf'.getLsbD i) : extract buf s n = extract buf' s n := by
  refine BitVec.eq_of_getLsbD_eq fun j _ => ?_
  rw [extract_getLsbD buf hn hs, extract_getLsbD buf' hn hs]
  by_cases hj : j < n
  · rw [h (s - n + j) (by omega)]
  · simp [hj]

/-- Settles O25: the field as a number, and its congruence in the bits below `s`. -/
theorem extractIgnoresBitsAbove : Obligations.ExtractIgnoresBitsAbove :=
  fun buf _ _ _ hn hs => ⟨extract_toNat buf (hn.trans hs), extract_congr hn hs⟩

/-- Settles O23: the mask as a number, and bit by bit. -/
theorem maskIsAllOnesBelow : Obligations.MaskIsAllOnesBelow := by
  refine fun n hn => ⟨mask_toNat hn, fun j hj => ?_⟩
  rw [mask_getLsbD]
  simp [hj]

/-! ## The commands -/

theorem exec_mask_ok {w : Nat} (hw : w ≤ 64) (s : State) : exec (.mask w) s = complete (mask w) s :=
  if_neg (Nat.not_lt.2 hw)

theorem exec_sext_ok {w : Nat} (hw : w ≤ 64) (a : Word) (s : State) :
    exec (.sext w a) s = complete (sextN 64 w (a &&& mask w)) s :=
  if_neg (Nat.not_lt.2 hw)

/-- Settles O26: the command completes with `mask w`. -/
theorem maskAnswersTheMask : Obligations.MaskAnswersTheMask :=
  fun s w hw => ⟨mask w, exec_mask_ok hw s, mask_toNat hw⟩

/-- Settles O27: the masked argument is the field as a number, and `sextN_toInt` reads it with its sign. -/
theorem sextAnswersTheSignedField : Obligations.SextAnswersTheSignedField := by
  intro s w a hw
  have hfield : (a &&& mask w).toNat = a.toNat % 2 ^ w := and_mask_toNat a hw
  have hlt : (a &&& mask w).toNat < 2 ^ w := hfield ▸ Nat.mod_lt _ (Nat.two_pow_pos w)
  refine ⟨sextN 64 w (a &&& mask w), exec_sext_ok hw a s, ?_⟩
  rw [sextN_toInt _ hw hlt, hfield]

end Sys2Proof.Machine
end

/-! The reader's cursor commands (41_reader_cursor.md R122 to R126): their answers, the registers RSKIP and RSEEK leave, and
that only RSEEK moves the cursor back (R120). -/

namespace Sys2Proof.Machine

/-! ## The counts -/

theorem eight_mul_len_lt_of_legal {src : Source} (h : src.legal = true) : 8 * src.len < 2 ^ 64 := by
  rw [Source.legal, Bool.and_eq_true] at h
  exact of_decide_eq_true h.2

/-- R87: at rest both counts are values of the machine word. -/
theorem State.Inv.counts_lt {s : State} (h : s.Inv) : s.rpos < 2 ^ 64 ∧ s.ravail < 2 ^ 64 := by
  have hsum := h.rpos_add_ravail
  have hlen := eight_mul_len_lt_of_legal h.source
  omega

/-- Settles O29: both commands are `complete` on the count, which at rest is below the stream's length in bits. -/
theorem rposAndRavailAnswerTheCounts : Obligations.RposAndRavailAnswerTheCounts := by
  refine fun s => ⟨rfl, rfl, fun hs => ?_⟩
  obtain ⟨hpos, hav⟩ := hs.counts_lt
  exact ⟨Nat.mod_eq_of_lt hpos, Nat.mod_eq_of_lt hav, hs.rpos_add_ravail⟩

/-! ## RSKIP and RSEEK -/

theorem Reader.Agrees.of_eq {r x : Reader} (h : r = x) : r.Agrees x := h ▸ ⟨rfl, rfl, fun _ _ => rfl⟩

/-- R124, exactly. The case `b = R.shift` is the refill of the last case with no bit left to skip. -/
theorem rskip_eq (src : Source) (b : Nat) (r : Reader) {rem n : Nat} (hrem : rem = b - r.shift)
    (hn : n = min 8 (src.len - (r.pos + rem / 8))) :
    rskip src b r =
      if b < r.shift then { buf := r.buf, shift := r.shift - b, pos := r.pos }
      else
        { buf := BitVec.ofNat 64 (memRead src (r.pos + rem / 8) n)
          shift := 8 * n - rem % 8
          pos := r.pos + rem / 8 + n } := by
  subst hrem hn
  rw [rskip]
  refine if_congr Iff.rfl rfl ?_
  split
  next heq =>
    rw [heq, Nat.sub_self]
    exact refill_eq src r
  next => simp only [refill_eq, srcSkip_pos]

theorem exec_rskip_ok {s : State} {a : Word} (h : a.toNat ≤ s.ravail) :
    exec (.rskip a) s = complete 0 (s.withReader (rskip s.source a.toNat s.rd)) :=
  if_neg (Nat.not_lt.2 h)

/-- Settles O30: the registers are `rskip_eq`, the cursor `rskip_spec`. -/
theorem rskipAdvancesTheCursor : Obligations.RskipAdvancesTheCursor := by
  intro s a rem n hs ha hrem hn
  have hw := hs.reader.window
  exact ⟨rskip s.source a.toNat s.rd, exec_rskip_ok ha, .of_eq (rskip_eq s.source a.toNat s.rd hrem hn),
    (rskip_spec s.source a.toNat s.rd hw ha).2, rskip_ravail s.source a.toNat s.rd hw ha⟩

theorem exec_rseek_ok {s : State} {a : Word} (h : a.toNat ≤ 8 * s.source.len) :
    exec (.rseek a) s =
      complete 0 (s.withReader (rskip s.source (a.toNat % 8) { srcSeek (a.toNat / 8) s.rd with shift := 0 })) :=
  if_neg (Nat.not_lt.2 h)

/-- R126: the residual bits are fewer than a byte, so with the buffer discarded their skip refills at byte `p / 8`. -/
theorem rskip_after_seek (src : Source) (p : Nat) (r : Reader) {n : Nat} (hn : n = min 8 (src.len - p / 8)) :
    rskip src (p % 8) { srcSeek (p / 8) r with shift := 0 } =
      { buf := BitVec.ofNat 64 (memRead src (p / 8) n), shift := 8 * n - p % 8, pos := p / 8 + n } := by
  have hbyte : p / 8 + p % 8 / 8 = p / 8 := by omega
  rw [rskip_eq src (p % 8) _ (rem := p % 8) (n := n) rfl (by simpa only [srcSeek_pos, hbyte] using hn),
    if_neg (Nat.not_lt_zero _)]
  simp only [srcSeek_pos, hbyte, Nat.mod_mod]

/-- Settles O31: the registers are `rskip_after_seek`, the cursor `rseek_spec`. -/
theorem rseekSetsTheCursor : Obligations.RseekSetsTheCursor := fun s a _ ha hn =>
  ⟨_, exec_rseek_ok ha, .of_eq (rskip_after_seek s.source a.toNat s.rd hn), (rseek_spec s.source s.rd a.toNat ha).2⟩

/-! ## The cursor moves forward -/

theorem absRead_le (src : Source) (p : Nat) (t : VType) (w : Nat) : p ≤ (absRead src p t w).2 := by
  unfold absRead
  split
  next => exact le_rfl
  next =>
    split
    next => exact le_rfl
    next => exact Nat.le_add_right p w

/-- R120 for the one-cursor machine. -/
theorem absReader_le {src : Source} {p : Nat} {i : Instr} {out : Response × Nat} (h : absReader src p i = some out)
    (hi : ∀ a, i ≠ .rseek a) : p ≤ out.2 := by
  have hskip : ∀ n, p ≤ (if 8 * src.len < p + n then (Response.error .eos, p) else (Response.okay 0, p + n)).2 := by
    intro n
    split
    next => exact le_rfl
    next => exact Nat.le_add_right p n
  cases i with
  | rseek a => exact absurd rfl (hi a)
  | rskip a => cases h; exact hskip a.toNat
  | ralign a =>
    cases h
    split
    next => exact le_rfl
    next => exact hskip _
  | readU | readS | readF32 | readF64 => cases h; exact absRead_le ..
  | rpos | ravail | peekU | peekS | peekF32 | peekF64 => cases h; exact le_rfl
  | _ => cases h

/-- Settles O41: a reader command has the cursor of the one-cursor machine, and no other command moves it. -/
theorem onlySeekMovesTheCursorBack : Obligations.OnlySeekMovesTheCursorBack := by
  intro i s t hs ht hi
  obtain ⟨a, -, rfl⟩ | ⟨v, r, hr, -, rfl⟩ | ⟨w, -, -, rfl⟩ := exec_next ht
  · exact le_rfl
  · obtain ⟨out, hout⟩ := absReader_of_isReader hr s.source s.rpos
    obtain ⟨r', hr', hp⟩ := exec_refines_absReader hs hout
    rw [Host.Outcome.next.inj (ht.symm.trans hr')]
    exact (absReader_le hout hi).trans hp.ge
  · exact le_rfl

end Sys2Proof.Machine

/-! RALIGN and WALIGN (41_reader_cursor.md R127, 43_writer.md R166): the distance that both skip leads to the least multiple,
and is 0 at a multiple, where a second one has nothing to do. -/

namespace Sys2Proof.Machine

/-! ## The distance to the next multiple -/

theorem dvd_add_alignDistance (p : Nat) {m : Nat} (hm : m ≠ 0) : m ∣ p + alignDistance p m := by
  have hlt : p % m < m := Nat.mod_lt p (Nat.pos_of_ne_zero hm)
  rw [Nat.dvd_iff_mod_eq_zero, alignDistance, Nat.add_mod_mod, ← Nat.mod_add_mod, Nat.add_sub_of_le hlt.le, Nat.mod_self]

theorem alignDistance_lt (p : Nat) {m : Nat} (hm : m ≠ 0) : alignDistance p m < m :=
  Nat.mod_lt _ (Nat.pos_of_ne_zero hm)

theorem alignDistance_of_dvd {p m : Nat} (h : m ∣ p) : alignDistance p m = 0 := by
  rw [alignDistance, Nat.mod_eq_zero_of_dvd h, Nat.sub_zero, Nat.mod_self]

/-- No multiple lies between: it would be less than `m` below the one reached. -/
theorem add_alignDistance_le {p m q : Nat} (hm : m ≠ 0) (hq : m ∣ q) (hpq : p ≤ q) : p + alignDistance p m ≤ q := by
  by_contra hlt
  have hgap : m ∣ p + alignDistance p m - q := Nat.dvd_sub (dvd_add_alignDistance p hm) hq
  have hle := Nat.le_of_dvd (by omega) hgap
  have hd := alignDistance_lt p hm
  omega

/-! ## RALIGN -/

theorem exec_ralign_ok {s : State} {a : Word} (ha : a.toNat ≠ 0) (hd : alignDistance s.rpos a.toNat ≤ s.ravail) :
    exec (.ralign a) s = complete 0 (s.withReader (rskip s.source (alignDistance s.rpos a.toNat) s.rd)) :=
  (if_neg ha).trans (if_neg (Nat.not_lt.2 hd))

/-- RALIGN answers OK only when its two tests pass. -/
theorem ralign_tests_of_ok {s t : State} {a b : Word} (ht : exec (.ralign a) s = .next t)
    (hok : t.resp = some (.okay b)) : a.toNat ≠ 0 ∧ alignDistance s.rpos a.toNat ≤ s.ravail := by
  change execRalign a s = .next t at ht
  unfold execRalign at ht
  split at ht
  next =>
    cases ht
    cases hok
  next hne =>
    split at ht
    next =>
      cases ht
      cases hok
    next hle => exact ⟨hne, Nat.le_of_not_lt hle⟩

theorem ralign_spec {s : State} (hs : s.Inv) {a : Word} (ha : a.toNat ≠ 0)
    (hd : alignDistance s.rpos a.toNat ≤ s.ravail) :
    ∃ r, exec (.ralign a) s = .next ((s.withReader r).withAnswer (.okay 0)) ∧
      r.rpos = s.rpos + alignDistance s.rpos a.toNat :=
  ⟨_, exec_ralign_ok ha hd, (rskip_spec s.source _ s.rd hs.reader.window hd).2⟩

/-- Settles O32: `ralign_spec`, with the facts about the distance. -/
theorem ralignReachesTheNextMultiple : Obligations.RalignReachesTheNextMultiple := by
  intro s a hs ha hd
  have hne : a.toNat ≠ 0 := fun h => ha (BitVec.eq_of_toNat_eq h)
  obtain ⟨r, hr, hp⟩ := ralign_spec hs hne hd
  refine ⟨r, hr, ?_, ?_, fun m hm hle => ?_, hp.symm⟩
  · exact hp ▸ dvd_add_alignDistance s.rpos hne
  · exact hp ▸ Nat.le_add_right _ _
  · exact hp ▸ add_alignDistance_le hne hm hle

/-- A second RALIGN stands at a multiple, with no bit to skip. -/
theorem ralign_twice {s t : State} {a b : Word} (hs : s.Inv) (ht : exec (.ralign a) s = .next t)
    (hok : t.resp = some (.okay b)) : ∃ u, exec (.ralign a) t = .next u ∧ u.resp = t.resp ∧ u.rpos = t.rpos := by
  obtain ⟨hne, hd⟩ := ralign_tests_of_ok ht hok
  have htInv := exec_keeps_inv hs ht
  obtain ⟨r, hr, hp⟩ := ralign_spec hs hne hd
  obtain rfl := Host.Outcome.next.inj (ht.symm.trans hr)
  have hzero : alignDistance r.rpos a.toNat = 0 := alignDistance_of_dvd (hp ▸ dvd_add_alignDistance s.rpos hne)
  obtain ⟨r', hr', hp'⟩ := ralign_spec htInv hne (hzero.trans_le (Nat.zero_le _))
  exact ⟨_, hr', rfl, hp'.trans (congrArg (r.rpos + ·) hzero)⟩

/-! ## WALIGN -/

theorem exec_walign_ok {a : Word} (ha : a.toNat ≠ 0) (s : State) :
    exec (.walign a) s = complete 0 (s.withWriter (wskip (alignDistance s.wpos a.toNat) s.wr)) :=
  if_neg ha

theorem exec_walign_zero {a : Word} (ha : a.toNat = 0) (s : State) : exec (.walign a) s = raise .contract s :=
  if_pos ha

theorem wskip_zero {w : Writer} (h : w.Inv) : wskip 0 w = w := if_pos h.avail_pos

theorem wskip_wpos {w : Writer} (h : w.Inv) (b : Nat) : (wskip b w).wpos = w.wpos + b := by
  rw [← Writer.bits_length, (wskip_spec b w h).2.1, List.length_append, List.length_replicate, Writer.bits_length]

/-- At a multiple WALIGN writes the answer only. -/
theorem exec_walign_of_dvd {s : State} (hs : s.wr.Inv) {a : Word} (ha : a.toNat ≠ 0) (hd : a.toNat ∣ s.wpos) :
    exec (.walign a) s = complete 0 s := by
  rw [exec_walign_ok ha, alignDistance_of_dvd hd, wskip_zero hs, withWriter_self]

/-- A second WALIGN stands at a multiple, and gives the answer that is there. -/
theorem walign_twice {s t : State} {a b : Word} (hs : s.Inv) (ht : exec (.walign a) s = .next t)
    (hok : t.resp = some (.okay b)) : exec (.walign a) t = .next t := by
  by_cases ha : a.toNat = 0
  · rw [exec_walign_zero ha] at ht
    cases ht
    cases hok
  · have htInv := exec_keeps_inv hs ht
    rw [exec_walign_ok ha] at ht
    cases ht
    refine exec_walign_of_dvd htInv.writer ha ?_
    show a.toNat ∣ (wskip (alignDistance s.wpos a.toNat) s.wr).wpos
    exact wskip_wpos hs.writer _ ▸ dvd_add_alignDistance s.wpos ha

/-- Settles O53: after the first command the position is a multiple, so the second skips no bit. -/
theorem alignTwiceIsAlignOnce : Obligations.AlignTwiceIsAlignOnce :=
  ⟨fun _ _ _ _ => ralign_twice, fun _ _ _ _ => walign_twice⟩

end Sys2Proof.Machine

/-! READ and PEEK under their preconditions (42_reader_read_peek.md R140 to R147): one lemma per command for all value types,
`exec_readOf_ok` and `exec_peekOf_ok`, gives the raw field with the category's reading of it; then what that reading is, and
the registers that the loop of `raw_read` leaves. -/

namespace Sys2Proof.Machine

/-! ## The commands, for every value type -/

/-- R143, R147: READ completes with the value of the stream's field, and moves the cursor past it. -/
theorem exec_readOf_ok {s : State} (hs : s.Inv) {ty : VType} {w : Nat} (hok : widthOk ty w = true) (hw : w ≤ s.ravail) :
    ∃ r, exec (readOf ty w) s = .next ((s.withReader r).withAnswer
        (.okay (readValue ty w (BitVec.ofNat 64 (streamValue s.source s.rpos w))))) ∧
      r.rpos = s.rpos + w ∧ r.ravail s.source = s.ravail - w := by
  have hwin := hs.reader.window
  have h64 := widthOk_le hok
  obtain ⟨hval, -, hpos⟩ := rawRead_spec s.source w s.rd hwin h64 hw
  refine ⟨(rawRead s.source w s.rd).2, ?_, hpos, rawRead_ravail s.source w s.rd hwin h64 hw⟩
  rw [exec_readOf, readTyped_ok hok hw, hval]
  rfl

/-- R144: PEEK completes with the answer of READ, and writes nothing else. -/
theorem exec_peekOf_ok {s : State} (hs : s.Inv) {ty : VType} {w : Nat} (hok : widthOk ty w = true) (hw : w ≤ s.ravail) :
    exec (peekOf ty w) s = .next (s.withAnswer
      (.okay (readValue ty w (BitVec.ofNat 64 (streamValue s.source s.rpos w))))) := by
  obtain ⟨r, hread, -⟩ := exec_readOf_ok hs hok hw
  rw [exec_readOf] at hread
  rw [exec_peekOf]
  exact peekTyped_of_readTyped hread

/-! ## Categories U and F: the raw bits -/

/-- A type that returns the raw bits returns the number the field stands for (R146). -/
theorem readValue_toNat_of_raw {ty : VType} {w : Nat} (hok : widthOk ty w = true) (hraw : ∀ raw, readValue ty w raw = raw)
    (src : Source) (p : Nat) :
    (readValue ty w (BitVec.ofNat 64 (streamValue src p w))).toNat = streamValue src p w := by
  rw [hraw, streamWord_toNat src p w (widthOk_le hok)]

theorem exec_readOf_raw {s : State} (hs : s.Inv) {ty : VType} {w : Nat} (hok : widthOk ty w = true) (hw : w ≤ s.ravail)
    (hraw : ∀ raw, readValue ty w raw = raw) :
    ∃ r v, exec (readOf ty w) s = .next ((s.withReader r).withAnswer (.okay v)) ∧
      v.toNat = streamValue s.source s.rpos w ∧ r.rpos = s.rpos + w ∧ r.ravail s.source = s.ravail - w := by
  obtain ⟨r, hread, hpos, hleft⟩ := exec_readOf_ok hs hok hw
  exact ⟨r, _, hread, readValue_toNat_of_raw hok hraw s.source s.rpos, hpos, hleft⟩

theorem exec_peekOf_raw {s : State} (hs : s.Inv) {ty : VType} {w : Nat} (hok : widthOk ty w = true) (hw : w ≤ s.ravail)
    (hraw : ∀ raw, readValue ty w raw = raw) :
    ∃ v, exec (peekOf ty w) s = .next (s.withAnswer (.okay v)) ∧ v.toNat = streamValue s.source s.rpos w :=
  ⟨_, exec_peekOf_ok hs hok hw, readValue_toNat_of_raw hok hraw s.source s.rpos⟩

/-- Settles O33: each of the three forms is `readOf` of a type that returns the raw bits. -/
theorem readUnsignedAndFloatReturnTheField : Obligations.ReadUnsignedAndFloatReturnTheField := by
  intro s w i hs hw hi
  obtain ⟨ts, rfl, hok⟩ | ⟨rfl, rfl⟩ | ⟨rfl, rfl⟩ := hi
  · exact exec_readOf_raw hs (ty := .unsigned ts) hok hw fun _ => rfl
  · exact exec_readOf_raw hs (ty := .f32) rfl hw fun _ => rfl
  · exact exec_readOf_raw hs (ty := .f64) rfl hw fun _ => rfl

/-- Settles O36: each of the three forms is `peekOf` of a type that returns the raw bits. -/
theorem peekUnsignedAndFloatReturnTheField : Obligations.PeekUnsignedAndFloatReturnTheField := by
  intro s w i hs hw hi
  obtain ⟨ts, rfl, hok⟩ | ⟨rfl, rfl⟩ | ⟨rfl, rfl⟩ := hi
  · exact exec_peekOf_raw hs (ty := .unsigned ts) hok hw fun _ => rfl
  · exact exec_peekOf_raw hs (ty := .f32) rfl hw fun _ => rfl
  · exact exec_peekOf_raw hs (ty := .f64) rfl hw fun _ => rfl

/-! ## Category S: the sign of the field -/

/-- The first stream bit of a field is its most significant, so it says whether the field reaches half its range. -/
theorem bit_eq_true_iff_le_streamValue (src : Source) (p k : Nat) :
    src.bit p = true ↔ 2 ^ k ≤ streamValue src p (k + 1) := by
  have htop : (streamValue src p (k + 1)).testBit k = src.bit p := by
    simp [streamValue_testBit]
  rw [← htop]
  exact ⟨Nat.ge_two_pow_of_testBit, fun hle =>
    Nat.testBit_of_two_pow_le_and_two_pow_add_one_gt hle (streamValue_lt src p (k + 1))⟩

/-- R146 for category S: the field in two's complement at its own width. -/
theorem readValue_signed_toInt (ts : TSize) {w : Nat} (h64 : w ≤ 64) (src : Source) (p : Nat) :
    (readValue (.signed ts) w (BitVec.ofNat 64 (streamValue src p w))).toInt =
      if w = 0 then 0
      else if src.bit p then (streamValue src p w : Int) - 2 ^ w
      else (streamValue src p w : Int) := by
  have hword := streamWord_toNat src p w h64
  rw [readValue, sextN_toInt _ h64 (hword.trans_lt (streamValue_lt src p w)), hword]
  cases w with
  | zero => rfl
  | succ k =>
    have hsign := bit_eq_true_iff_le_streamValue src p k
    refine if_congr Iff.rfl rfl ?_
    rw [Nat.add_sub_cancel]
    by_cases hbit : src.bit p = true
    · rw [if_neg (Nat.not_lt.2 (hsign.1 hbit)), if_pos hbit]
    · rw [if_pos (Nat.lt_of_not_le (mt hsign.2 hbit)), if_neg hbit]

/-- Settles O34: the value is `readValue_signed_toInt`. -/
theorem readSignedReturnsTheSignedField : Obligations.ReadSignedReturnsTheSignedField := by
  intro s ts w hs hok hw
  obtain ⟨r, hread, hpos, hleft⟩ := exec_readOf_ok hs hok hw
  exact ⟨r, _, hread, readValue_signed_toInt ts (widthOk_le hok) s.source s.rpos, hpos, hleft⟩

/-- Settles O37: the value is `readValue_signed_toInt`. -/
theorem peekSignedReturnsTheSignedField : Obligations.PeekSignedReturnsTheSignedField :=
  fun s ts _ hs hok hw => ⟨_, exec_peekOf_ok hs hok hw, readValue_signed_toInt ts (widthOk_le hok) s.source s.rpos⟩

/-! ## The registers after a READ -/

/-- The registers after a last pass: case A takes its bits off the buffer, case B refills. -/
theorem rawReadLoop_last_registers (src : Source) (k : Nat) {bits : Nat} (acc : Word) {r : Reader} (hb : bits ≤ r.shift) :
    (rawReadLoop src (k + 1) bits acc r).2 =
      if bits < r.shift then { r with shift := r.shift - bits } else refill src r := by
  rw [rawReadLoop]
  split
  next => rfl
  next hge => rw [if_pos (Nat.le_antisymm hb (Nat.le_of_not_lt hge))]

/-- R145: a read that takes the whole of a refill has emptied the source. It cannot take a refill of all 64 bits, since with
bytes left in the source at least one bit of the field was in the buffer before (I5). -/
theorem refill_depletes {src : Source} {r : Reader} (h : r.Inv src) {w n : Nat} (h64 : w ≤ 64)
    (hn : n = min 8 (src.len - r.pos)) (hle : 8 * n ≤ w - r.shift) : r.pos + n = src.len := by
  have hpos := h.pos_le
  have hempty := h.empty_iff
  omega

/-- R140, R145, exactly: the three ways a read ends. -/
theorem rawRead_registers {src : Source} {r : Reader} (h : r.Inv src) {w n : Nat} (h64 : w ≤ 64) (hw : w ≤ r.ravail src)
    (hn : n = min 8 (src.len - r.pos)) :
    (rawRead src w r).2 =
      if w < r.shift then { buf := r.buf, shift := r.shift - w, pos := r.pos }
      else if w - r.shift < 8 * n then
        { buf := BitVec.ofNat 64 (memRead src r.pos n), shift := 8 * n - (w - r.shift), pos := r.pos + n }
      else { buf := 0, shift := 0, pos := src.len } := by
  have hfill : refill src r = { buf := BitVec.ofNat 64 (memRead src r.pos n), shift := 8 * n, pos := r.pos + n } :=
    hn ▸ refill_eq src r
  rcases Nat.lt_trichotomy w r.shift with hlt | heq | hgt
  case inl =>
    rw [rawRead, rawReadLoop_last_registers src 1 0 hlt.le, if_pos hlt, if_pos hlt]
  case inr.inl =>
    rw [rawRead, rawReadLoop_last_registers src 1 0 heq.le, if_neg heq.not_lt, if_neg heq.not_lt, heq, Nat.sub_self]
    split
    next => exact hfill
    next hnone =>
      have hend : r.pos = src.len := by
        have hpos := h.pos_le
        omega
      rw [refill_depleted src r hend, hend]
  case inr.inr =>
    have hrem : w - r.shift ≤ (refill src r).shift := by
      rw [hfill]
      show w - r.shift ≤ 8 * n
      rw [Reader.ravail] at hw
      omega
    rw [rawRead, rawReadLoop_across src 1 w 0 r hgt, rawReadLoop_last_registers src 0 _ hrem, if_neg hgt.not_gt, hfill]
    split
    next => rfl
    next hge =>
      have hend := refill_depletes h h64 hn (Nat.le_of_not_lt hge)
      rw [refill_depleted src _ hend, hend]

/-- Settles O35: READ leaves the registers of `raw_read`. -/
theorem readLeavesTheLoopsRegisters : Obligations.ReadLeavesTheLoopsRegisters := by
  intro s t ty w n hs hok hw hn ht
  rw [exec_readOf, readTyped_ok hok hw] at ht
  cases ht
  exact .of_eq (rawRead_registers hs.reader (widthOk_le hok) hw hn)

/-! ## PEEK before READ -/

/-- Settles O38: READ sees the source and the reader only, which PEEK leaves, so READ after PEEK answers as READ before it,
and that is PEEK's answer. -/
theorem peekThenReadAgree : Obligations.PeekThenReadAgree := by
  intro s t u ty w hpeek hread
  rw [exec_peekOf] at hpeek
  rw [exec_readOf] at hread
  obtain ⟨act, hact⟩ := readTyped_actsOnReader ty w
  obtain rfl := Host.Outcome.next.inj (hpeek.symm.trans (peekTyped_of_readTyped (hact s)))
  obtain rfl := Host.Outcome.next.inj (hread.symm.trans (hact _))
  exact ⟨rfl, rfl⟩

end Sys2Proof.Machine

/-! The writer's commands one by one (43_writer.md R160 to R167). At rest `wpos()` fixes `K.pos` and `W.avail`, so from the bits
a command appends follow the bytes it emits, and the bytes before them stay as the sink grows. -/

namespace Sys2Proof.Machine

/-! ## Appending to the bit string -/

theorem Writer.Inv.kpos_eq_wpos_div {w : Writer} (h : w.Inv) : w.kpos = w.wpos / 8 := by
  have h1 := h.avail_pos
  rw [Writer.wpos]
  omega

theorem Writer.Inv.avail_eq_eight {w : Writer} (h : w.Inv) (hd : 8 ∣ w.wpos) : w.avail = 8 := by
  have h1 := h.avail_pos
  have h8 := h.avail_le
  rw [Writer.wpos] at hd
  omega

theorem Writer.wpos_of_bits_append {w x : Writer} {B : List Bool} (hB : x.bits = w.bits ++ B) :
    x.wpos = w.wpos + B.length := by
  rw [← x.bits_length, ← w.bits_length, hB, List.length_append]

/-- 20_memory.md R63: appending to the bit string emits each byte that becomes whole. -/
theorem Writer.Inv.kpos_of_bits_append {w x : Writer} (hx : x.Inv) {B : List Bool} (hB : x.bits = w.bits ++ B) :
    x.kpos = w.kpos + (8 - w.avail + B.length) / 8 := by
  rw [hx.kpos_eq_wpos_div, Writer.wpos_of_bits_append hB, Writer.wpos]
  omega

theorem Writer.Grows.byte_eq {w x : Writer} (h : w.Grows x) {j : Nat} (hj : j < w.kpos) : x.byte j = w.byte j := by
  rw [Writer.byte, Writer.byte, if_pos hj, if_pos (lt_of_lt_of_le hj h.kpos_le), h.bytes j hj]

/-! ## WPOS, WRITE and WSKIP -/

/-- Settles O42: the command is `complete` on `wpos()` as a word. -/
theorem wposAnswersThePosition : Obligations.WposAnswersThePosition :=
  fun s => ⟨BitVec.ofNat 64 s.wpos, rfl, BitVec.toNat_ofNat _ _⟩

theorem exec_writeOf_ok {ty : VType} {w : Nat} (hok : widthOk ty w = true) (a : Word) (s : State) :
    exec (writeOf ty w a) s = complete 0 (s.withWriter (writeBits a w s.wr)) := by
  rw [exec_writeOf, writeTyped_ok a s hok]

/-- Settles O43: `writeBits_spec` gives the bits appended, and the counts follow from their number. -/
theorem writeAppendsTheLowBits : Obligations.WriteAppendsTheLowBits := by
  intro s ty w a hs hok
  obtain ⟨hinv, hbits, hgrows, -⟩ := writeBits_spec a w s.wr hs.writer (widthOk_le hok)
  have hwpos := Writer.wpos_of_bits_append hbits
  have hkpos := hinv.kpos_of_bits_append hbits
  rw [argBits_length] at hwpos hkpos
  exact ⟨_, exec_writeOf_ok hok a s, hbits, hwpos, hkpos, fun _ => hgrows.byte_eq⟩

/-- Settles O45: `wskip_spec` gives the zeros appended, and the counts follow from their number. -/
theorem wskipAppendsZeros : Obligations.WskipAppendsZeros := by
  intro s a hs
  obtain ⟨hinv, hbits, hgrows, -⟩ := wskip_spec a.toNat s.wr hs.writer
  have hkpos := hinv.kpos_of_bits_append hbits
  rw [List.length_replicate] at hkpos
  exact ⟨_, rfl, hbits, wskip_wpos hs.writer _, hkpos, fun _ => hgrows.byte_eq⟩

/-! ## WALIGN -/

/-- Settles O46: the skip is as long as the distance to the least multiple. -/
theorem walignReachesTheNextMultiple : Obligations.WalignReachesTheNextMultiple := by
  intro s a hs ha
  have hne : a.toNat ≠ 0 := fun h => ha (BitVec.eq_of_toNat_eq h)
  obtain ⟨-, hbits, hgrows, -⟩ := wskip_spec (alignDistance s.wpos a.toNat) s.wr hs.writer
  have hwpos : (wskip (alignDistance s.wpos a.toNat) s.wr).wpos = s.wpos + alignDistance s.wpos a.toNat :=
    wskip_wpos hs.writer _
  refine ⟨_, exec_walign_ok hne s, ?_, ?_, fun m hm hle => ?_, ?_, fun _ => hgrows.byte_eq⟩
  · exact hwpos ▸ dvd_add_alignDistance s.wpos hne
  · exact hwpos ▸ Nat.le_add_right _ _
  · exact hwpos ▸ add_alignDistance_le hne hm hle
  · rw [hwpos, Nat.add_sub_cancel_left, hbits]

/-! ## WFLUSH -/

theorem exec_wflush_partial {s : State} (h : s.wr.avail < 8) :
    exec .wflush s = complete 0 (s.withWriter (emit (8 - s.wr.avail) s.wr)) :=
  if_pos h

theorem exec_wflush_whole {s : State} (h : s.wr.avail = 8) : exec .wflush s = complete 0 s :=
  if_neg h.not_lt

/-- Settles O44: either the byte being filled is emitted, or none is and the position is a multiple of 8 already. -/
theorem wflushForcesOutAPartialByte : Obligations.WflushForcesOutAPartialByte := by
  intro s hs
  have h1 := hs.writer.avail_pos
  rcases Nat.lt_or_eq_of_le hs.writer.avail_le with hlt | heq
  case inl =>
    have hwin := hs.writer.window
    obtain ⟨-, -, hgrows⟩ := emit_spec (8 - s.wr.avail) s.wr hwin (by omega) (by omega)
    have hbyte : (emit (8 - s.wr.avail) s.wr).byte s.wr.kpos = some s.wr.buf := by
      rw [Writer.byte, emit_kpos, if_pos (Nat.lt_succ_self _), (emit_byte _ s.wr hwin).1]
    have hwpos : (emit (8 - s.wr.avail) s.wr).wpos = (s.wr.kpos + 1) * 8 := rfl
    have hold : s.wpos = s.wr.kpos * 8 + (8 - s.wr.avail) := rfl
    exact ⟨_, exec_wflush_partial hlt, fun h => absurd h hlt.ne, fun _ => ⟨rfl, hbyte, rfl, rfl⟩,
      fun _ => hgrows.byte_eq, by omega, by omega, by omega⟩
  case inr =>
    have hwpos : s.wr.wpos = s.wr.kpos * 8 := by
      rw [Writer.wpos, heq]
      rfl
    exact ⟨s.wr, exec_wflush_whole heq, fun _ => rfl, fun h => absurd heq h.ne, fun _ _ => rfl,
      hwpos ▸ Nat.dvd_mul_left _ _, le_rfl, Nat.lt_add_of_pos_right (by decide)⟩

/-- After WFLUSH no byte is partly filled, and the answer is OK. -/
theorem exec_wflush_leaves {s t : State} (hs : s.Inv) (ht : exec .wflush s = .next t) :
    t.wr.avail = 8 ∧ t.resp = some (.okay 0) := by
  rcases Nat.lt_or_eq_of_le hs.writer.avail_le with hlt | heq
  · cases (exec_wflush_partial hlt).symm.trans ht
    exact ⟨rfl, rfl⟩
  · cases (exec_wflush_whole heq).symm.trans ht
    exact ⟨heq, rfl⟩

theorem withAnswer_eq_self {s : State} {a : Response} (h : s.resp = some a) : s.withAnswer a = s := by
  cases s
  cases h
  rfl

/-- A second WFLUSH has nothing to put, and gives the answer that is there. -/
theorem wflush_twice {s t : State} (hs : s.Inv) (ht : exec .wflush s = .next t) : exec .wflush t = .next t := by
  obtain ⟨havail, hresp⟩ := exec_wflush_leaves hs ht
  rw [exec_wflush_whole havail, complete_eq, withAnswer_eq_self hresp]

/-- Settles O52: both commands append the same zeros, and the bit string determines the writer; the second WFLUSH is
`wflush_twice`. -/
theorem flushIsAlignEightAndIdempotent : Obligations.FlushIsAlignEightAndIdempotent := by
  intro s t u v hs ht hu hv
  have htInv := exec_keeps_inv hs ht
  have huInv := exec_keeps_inv hs hu
  have hbits : t.wr.bits = u.wr.bits := by
    obtain ⟨w, hw, hwB⟩ := exec_refines_absWriter hs (i := .wflush) rfl
    obtain ⟨x, hx, hxB⟩ := exec_refines_absWriter hs (i := .walign 8) rfl
    obtain rfl := Host.Outcome.next.inj (ht.symm.trans hw)
    obtain rfl := Host.Outcome.next.inj (hu.symm.trans hx)
    exact hwB.trans hxB.symm
  have htwice : v = t := Host.Outcome.next.inj (hv.symm.trans (wflush_twice hs ht))
  obtain ⟨hbuf, havail, hkpos, hsnk⟩ := bitStringDeterminesTheWriter t.wr u.wr htInv.writer huInv.writer hbits
  exact ⟨hsnk, hkpos, hbuf, havail, htwice⟩

end Sys2Proof.Machine

/-! Runs of commands and the writer (43_writer.md R168): over a script the writer follows the bit-string machine, whatever the
source, since the other units' commands leave the writer and the writer's see nothing else. -/

namespace Sys2Proof.Machine

/-! ## One command, with the writer alone at rest -/

theorem absWriter_isSome (B : List Bool) (i : Instr) : (absWriter B i).isSome = i.isWriter := by
  cases i <;> rfl

theorem exec_leaves_writer {i : Instr} (hi : i.isWriter = false) (s : State) :
    ∃ (t : State) (a : Response), exec i s = .next (t.withAnswer a) ∧ t.wr = s.wr := by
  cases hr : i.isReader with
  | true =>
    obtain ⟨act, hact⟩ := exec_actsOnReader hr
    exact ⟨_, _, hact s, rfl⟩
  | false =>
    obtain ⟨act, hact⟩ := exec_actsOnNothing hr hi
    exact ⟨_, _, hact s, rfl⟩

/-- `exec_refines_absWriter` over any source and reader: the command acts as on a reset machine with the same writer. -/
theorem exec_refines_absWriter_of_writer {i : Instr} {s : State} {out : Response × List Bool} (h : s.wr.Inv)
    (hi : absWriter s.wr.bits i = some out) : RefinesBits s (exec i s) out := by
  have hw : i.isWriter = true := by rw [← absWriter_isSome s.wr.bits, hi, Option.isSome_some]
  obtain ⟨act, hact⟩ := exec_actsOnWriter hw
  obtain ⟨w, hw, hB⟩ := exec_refines_absWriter (s := State.reset.withWriter s.wr) (resetIsAtRest.1.withWriter h) hi
  have hsame := Host.Outcome.next.inj ((hact _).symm.trans hw)
  obtain rfl : (act s.wr).1 = w := congrArg State.wr hsame
  have hans : (act s.wr).2 = out.1 := Option.some.inj (congrArg State.resp hsame)
  exact ⟨_, hans ▸ hact s, hB⟩

theorem exec_keeps_writer_inv {i : Instr} {s t : State} (hs : s.wr.Inv) (ht : exec i s = .next t) : t.wr.Inv := by
  obtain ⟨a, -, rfl⟩ | ⟨v, r, -, -, rfl⟩ | ⟨w, -, hw, rfl⟩ := exec_next ht
  · exact hs
  · exact hs
  · exact (hw hs).1

/-- A command answers; it is one of the bit-string machine, with its answer and bit string, or it leaves the writer. -/
theorem exec_follows_absWriter {s : State} (hs : s.wr.Inv) (i : Instr) :
    ∃ (t : State) (a : Response), exec i s = .next (t.withAnswer a) ∧ t.wr.Inv ∧
      (absWriter s.wr.bits i = some (a, t.wr.bits) ∨ absWriter s.wr.bits i = none ∧ t.wr = s.wr) := by
  cases hi : absWriter s.wr.bits i with
  | some out =>
    obtain ⟨w, hw, hB⟩ := exec_refines_absWriter_of_writer hs hi
    have hinv : w.Inv := exec_keeps_writer_inv (t := (s.withWriter w).withAnswer out.1) hs hw
    exact ⟨s.withWriter w, out.1, hw, hinv, .inl (congrArg some (Prod.ext rfl hB.symm))⟩
  | none =>
    have hw : i.isWriter = false := by rw [← absWriter_isSome s.wr.bits, hi, Option.isSome_none]
    obtain ⟨t, a, ht, hwr⟩ := exec_leaves_writer hw s
    exact ⟨t, a, ht, hwr ▸ hs, .inr ⟨rfl, hwr⟩⟩

/-! ## Scripts -/

theorem runScript_cons_of_exec {i : Instr} {is : List Instr} {s t u : State} {a : Response} {as : List Response}
    (hi : exec i s = .next (t.withAnswer a)) (his : runScript is (t.withAnswer a) = some (as, u)) :
    runScript (i :: is) s = some (a :: as, u) := by
  have hissue : issue i s = some (a, t.withAnswer a) := by simp only [issue, hi, withAnswer_resp]
  rw [runScript, hissue]
  simp only [his]

theorem writtenBits_cons_some {B B' : List Bool} {i : Instr} {a : Response} (h : absWriter B i = some (a, B'))
    (is : List Instr) : writtenBits (i :: is) B = writtenBits is B' := by
  rw [writtenBits, h]

theorem writtenBits_cons_none {B : List Bool} {i : Instr} (h : absWriter B i = none) (is : List Instr) :
    writtenBits (i :: is) B = writtenBits is B := by
  rw [writtenBits, h]

/-- The bit-string machine performs the command and answers OK, whatever was written before. -/
def AlwaysWrites (i : Instr) : Prop := ∀ B, ∃ B', absWriter B i = some (.okay 0, B')

/-- R168 over a script: it runs to its end, and the writer's bit string is what the bit-string machine has written. -/
theorem runScript_follows_writtenBits (is : List Instr) {s : State} (hs : s.wr.Inv) :
    ∃ as t, runScript is s = some (as, t) ∧ t.wr.Inv ∧ t.wr.bits = writtenBits is s.wr.bits ∧
      ((∀ i ∈ is, AlwaysWrites i) → ∀ a ∈ as, a = .okay 0) := by
  induction is generalizing s with
  | nil => exact ⟨[], s, rfl, hs, rfl, fun _ a ha => absurd ha List.not_mem_nil⟩
  | cons i is ih =>
    obtain ⟨t, a, hexec, ht, hfollows⟩ := exec_follows_absWriter hs i
    obtain ⟨as, u, hrun, hu, hbits, hok⟩ := ih (s := t.withAnswer a) ht
    have hwritten : writtenBits (i :: is) s.wr.bits = writtenBits is t.wr.bits := by
      rcases hfollows with hsome | ⟨hnone, hwr⟩
      · exact writtenBits_cons_some hsome is
      · rw [writtenBits_cons_none hnone, hwr]
    refine ⟨a :: as, u, runScript_cons_of_exec hexec hrun, hu, hbits.trans hwritten.symm, fun hall => ?_⟩
    have ha : a = .okay 0 := by
      obtain ⟨B', hB'⟩ := hall i List.mem_cons_self s.wr.bits
      rcases hfollows with hsome | ⟨hnone, -⟩
      · exact (Prod.ext_iff.1 (Option.some.inj (hsome.symm.trans hB'))).1
      · cases hnone.symm.trans hB'
    exact List.forall_mem_cons.2 ⟨ha, hok fun j hj => hall j (List.mem_cons_of_mem _ hj)⟩

theorem resetOver_bits (src : Source) : (State.resetOver src).wr.bits = [] := rfl

/-! ## The bit string as a stream -/

/-- The `n` stream bits of a source from `p` on. -/
def Source.streamBits (src : Source) (p n : Nat) : List Bool := (List.range n).map fun j => src.bit (p + j)

theorem Source.streamBits_length (src : Source) (p n : Nat) : (src.streamBits p n).length = n := by
  rw [streamBits, List.length_map, List.length_range]

theorem Source.streamBits_add (src : Source) (p m n : Nat) :
    src.streamBits p (m + n) = src.streamBits p m ++ src.streamBits (p + m) n := by
  simp only [streamBits, range_add_map, Nat.add_assoc]

theorem Source.streamBits_getElem? (src : Source) (p : Nat) {n j : Nat} (hj : j < n) :
    (src.streamBits p n)[j]? = some (src.bit (p + j)) := by
  rw [streamBits, List.getElem?_map, List.getElem?_range hj, Option.map_some]

/-- A stretch that is split in two is two stretches. -/
theorem Source.streamBits_eq_append {src : Source} {p m n : Nat} {B C : List Bool} (hB : B.length = m)
    (h : src.streamBits p (m + n) = B ++ C) : src.streamBits p m = B ∧ src.streamBits (p + m) n = C := by
  rw [streamBits_add] at h
  exact List.append_inj h ((src.streamBits_length p m).trans hB.symm)

theorem Source.bit_of_byte (src : Source) (i : Nat) {j : Nat} (hj : j < 8) :
    src.bit (8 * i + j) = (src.mem.read i).getLsbD (7 - j) := by
  have hdiv : (8 * i + j) / 8 = i := by omega
  have hmod : (8 * i + j) % 8 = j := by omega
  rw [bit, hdiv, hmod]

theorem Source.byteBits_eq_streamBits (src : Source) (i : Nat) : byteBits (src.mem.read i) = src.streamBits (8 * i) 8 :=
  List.map_congr_left fun _ hj => (src.bit_of_byte i (List.mem_range.1 hj)).symm

theorem Source.flatMap_byteBits (src : Source) (n : Nat) :
    (List.range n).flatMap (fun a => byteBits (src.mem.read a)) = src.streamBits 0 (8 * n) := by
  induction n with
  | zero => rfl
  | succ n ih =>
    rw [List.range_succ, List.flatMap_append, ih, Nat.mul_succ, streamBits_add, Nat.zero_add, ← byteBits_eq_streamBits,
      List.flatMap_singleton]

/-- The bit string is the stream of a reader over the sink, and then the filled bits of the accumulator. -/
theorem Writer.bits_eq_streamBits (w : Writer) :
    w.bits = w.asSource.streamBits 0 (8 * w.kpos) ++ (byteBits w.buf).take (8 - w.avail) := by
  rw [bits, ← Source.flatMap_byteBits]
  rfl

theorem Writer.bits_getElem?_of_sink (w : Writer) {q : Nat} (hq : q < 8 * w.kpos) :
    w.bits[q]? = some (w.asSource.bit q) := by
  rw [bits_eq_streamBits, List.getElem?_append_left ((Source.streamBits_length ..).symm ▸ hq),
    Source.streamBits_getElem? _ _ hq, Nat.zero_add]

theorem Writer.bits_getElem?_of_buf (w : Writer) {j : Nat} (hj : j < 8 - w.avail) :
    w.bits[8 * w.kpos + j]? = some (w.buf.getLsbD (7 - j)) := by
  rw [bits_eq_streamBits, List.getElem?_append_right (by rw [Source.streamBits_length]; omega), Source.streamBits_length,
    Nat.add_sub_cancel_left, byteBits_take _ (Nat.sub_le _ _), List.getElem?_map, List.getElem?_range hj,
    Option.map_some]

/-- Settles O48: the run ends with the bit string of the bit-string machine, which is the sink's bytes and then the
accumulator. -/
theorem contentLawOverRuns : Obligations.ContentLawOverRuns := by
  intro src is
  obtain ⟨as, t, hrun, ht, hbits, -⟩ := runScript_follows_writtenBits is (s := State.resetOver src) resetWriter_inv
  have hwritten : writtenBits is [] = t.wr.bits := resetOver_bits src ▸ hbits.symm
  refine ⟨as, t, hrun, ?_, fun i j hi hj => ?_, fun j hj => ?_, ht.free_zero⟩
  · rw [hwritten, Writer.bits_length]
    rfl
  · rw [hwritten, Writer.bits_getElem?_of_sink _ (by omega), Source.bit_of_byte _ _ hj]
    rfl
  · rw [hwritten, Writer.bits_getElem?_of_buf _ hj]

end Sys2Proof.Machine

/-! The round trip of packed fields (43_writer.md R169): the writes leave the fields' bits in the sink, and a reader over the
sink finds each field's bits at its cursor. -/

namespace Sys2Proof.Machine

/-- The bits of a list of fields, in stream order. -/
def packedBits (fs : List PackedField) : List Bool := fs.flatMap fun f => argBits f.value f.width

theorem packedBits_nil : packedBits [] = [] := rfl

theorem packedBits_cons (f : PackedField) (fs : List PackedField) :
    packedBits (f :: fs) = argBits f.value f.width ++ packedBits fs :=
  List.flatMap_cons

theorem packedBits_length (fs : List PackedField) : (packedBits fs).length = totalWidth fs := by
  induction fs with
  | nil => rfl
  | cons f fs ih => rw [packedBits_cons, List.length_append, argBits_length, ih, totalWidth]

/-! ## Writing -/

theorem absWriter_write {f : PackedField} (hok : widthOk f.vtype f.width = true) (B : List Bool) :
    absWriter B f.write = some (.okay 0, B ++ argBits f.value f.width) := by
  have hrow : absWriter B f.write = some (absWrite B f.vtype f.width f.value) := by
    rw [PackedField.write]
    cases f.vtype <;> rfl
  rw [hrow, absWrite, if_neg (by rw [hok]; decide)]

theorem writtenBits_fields_flush {fs : List PackedField} (hok : ∀ f ∈ fs, widthOk f.vtype f.width = true) (B : List Bool) :
    writtenBits (fs.map PackedField.write ++ [.wflush]) B =
      B ++ packedBits fs ++ List.replicate (alignDistance (B ++ packedBits fs).length 8) false := by
  induction fs generalizing B with
  | nil =>
    rw [packedBits_nil, List.append_nil]
    rfl
  | cons f fs ih =>
    obtain ⟨hf, hfs⟩ := List.forall_mem_cons.1 hok
    rw [List.map_cons, List.cons_append, writtenBits_cons_some (absWriter_write hf B), ih hfs, packedBits_cons,
      ← List.append_assoc B]

theorem fields_flush_alwaysWrite {fs : List PackedField} (hok : ∀ f ∈ fs, widthOk f.vtype f.width = true) :
    ∀ i ∈ fs.map PackedField.write ++ [.wflush], AlwaysWrites i := by
  intro i hi B
  rcases List.mem_append.1 hi with hi | hi
  · obtain ⟨f, hf, rfl⟩ := List.mem_map.1 hi
    exact ⟨_, absWriter_write (hok f hf) B⟩
  · obtain rfl := List.mem_singleton.1 hi
    exact ⟨_, rfl⟩

/-- At a byte boundary the bit string is the whole of the sink. -/
theorem Writer.Inv.streamBits_asSource {w : Writer} (h : w.Inv) (hd : 8 ∣ w.wpos) :
    w.asSource.streamBits 0 (8 * w.kpos) = w.bits := by
  rw [w.bits_eq_streamBits, h.avail_eq_eight hd, Nat.sub_self, List.take_zero, List.append_nil]

/-- Writing fields and flushing leaves the fields' bits in the sink, and at most seven zeros after them. -/
theorem runScript_fields_flush {fs : List PackedField} (hok : ∀ f ∈ fs, widthOk f.vtype f.width = true) (src : Source) :
    ∃ as t, runScript (fs.map PackedField.write ++ [.wflush]) (State.resetOver src) = some (as, t) ∧
      (∀ a ∈ as, a = .okay 0) ∧ 8 * t.wr.kpos = totalWidth fs + alignDistance (totalWidth fs) 8 ∧
      t.wr.asSource.streamBits 0 (totalWidth fs) = packedBits fs ∧
      t.wr.asSource.streamBits (totalWidth fs) (alignDistance (totalWidth fs) 8) =
        List.replicate (alignDistance (totalWidth fs) 8) false := by
  obtain ⟨as, t, hrun, ht, hwritten, hall⟩ := runScript_follows_writtenBits
    (fs.map PackedField.write ++ [.wflush]) (s := State.resetOver src) resetWriter_inv
  have hbits : t.wr.bits = packedBits fs ++ List.replicate (alignDistance (totalWidth fs) 8) false := by
    rw [hwritten, writtenBits_fields_flush hok, resetOver_bits, List.nil_append, packedBits_length]
  have hwpos : t.wr.wpos = totalWidth fs + alignDistance (totalWidth fs) 8 := by
    rw [← t.wr.bits_length, hbits, List.length_append, List.length_replicate, packedBits_length]
  have hd : 8 ∣ t.wr.wpos := hwpos ▸ dvd_add_alignDistance (totalWidth fs) (by decide)
  have hkpos : 8 * t.wr.kpos = totalWidth fs + alignDistance (totalWidth fs) 8 := by
    rw [ht.kpos_eq_wpos_div, Nat.mul_div_cancel' hd, hwpos]
  have hsink := ht.streamBits_asSource hd
  rw [hkpos, hbits] at hsink
  obtain ⟨hfields, hpad⟩ := Source.streamBits_eq_append (packedBits_length fs) hsink
  rw [Nat.zero_add] at hpad
  exact ⟨as, t, hrun, hall (fields_flush_alwaysWrite hok), hkpos, hfields, hpad⟩

/-! ## Reading back -/

/-- A stretch that holds the low bits of a value has that number. -/
theorem streamWord_of_argBits {src : Source} {p w : Nat} {a : Word} (hw : w ≤ 64)
    (h : src.streamBits p w = argBits a w) : BitVec.ofNat 64 (streamValue src p w) = a &&& mask w := by
  refine BitVec.eq_of_getLsbD_eq fun j hj => ?_
  rw [streamWord_getLsbD _ _ _ _ hw, BitVec.getLsbD_and, mask_getLsbD, decide_eq_true hj, Bool.and_true]
  by_cases hjw : j < w
  · have hbit : src.bit (p + (w - 1 - j)) = a.getLsbD (w - 1 - (w - 1 - j)) :=
      List.map_inj_left.1 h (w - 1 - j) (List.mem_range.2 (by omega))
    rw [hbit, Nat.sub_sub_self (by omega), Bool.and_comm]
  · rw [decide_eq_false hjw, Bool.false_and, Bool.and_false]

theorem PackedField.readValue_eq_readBack (f : PackedField) :
    readValue f.vtype f.width (f.value &&& mask f.width) = f.readBack := by
  rw [readBack]
  cases f.vtype <;> rfl

/-- READ of a field whose bits stand at the cursor, with the reader alone at rest. -/
theorem exec_read_field {s : State} (hs : s.rd.Inv s.source) {f : PackedField} (hok : widthOk f.vtype f.width = true)
    (hlen : f.width ≤ s.ravail) (hbits : s.source.streamBits s.rpos f.width = argBits f.value f.width) :
    ∃ r, exec f.read s = .next ((s.withReader r).withAnswer (.okay f.readBack)) ∧ r.Inv s.source ∧
      r.rpos = s.rpos + f.width := by
  have h64 := widthOk_le hok
  obtain ⟨hval, hinv, hpos⟩ := rawRead_spec s.source f.width s.rd hs.window h64 hlen
  have hword : (rawRead s.source f.width s.rd).1 = f.value &&& mask f.width := hval.trans (streamWord_of_argBits h64 hbits)
  refine ⟨_, ?_, hinv, hpos⟩
  rw [PackedField.read, exec_readOf, readTyped_ok hok hlen, hword, f.readValue_eq_readBack, complete_eq]

theorem runScript_reads {fs : List PackedField} (hok : ∀ f ∈ fs, widthOk f.vtype f.width = true) {s : State}
    (hs : s.rd.Inv s.source) (hlen : s.rpos + totalWidth fs ≤ 8 * s.source.len)
    (hbits : s.source.streamBits s.rpos (totalWidth fs) = packedBits fs) :
    ∃ u, runScript (fs.map PackedField.read) s = some (fs.map (fun f => .okay f.readBack), u) ∧
      u.source = s.source ∧ u.rd.Inv u.source ∧ u.rpos = s.rpos + totalWidth fs := by
  induction fs generalizing s with
  | nil => exact ⟨s, rfl, rfl, hs, rfl⟩
  | cons f fs ih =>
    obtain ⟨hf, hfs⟩ := List.forall_mem_cons.1 hok
    rw [totalWidth] at hlen hbits
    obtain ⟨hfield, hrest⟩ := Source.streamBits_eq_append (argBits_length f.value f.width) hbits
    have hleft : f.width ≤ s.ravail := by
      have hsum : s.rpos + s.ravail = 8 * s.source.len := hs.window.rpos_add_ravail
      omega
    obtain ⟨r, hexec, hr, hpos⟩ := exec_read_field hs hf hleft hfield
    have hpos' : ((s.withReader r).withAnswer (.okay f.readBack)).rpos = s.rpos + f.width := hpos
    obtain ⟨u, hrun, hsrc, hu, hend⟩ := ih hfs (s := (s.withReader r).withAnswer (.okay f.readBack)) hr
      (by rw [hpos', Nat.add_assoc]; exact hlen) (by rw [hpos']; exact hrest)
    exact ⟨u, runScript_cons_of_exec hexec hrun, hsrc, hu, by rw [hend, hpos', totalWidth, Nat.add_assoc]⟩

/-- Settles O54: the sink holds the fields' bits and then the padding, and the reads take the fields' bits one by one. -/
theorem writeFlushReadRoundTrip : Obligations.WriteFlushReadRoundTrip := by
  intro src fs hok
  obtain ⟨as, t, hwrite, hall, hkpos, hfields, hpad⟩ := runScript_fields_flush hok src
  have hlt := alignDistance_lt (totalWidth fs) (m := 8) (by decide)
  have hrpos : (State.resetOver t.wr.asSource).rpos = 0 := (refill_spec t.wr.asSource _ (Nat.zero_le _)).2
  have hlen : totalWidth fs ≤ 8 * t.wr.kpos := hkpos ▸ Nat.le_add_right _ _
  obtain ⟨u, hread, hsrc, hu, hend⟩ := runScript_reads hok (s := State.resetOver t.wr.asSource)
    (resetReader_inv t.wr.asSource) (by rw [hrpos, Nat.zero_add]; exact hlen) (by rw [hrpos]; exact hfields)
  have hleft : u.ravail = 8 * t.wr.kpos - totalWidth fs := by
    have hsum : u.rpos + u.ravail = 8 * u.source.len := hu.window.rpos_add_ravail
    have hsrcLen : u.source.len = t.wr.kpos := congrArg Source.len hsrc
    omega
  refine ⟨as, t, u, hwrite, hall, hread, hleft, by omega, fun q hge hq => ?_⟩
  obtain ⟨j, rfl⟩ := Nat.exists_eq_add_of_le hge
  have hj : j < alignDistance (totalWidth fs) 8 := by omega
  have hzero := t.wr.asSource.streamBits_getElem? (totalWidth fs) hj
  rw [hpad, List.getElem?_replicate_of_lt hj] at hzero
  exact (Option.some.inj hzero).symm

end Sys2Proof.Machine

/-! The codecs (44_codecs.md R180 to R186). A codec routine only reads or only writes, so each is run on a machine with that
unit alone at rest: the writing routines are lists of fields, whose bits are appended in turn, and the reading routines find
at the cursor the bits that stand there. The round trips join the two over the bytes of the sink. -/

namespace Sys2Proof.Machine

theorem issue_of_exec {i : Instr} {s t : State} {a : Response} (h : exec i s = .next (t.withAnswer a)) :
    issue i s = some (a, t.withAnswer a) := by
  simp only [issue, h, withAnswer_resp]

/-! ## Reading from the stream -/

/-- `t` is `s` with the reader moved on by `n` bits, the reader at rest, and no other part changed but the answer. -/
structure State.Consumes (s : State) (n : Nat) (t : State) : Prop where
  reader : t.rd.Inv t.source
  rpos : t.rpos = s.rpos + n
  writer : t.wr = s.wr
  source : t.source = s.source
  input : t.input = s.input

theorem State.Consumes.refl {s : State} (hs : s.rd.Inv s.source) : s.Consumes 0 s := ⟨hs, rfl, rfl, rfl, rfl⟩

theorem State.Consumes.trans {s t u : State} {m n : Nat} (h : s.Consumes m t) (k : t.Consumes n u) :
    s.Consumes (m + n) u :=
  ⟨k.reader, by rw [k.rpos, h.rpos, Nat.add_assoc], k.writer.trans h.writer, k.source.trans h.source,
    k.input.trans h.input⟩

/-- What is consumed is no longer available (R25 I7). -/
theorem State.Consumes.ravail {s t : State} {n : Nat} (h : s.Consumes n t) (hs : s.rd.Inv s.source) :
    n + t.ravail = s.ravail := by
  have hsumS : s.rpos + s.ravail = 8 * s.source.len := hs.window.rpos_add_ravail
  have hsumT : t.rpos + t.ravail = 8 * t.source.len := h.reader.window.rpos_add_ravail
  rw [h.source, h.rpos] at hsumT
  omega

theorem vtypeBits_unsigned_pos (ts : TSize) : 1 ≤ vtypeBits (.unsigned ts) := by cases ts <;> decide

theorem vtypeBits_unsigned_le (ts : TSize) : vtypeBits (.unsigned ts) ≤ 64 := by cases ts <;> decide

/-- A READ the stream can serve, with the reader alone at rest. -/
theorem issue_readU_ok {s : State} (hs : s.rd.Inv s.source) {ts : TSize} {w : Nat} (hok : w ≤ vtypeBits (.unsigned ts))
    (hw : w ≤ s.ravail) :
    ∃ t, issue (.readU ts w) s = some (.okay (BitVec.ofNat 64 (streamValue s.source s.rpos w)), t) ∧ s.Consumes w t := by
  obtain ⟨hval, hinv, hpos⟩ := rawRead_spec s.source w s.rd hs.window (hok.trans (vtypeBits_unsigned_le ts)) hw
  have hexec : exec (.readU ts w) s = _ := readTyped_ok (t := .unsigned ts) (decide_eq_true hok) hw
  rw [complete_eq, hval] at hexec
  exact ⟨_, issue_of_exec hexec, ⟨hinv, hpos, rfl, rfl, rfl⟩⟩

theorem issue_readU_eos {s : State} {ts : TSize} {w : Nat} (hok : w ≤ vtypeBits (.unsigned ts)) (hw : s.ravail < w) :
    issue (.readU ts w) s = some (.error .eos, s.withAnswer (.error .eos)) :=
  issue_of_exec (readTyped_eos (t := .unsigned ts) (decide_eq_true hok) hw)

/-! ## The zero-counting loop of UE.RD -/

theorem streamValue_one (src : Source) (p : Nat) : streamValue src p 1 = (src.bit p).toNat := Nat.zero_add _

/-- One pass with a bit left: a one ends the loop, a zero is counted. -/
theorem ueCount_of_bit (ts : TSize) (passes k : Nat) {s : State} (hs : s.rd.Inv s.source) (hleft : 1 ≤ s.ravail) :
    ∃ t, s.Consumes 1 t ∧ ueCount ts (passes + 1) k s =
      if s.source.bit s.rpos = true then (t, .yield k) else ueCount ts passes (k + 1) t := by
  obtain ⟨t, hissue, ht⟩ := issue_readU_ok hs (vtypeBits_unsigned_pos ts) hleft
  refine ⟨t, ht, ?_⟩
  simp only [ueCount, hissue, streamValue_one, okay_status, okay_result, if_true]
  cases s.source.bit s.rpos <;> rfl

/-- One pass with no bit left. -/
theorem ueCount_of_depleted (ts : TSize) (passes k : Nat) {s : State} (hnone : s.ravail = 0) :
    ueCount ts (passes + 1) k s = (s.withAnswer (.error .eos), .fail .eos) := by
  have hissue := issue_readU_eos (s := s) (vtypeBits_unsigned_pos ts) (by omega)
  rw [ueCount, hissue]
  rfl

/-- A run of zeros is consumed, each counted. -/
theorem ueCount_skips_zeros (ts : TSize) (passes : Nat) {s : State} (hs : s.rd.Inv s.source) {c : Nat} (k : Nat)
    (hleft : c ≤ s.ravail) (hzeros : ∀ j, j < c → s.source.bit (s.rpos + j) = false) :
    ∃ t, s.Consumes c t ∧ ueCount ts (passes + c) k s = ueCount ts passes (k + c) t := by
  induction c generalizing s k with
  | zero => exact ⟨s, .refl hs, rfl⟩
  | succ c ih =>
    obtain ⟨t, ht, hpass⟩ := ueCount_of_bit ts (passes + c) k hs (by omega)
    have hbit : s.source.bit s.rpos = false := hzeros 0 c.succ_pos
    have hrest : ∀ j, j < c → t.source.bit (t.rpos + j) = false := fun j hj => by
      rw [ht.source, ht.rpos, Nat.add_assoc, Nat.add_comm 1]
      exact hzeros (j + 1) (Nat.succ_lt_succ hj)
    have hleft' := ht.ravail hs
    obtain ⟨u, hu, hloop⟩ := ih ht.reader (k + 1) (by omega) hrest
    refine ⟨u, Nat.add_comm 1 c ▸ ht.trans hu, ?_⟩
    rw [← Nat.add_assoc, hpass, if_neg (by rw [hbit]; decide), hloop, Nat.add_assoc, Nat.add_comm 1]

/-- Where a code begins: the loop counts its zeros and consumes its one. -/
theorem ueCount_of_zeros_one (ts : TSize) {s : State} (hs : s.rd.Inv s.source) {c : Nat} (hleft : c + 1 ≤ s.ravail)
    (hzeros : ∀ j, j < c → s.source.bit (s.rpos + j) = false) (hone : s.source.bit (s.rpos + c) = true) :
    ∃ t, s.Consumes (c + 1) t ∧ ueCount ts (s.ravail + 1) 0 s = (t, .yield c) := by
  obtain ⟨passes, hpasses⟩ := Nat.exists_eq_add_of_le' hleft
  obtain ⟨t, ht, hskip⟩ := ueCount_skips_zeros ts (passes + 2) hs 0 (by omega) hzeros
  have hleft' := ht.ravail hs
  obtain ⟨u, hu, hpass⟩ := ueCount_of_bit ts (passes + 1) c ht.reader (by omega)
  refine ⟨u, ht.trans hu, ?_⟩
  rw [show s.ravail + 1 = passes + 2 + c by omega, hskip, Nat.zero_add, hpass, if_pos (by rw [ht.source, ht.rpos, hone])]

/-- A stream of zeros: the loop consumes it all and ends with EOS. -/
theorem ueCount_of_zeros (ts : TSize) {s : State} (hs : s.rd.Inv s.source)
    (hzeros : ∀ j, j < s.ravail → s.source.bit (s.rpos + j) = false) :
    ∃ t, t.rpos = 8 * s.source.len ∧ ueCount ts (s.ravail + 1) 0 s = (t, .fail .eos) := by
  obtain ⟨t, ht, hskip⟩ := ueCount_skips_zeros ts 1 hs 0 le_rfl hzeros
  have hnone : t.ravail = 0 := by
    have := ht.ravail hs
    omega
  have hend : t.rpos = 8 * s.source.len := ht.rpos.trans hs.window.rpos_add_ravail
  exact ⟨t.withAnswer (.error .eos), hend, by rw [Nat.add_comm, hskip, ueCount_of_depleted ts 0 _ hnone]⟩

/-! ## UE.RD -/

theorem ueRead_of_count_lt {ts : TSize} {s t u : State} {c : Nat} {v : Word}
    (hcount : ueCount ts (s.ravail + 1) 0 s = (t, .yield c)) (hc : c < vtypeBits (.unsigned ts))
    (hread : issue (.readU ts c) t = some (.okay v, u)) : ueRead ts s = (u, .yield ((2 ^ c ||| v.toNat) - 1)) := by
  simp only [ueRead, hcount, if_neg (Nat.not_le.2 hc), hread, okay_status, okay_result, if_true]

/-- UE.RD on a code, with the reader alone at rest. -/
theorem ueRead_of_code {ts : TSize} {s : State} (hs : s.rd.Inv s.source) {c : Nat} (hc : c < vtypeBits (.unsigned ts))
    (hleft : 2 * c + 1 ≤ s.ravail) (hzeros : ∀ j, j < c → s.source.bit (s.rpos + j) = false)
    (hone : s.source.bit (s.rpos + c) = true) :
    ∃ t, s.Consumes (2 * c + 1) t ∧
      ueRead ts s = (t, .yield (2 ^ c + streamValue s.source (s.rpos + c + 1) c - 1)) := by
  obtain ⟨t, ht, hcount⟩ := ueCount_of_zeros_one ts hs (by omega) hzeros hone
  have hleft' := ht.ravail hs
  obtain ⟨u, hread, hu⟩ := issue_readU_ok ht.reader hc.le (by omega)
  have h64 : c ≤ 64 := hc.le.trans (vtypeBits_unsigned_le ts)
  have hor := Nat.two_pow_add_eq_or_of_lt (streamValue_lt s.source (s.rpos + c + 1) c) 1
  rw [Nat.mul_one] at hor
  refine ⟨u, (show c + 1 + c = 2 * c + 1 by omega) ▸ ht.trans hu, ?_⟩
  rw [ueRead_of_count_lt hcount hc hread, streamWord_toNat _ _ _ h64, ht.source, ht.rpos, ← Nat.add_assoc, hor]

/-- Settles O56: the loop stops at the one, and the READ after it gives the suffix, which lies below `2^c`. -/
theorem expGolombReadsTheCode : Obligations.ExpGolombReadsTheCode := by
  intro ts s c hs hc hleft hzeros hone
  obtain ⟨t, ht, hread⟩ := ueRead_of_code hs.reader hc hleft hzeros hone
  exact ⟨t, hread, ht.rpos, ht.writer, ht.source, ht.input⟩

/-- Settles O57: both failures follow the loop, which has consumed the zeros and the one, or all that was
left. -/
theorem expGolombReadFailuresConsumeThePrefix : Obligations.ExpGolombReadFailuresConsumeThePrefix := by
  intro ts s hs
  refine ⟨fun c hc hleft hzeros hone => ?long, fun hzeros => ?zeros⟩
  case long =>
    obtain ⟨t, ht, hcount⟩ := ueCount_of_zeros_one ts hs.reader hleft hzeros hone
    exact ⟨t, by simp only [ueRead, hcount, if_pos hc], ht.rpos⟩
  case zeros =>
    obtain ⟨t, hend, hcount⟩ := ueCount_of_zeros ts hs.reader hzeros
    exact ⟨t, by simp only [ueRead, hcount], hend⟩

/-! ## Writing fields -/

theorem issueAll_cons_of_exec {i : Instr} {is : List Instr} {s t : State} {v : Word}
    (hi : exec i s = .next (t.withAnswer (.okay v))) : issueAll (i :: is) s = issueAll is (t.withAnswer (.okay v)) := by
  simp only [issueAll, issue_of_exec hi, okay_status, if_true]

/-- Writing fields appends their bits, with the writer alone at rest. -/
theorem issueAll_writes {fs : List PackedField} (hok : ∀ f ∈ fs, widthOk f.vtype f.width = true) {s : State}
    (hs : s.wr.Inv) :
    ∃ t, issueAll (fs.map PackedField.write) s = (t, .yield ()) ∧ t.wr.Inv ∧ t.wr.bits = s.wr.bits ++ packedBits fs ∧
      t.rd = s.rd ∧ t.source = s.source ∧ t.input = s.input := by
  induction fs generalizing s with
  | nil => exact ⟨s, rfl, hs, (List.append_nil _).symm, rfl, rfl, rfl⟩
  | cons f fs ih =>
    obtain ⟨hf, hfs⟩ := List.forall_mem_cons.1 hok
    obtain ⟨x, hexec, hbits⟩ := exec_refines_absWriter_of_writer hs (absWriter_write hf s.wr.bits)
    have hx : x.Inv := exec_keeps_writer_inv hs hexec
    obtain ⟨t, hrun, ht, htbits, hframe⟩ := ih hfs (s := (s.withWriter x).withAnswer (.okay 0)) hx
    have hx' : ((s.withWriter x).withAnswer (.okay 0)).wr.bits = s.wr.bits ++ argBits f.value f.width := hbits
    refine ⟨t, (issueAll_cons_of_exec hexec).trans hrun, ht, ?_, hframe⟩
    rw [htbits, hx', packedBits_cons, List.append_assoc]

theorem argBits_and_mask (a : Word) {n : Nat} (h : n ≤ 64) : argBits (a &&& mask n) n = argBits a n := by
  refine List.map_congr_left fun j hj => ?_
  have hj' := List.mem_range.1 hj
  have hn : n - 1 - j < n := by omega
  have h64 : n - 1 - j < 64 := by omega
  rw [BitVec.getLsbD_and, mask_getLsbD, decide_eq_true hn, decide_eq_true h64, Bool.and_self, Bool.and_true]

theorem argBits_zero (n : Nat) : argBits 0 n = List.replicate n false :=
  range_map_const n false _ fun _ _ => BitVec.getLsbD_zero

/-! ## UE.WR -/

/-- R183: the order-0 exponential-Golomb code of `x`. -/
def ueCode (x : Nat) : List Bool :=
  List.replicate (Nat.log2 (x + 1)) false ++ [true] ++ argBits (BitVec.ofNat 64 (x + 1)) (Nat.log2 (x + 1))

theorem ueCode_length (x : Nat) : (ueCode x).length = 2 * Nat.log2 (x + 1) + 1 := by
  simp only [ueCode, List.length_append, List.length_replicate, List.length_singleton, argBits_length]
  omega

/-- The WRITEs of UE.WR as fields; those of width 0 are left out for the value 0. -/
def ueFields (ts : TSize) (x : Nat) : List PackedField :=
  if x = 0 then [⟨.unsigned ts, 1, 1⟩]
  else [⟨.unsigned ts, Nat.log2 (x + 1), 0⟩, ⟨.unsigned ts, 1, 1⟩,
    ⟨.unsigned ts, Nat.log2 (x + 1), BitVec.ofNat 64 (x + 1) &&& mask (Nat.log2 (x + 1))⟩]

theorem log2_lt_vtypeBits {ts : TSize} {x : Nat} (hx : x + 2 ≤ 2 ^ vtypeBits (.unsigned ts)) :
    Nat.log2 (x + 1) < vtypeBits (.unsigned ts) :=
  (Nat.log2_lt x.succ_ne_zero).2 (by omega)

theorem ueWrite_eq_issueAll {ts : TSize} {x : Nat} (hx : x + 2 ≤ 2 ^ vtypeBits (.unsigned ts)) (s : State) :
    ueWrite ts x s = issueAll ((ueFields ts x).map PackedField.write) s := by
  rw [ueWrite, ueFields]
  split
  · rfl
  · rw [if_neg (by omega)]
    rfl

theorem ueFields_widthOk {ts : TSize} {x : Nat} (hx : x + 2 ≤ 2 ^ vtypeBits (.unsigned ts)) :
    ∀ f ∈ ueFields ts x, widthOk f.vtype f.width = true := by
  have hone : widthOk (.unsigned ts) 1 = true := decide_eq_true (vtypeBits_unsigned_pos ts)
  have hlog : widthOk (.unsigned ts) (Nat.log2 (x + 1)) = true := decide_eq_true (log2_lt_vtypeBits hx).le
  rw [ueFields]
  split
  · exact List.forall_mem_singleton.2 hone
  · exact List.forall_mem_cons.2 ⟨hlog, List.forall_mem_cons.2 ⟨hone, List.forall_mem_singleton.2 hlog⟩⟩

theorem packedBits_ueFields {ts : TSize} {x : Nat} (hx : x + 2 ≤ 2 ^ vtypeBits (.unsigned ts)) :
    packedBits (ueFields ts x) = ueCode x := by
  have h64 : Nat.log2 (x + 1) ≤ 64 := (log2_lt_vtypeBits hx).le.trans (vtypeBits_unsigned_le ts)
  have hone : argBits 1 1 = [true] := by decide
  rw [ueFields]
  split
  case isTrue h0 =>
    subst h0
    rw [packedBits_cons, packedBits_nil, hone]
    decide
  case isFalse =>
    simp only [packedBits_cons, packedBits_nil, argBits_zero, argBits_and_mask _ h64, hone, ueCode, List.append_nil,
      List.append_assoc]

/-- UE.WR on a value of the domain, with the writer alone at rest. -/
theorem ueWrite_ok {ts : TSize} {x : Nat} (hx : x + 2 ≤ 2 ^ vtypeBits (.unsigned ts)) {s : State} (hs : s.wr.Inv) :
    ∃ t, ueWrite ts x s = (t, .yield ()) ∧ t.wr.Inv ∧ t.wr.bits = s.wr.bits ++ ueCode x ∧
      t.rd = s.rd ∧ t.source = s.source ∧ t.input = s.input := by
  rw [ueWrite_eq_issueAll hx, ← packedBits_ueFields hx]
  exact issueAll_writes (ueFields_widthOk hx) hs

/-- Settles O55: the fields UE.WR writes make up the code; the largest value meets the test before the
first WRITE. -/
theorem expGolombWritesTheCode : Obligations.ExpGolombWritesTheCode := by
  refine ⟨fun ts x c s hs hx hc => ?code, fun ts s => ?refused⟩
  case code =>
    obtain ⟨t, hrun, -, hbits, hframe⟩ := ueWrite_ok hx hs.writer
    subst hc
    exact ⟨t, hrun, by rw [hbits, ueCode, ← List.append_assoc, ← List.append_assoc], hframe⟩
  case refused =>
    have hpow : 2 ^ 1 ≤ 2 ^ vtypeBits (.unsigned ts) := Nat.pow_le_pow_right (by decide) (vtypeBits_unsigned_pos ts)
    rw [ueWrite, if_neg (by omega), if_pos le_rfl]

/-! ## Reading back what was written -/

theorem resetOver_rpos (src : Source) : (State.resetOver src).rpos = 0 := (refill_spec src _ (Nat.zero_le _)).2

theorem resetOver_ravail (src : Source) : (State.resetOver src).ravail = 8 * src.len := by
  have hsum : (State.resetOver src).rpos + (State.resetOver src).ravail = 8 * src.len :=
    (resetReader_inv src).window.rpos_add_ravail
  rwa [resetOver_rpos, Nat.zero_add] at hsum

/-- At a byte boundary the sink, as a source, starts with what the bit string starts with. -/
theorem Writer.Inv.streamBits_of_bits {w : Writer} (h : w.Inv) (hd : 8 ∣ w.wpos) {B C : List Bool}
    (hB : w.bits = B ++ C) : w.asSource.streamBits 0 B.length = B ∧ B.length ≤ 8 * w.kpos := by
  have hsink := h.streamBits_asSource hd
  have hlen : 8 * w.kpos = B.length + C.length := by
    rw [h.kpos_eq_wpos_div, Nat.mul_div_cancel' hd, ← w.bits_length, hB, List.length_append]
  rw [hlen, hB] at hsink
  exact ⟨(Source.streamBits_eq_append rfl hsink).1, hlen ▸ Nat.le_add_right _ _⟩

/-- WFLUSH from a writer at rest: zeros up to a byte boundary. -/
theorem exec_wflush_pads {s : State} (hs : s.wr.Inv) :
    ∃ t, exec .wflush s = .next t ∧ t.wr.Inv ∧ 8 ∣ t.wr.wpos ∧ ∃ C, t.wr.bits = s.wr.bits ++ C := by
  obtain ⟨x, hexec, hbits⟩ := exec_refines_absWriter_of_writer hs (i := .wflush) rfl
  refine ⟨_, hexec, exec_keeps_writer_inv hs hexec, ?_, _, hbits⟩
  have hwpos := x.bits_length
  rw [hbits, List.length_append, List.length_replicate] at hwpos
  exact hwpos ▸ dvd_add_alignDistance s.wr.bits.length (by decide)

theorem Source.bit_of_streamBits {src : Source} {p n j : Nat} {B : List Bool} (h : src.streamBits p n = B) (hj : j < n) :
    B[j]? = some (src.bit (p + j)) := h ▸ src.streamBits_getElem? p hj

/-- The suffix of the code of `x` completes the value. -/
theorem two_pow_log2_add_suffix {ts : TSize} {x : Nat} (hx : x + 2 ≤ 2 ^ vtypeBits (.unsigned ts)) :
    2 ^ Nat.log2 (x + 1) + (BitVec.ofNat 64 (x + 1) &&& mask (Nat.log2 (x + 1))).toNat - 1 = x := by
  have hW := vtypeBits_unsigned_le ts
  have hpow : 2 ^ vtypeBits (.unsigned ts) ≤ 2 ^ 64 := Nat.pow_le_pow_right (by decide) hW
  have hlow : 2 ^ Nat.log2 (x + 1) ≤ x + 1 := Nat.log2_self_le x.succ_ne_zero
  have hhigh : x + 1 < 2 ^ (Nat.log2 (x + 1) + 1) := Nat.lt_log2_self
  rw [Nat.pow_succ] at hhigh
  rw [and_mask_toNat _ ((log2_lt_vtypeBits hx).le.trans hW), BitVec.toNat_ofNat, Nat.mod_eq_of_lt (a := x + 1) (by omega),
    Nat.mod_eq_sub_mod hlow, Nat.mod_eq_of_lt (by omega)]
  omega

/-- UE.RD where the stream holds the code of `x`, with the reader alone at rest. -/
theorem ueRead_of_ueCode {ts : TSize} {x : Nat} (hx : x + 2 ≤ 2 ^ vtypeBits (.unsigned ts)) {s : State}
    (hs : s.rd.Inv s.source) (hleft : (ueCode x).length ≤ s.ravail)
    (hcode : s.source.streamBits s.rpos (ueCode x).length = ueCode x) :
    ∃ t, s.Consumes (ueCode x).length t ∧ ueRead ts s = (t, .yield x) := by
  have hc := log2_lt_vtypeBits hx
  rw [ueCode_length] at hleft hcode ⊢
  generalize hlog : Nat.log2 (x + 1) = c at hc hleft hcode ⊢
  rw [ueCode, hlog, List.append_assoc, show 2 * c + 1 = c + (1 + c) by omega] at hcode
  obtain ⟨hlead, hrest⟩ := Source.streamBits_eq_append List.length_replicate hcode
  obtain ⟨hmark, hsuffix⟩ := Source.streamBits_eq_append List.length_singleton hrest
  have hzeros : ∀ j, j < c → s.source.bit (s.rpos + j) = false := fun j hj => by
    have hj' := Source.bit_of_streamBits hlead hj
    rw [List.getElem?_replicate_of_lt hj] at hj'
    exact (Option.some.inj hj').symm
  have hone : s.source.bit (s.rpos + c) = true := List.singleton_inj.1 hmark
  obtain ⟨t, ht, hread⟩ := ueRead_of_code hs hc hleft hzeros hone
  have h64 : c ≤ 64 := hc.le.trans (vtypeBits_unsigned_le ts)
  have hvalue : 2 ^ c + streamValue s.source (s.rpos + c + 1) c - 1 = x := by
    rw [← streamWord_toNat _ _ _ h64, streamWord_of_argBits h64 hsuffix, ← hlog, two_pow_log2_add_suffix hx]
  exact ⟨t, ht, hvalue ▸ hread⟩

/-- Settles O58: UE.WR leaves the code in the bit string, WFLUSH carries it into the sink, and UE.RD finds it there. -/
theorem expGolombRoundTrip : Obligations.ExpGolombRoundTrip := by
  intro src ts x hx
  obtain ⟨t, hwrite, ht, hcode, -⟩ := ueWrite_ok hx (s := State.resetOver src) resetWriter_inv
  rw [resetOver_bits, List.nil_append] at hcode
  have hwpos : t.wpos = 2 * Nat.log2 (x + 1) + 1 := by
    rw [← ueCode_length, ← hcode]
    exact t.wr.bits_length.symm
  have hbound := log2_lt_vtypeBits hx
  obtain ⟨u, hflush, hu, hd, C, hbits⟩ := exec_wflush_pads ht
  obtain ⟨hstream, hlen⟩ := hu.streamBits_of_bits hd (hcode ▸ hbits)
  obtain ⟨v, hv, hread⟩ := ueRead_of_ueCode hx (s := State.resetOver u.wr.asSource) (resetReader_inv _)
    ((resetOver_ravail _).symm ▸ hlen) ((resetOver_rpos _).symm ▸ hstream)
  refine ⟨t, u, v, hwrite, hwpos, by omega, hflush, hread, ?_⟩
  rw [hv.rpos, resetOver_rpos, Nat.zero_add, ueCode_length]

/-! ## SZ.WR and SZ.RD -/

/-- A byte as the field SZ.WR writes for it. -/
def byteField (b : Byte) : PackedField := ⟨.unsigned .b8, 8, b.setWidth 64⟩

/-- R186: the fields of a string: its bytes and the terminator. -/
def szFields (bytes : List Byte) : List PackedField := bytes.map byteField ++ [byteField 0]

theorem szFields_cons (b : Byte) (bytes : List Byte) : szFields (b :: bytes) = byteField b :: szFields bytes := rfl

theorem szWrite_eq_issueAll (bytes : List Byte) (s : State) :
    szWrite bytes s = issueAll ((szFields bytes).map PackedField.write) s := by
  rw [szWrite, szFields, List.map_append, List.map_map]
  rfl

theorem szFields_widthOk (bytes : List Byte) : ∀ f ∈ szFields bytes, widthOk f.vtype f.width = true := by
  induction bytes with
  | nil => exact List.forall_mem_singleton.2 rfl
  | cons b bytes ih => exact List.forall_mem_cons.2 ⟨rfl, ih⟩

theorem totalWidth_szFields (bytes : List Byte) : totalWidth (szFields bytes) = 8 * (bytes.length + 1) := by
  induction bytes with
  | nil => rfl
  | cons b bytes ih =>
    rw [szFields_cons, totalWidth, ih, List.length_cons, Nat.mul_succ 8 (bytes.length + 1), Nat.add_comm]
    rfl

/-- A READ of eight bits that hold the byte `b`. -/
theorem issue_read_byte {s : State} (hs : s.rd.Inv s.source) (hleft : 8 ≤ s.ravail) {b : Byte}
    (hbits : s.source.streamBits s.rpos 8 = argBits (b.setWidth 64) 8) :
    ∃ t, issue (.readU .b8 8) s = some (.okay (b.setWidth 64), t) ∧ s.Consumes 8 t := by
  have hword : BitVec.ofNat 64 (streamValue s.source s.rpos 8) = b.setWidth 64 := by
    rw [streamWord_of_argBits (by decide) hbits]
    refine BitVec.eq_of_toNat_eq ?_
    have hb := b.isLt
    rw [and_mask_toNat _ (by decide), BitVec.toNat_setWidth]
    omega
  exact hword ▸ issue_readU_ok hs (ts := .b8) (w := 8) (by decide) hleft

/-- One pass of SZ.RD over the byte `b`: a zero ends the string, another byte is appended to it. -/
theorem szLoop_of_byte (passes : Nat) (acc : List Byte) {s : State} (hs : s.rd.Inv s.source) (hleft : 8 ≤ s.ravail)
    {b : Byte} (hbits : s.source.streamBits s.rpos 8 = argBits (b.setWidth 64) 8) :
    ∃ t, s.Consumes 8 t ∧ szLoop (passes + 1) acc s = if b = 0 then (t, .yield acc) else szLoop passes (acc ++ [b]) t := by
  obtain ⟨t, hissue, ht⟩ := issue_read_byte hs hleft hbits
  have hzero : b.setWidth 64 = 0 ↔ b = 0 := by
    constructor
    · intro h
      bv_omega
    · rintro rfl
      rfl
  have hback : (b.setWidth 64).setWidth 8 = b := by bv_omega
  refine ⟨t, ht, ?_⟩
  simp only [szLoop, hissue, okay_status, okay_result, if_true, hzero, hback]

theorem szLoop_of_szFields {bytes : List Byte} (hne : ∀ b ∈ bytes, b ≠ 0) {passes : Nat} (hp : bytes.length < passes)
    (acc : List Byte) {s : State} (hs : s.rd.Inv s.source) (hleft : 8 * (bytes.length + 1) ≤ s.ravail)
    (hbits : s.source.streamBits s.rpos (8 * (bytes.length + 1)) = packedBits (szFields bytes)) :
    ∃ t, s.Consumes (8 * (bytes.length + 1)) t ∧ szLoop passes acc s = (t, .yield (acc ++ bytes)) := by
  induction bytes generalizing passes acc s with
  | nil =>
    obtain ⟨passes, rfl⟩ := Nat.exists_eq_succ_of_ne_zero hp.ne'
    obtain ⟨t, ht, hpass⟩ := szLoop_of_byte passes acc hs hleft (b := 0) hbits
    exact ⟨t, ht, by rw [hpass, if_pos rfl, List.append_nil]⟩
  | cons b bytes ih =>
    obtain ⟨hb, hne'⟩ := List.forall_mem_cons.1 hne
    obtain ⟨passes, rfl⟩ := Nat.exists_eq_succ_of_ne_zero (Nat.ne_zero_of_lt hp)
    have hlen : 8 * ((b :: bytes).length + 1) = 8 + 8 * (bytes.length + 1) := by
      rw [List.length_cons]
      omega
    rw [hlen] at hleft hbits ⊢
    rw [szFields_cons, packedBits_cons] at hbits
    obtain ⟨hbyte, hrest⟩ := Source.streamBits_eq_append (argBits_length _ _) hbits
    obtain ⟨t, ht, hpass⟩ := szLoop_of_byte passes acc hs (by omega) hbyte
    have hleft' := ht.ravail hs
    obtain ⟨u, hu, hloop⟩ := ih hne' (Nat.lt_of_succ_lt_succ hp) (acc ++ [b]) ht.reader (by omega)
      (by rw [ht.source, ht.rpos, hrest])
    exact ⟨u, ht.trans hu, by rw [hpass, if_neg hb, hloop, List.append_assoc, List.singleton_append]⟩

/-- Settles O59: the fields of the string are whole bytes, so they are in the sink without a flush, and SZ.RD takes them byte
by byte. -/
theorem stringRoundTrip : Obligations.StringRoundTrip := by
  intro src bytes hne
  obtain ⟨t, hwrite, ht, hbits, -⟩ := issueAll_writes (szFields_widthOk bytes) (s := State.resetOver src) resetWriter_inv
  rw [resetOver_bits, List.nil_append] at hbits
  have hlength := packedBits_length (szFields bytes)
  rw [totalWidth_szFields] at hlength
  have hwpos : t.wr.wpos = 8 * (bytes.length + 1) := by rw [← t.wr.bits_length, hbits, hlength]
  obtain ⟨hstream, hlen⟩ := ht.streamBits_of_bits (hwpos ▸ Nat.dvd_mul_right _ _)
    (hbits.trans (List.append_nil _).symm)
  rw [hlength] at hstream hlen
  have hleft : 8 * (bytes.length + 1) ≤ (State.resetOver t.wr.asSource).ravail := (resetOver_ravail _).symm ▸ hlen
  obtain ⟨v, hv, hread⟩ := szLoop_of_szFields hne (passes := (State.resetOver t.wr.asSource).ravail / 8 + 1) (by omega) []
    (resetReader_inv _) hleft ((resetOver_rpos _).symm ▸ hstream)
  exact ⟨t, v, szWrite_eq_issueAll bytes _ ▸ hwrite, hwpos, hread, by rw [hv.rpos, resetOver_rpos, Nat.zero_add]⟩

end Sys2Proof.Machine

/-! Errors (60_exceptions.md): `statusOf` is the status of every command as a function of the state, and `exec_endsWith` says
that the engine follows it. From it: which command raises what and when, what an error leaves behind, and when a step is
refused. -/

namespace Sys2Proof.Machine

/-! ## Ending with a status -/

/-- A command that begins in `s` ends with status `e`, and an error gives the answer and writes nothing else (R209, R210). -/
def EndsWith (s : State) (res : Result) (e : Status) : Prop :=
  ∃ t v, res = .next t ∧ t.resp = some { status := e, result := v } ∧ (e ≠ .ok → t = s.withAnswer (.error e))

theorem raise_endsWith (e : Status) (s : State) : EndsWith s (raise e s) e := ⟨_, 0, rfl, rfl, fun _ => rfl⟩

theorem complete_endsWith (v : Word) (s t : State) : EndsWith s (complete v t) .ok := ⟨_, v, rfl, rfl, absurd rfl⟩

theorem EndsWith.ite {s : State} {p : Prop} [Decidable p] {f g : Result} {e d : Status} (hf : EndsWith s f e)
    (hg : EndsWith s g d) : EndsWith s (if p then f else g) (if p then e else d) := by
  by_cases hp : p
  · simpa only [if_pos hp] using hf
  · simpa only [if_neg hp] using hg

theorem EndsWith.status_eq {s t : State} {res : Result} {e : Status} {a : Response} (h : EndsWith s res e)
    (ht : res = .next t) (ha : t.resp = some a) : a.status = e := by
  obtain ⟨t', v, rfl, hv, -⟩ := h
  cases ht
  rw [hv] at ha
  cases ha
  rfl

/-- R210: on an error the next state is the state before with the answer. -/
theorem EndsWith.next_eq {s t : State} {res : Result} {e : Status} (h : EndsWith s res e) (he : e ≠ .ok)
    (ht : res = .next t) : t = s.withAnswer (.error e) := by
  obtain ⟨t', v, rfl, -, hnext⟩ := h
  cases ht
  exact hnext he

theorem EndsWith.eq_error_iff {s : State} {res : Result} {e d : Status} (h : EndsWith s res e) (hd : d ≠ .ok) :
    res = .next (s.withAnswer { status := d, result := 0 }) ↔ e = d := by
  constructor
  · intro hres
    exact (h.status_eq hres rfl).symm
  · rintro rfl
    obtain ⟨t, v, rfl, -, hnext⟩ := h
    exact congrArg _ (hnext hd)

/-! ## The status of a command -/

/-- R203, R208: the test of the operands stands before every other. -/
def operandStatus (bad : Prop) [Decidable bad] (rest : Status) : Status := if bad then .contract else rest

/-- R201: the test of a request for `n` bits. -/
def streamStatus (s : State) (n : Nat) : Status := if s.ravail < n then .eos else .ok

/-- R202: the test of a target. -/
def seekStatus (s : State) (n : Nat) : Status := if 8 * s.source.len < n then .range else .ok

/-- R201 to R203: the status each command answers in a state. `exec_endsWith` ties it to the engine. -/
def statusOf (s : State) : Instr → Status
  | .rpos | .ravail | .wpos | .wflush | .wskip _ => .ok
  | .rseek a => seekStatus s a.toNat
  | .rskip a => streamStatus s a.toNat
  | .ralign a => operandStatus (a.toNat = 0) (streamStatus s (alignDistance s.rpos a.toNat))
  | .readU ts w | .peekU ts w => operandStatus (widthOk (.unsigned ts) w = false) (streamStatus s w)
  | .readS ts w | .peekS ts w => operandStatus (widthOk (.signed ts) w = false) (streamStatus s w)
  | .readF32 w | .peekF32 w => operandStatus (widthOk .f32 w = false) (streamStatus s w)
  | .readF64 w | .peekF64 w => operandStatus (widthOk .f64 w = false) (streamStatus s w)
  | .writeU ts w _ => operandStatus (widthOk (.unsigned ts) w = false) .ok
  | .writeS ts w _ => operandStatus (widthOk (.signed ts) w = false) .ok
  | .writeF32 w _ => operandStatus (widthOk .f32 w = false) .ok
  | .writeF64 w _ => operandStatus (widthOk .f64 w = false) .ok
  | .walign a => operandStatus (a.toNat = 0) .ok
  | .mask w | .sext w _ => operandStatus (64 < w) .ok

/-- The 23 rows are the 14 commands of 30_encoding.md R82, with the value type as an operand of READ, PEEK and WRITE. -/
theorem byCommand {motive : Instr → Prop} (rpos : motive .rpos) (ravail : motive .ravail) (rseek : ∀ a, motive (.rseek a))
    (rskip : ∀ a, motive (.rskip a)) (ralign : ∀ a, motive (.ralign a)) (read : ∀ ty w, motive (readOf ty w))
    (peek : ∀ ty w, motive (peekOf ty w)) (wpos : motive .wpos) (write : ∀ ty w a, motive (writeOf ty w a))
    (wflush : motive .wflush) (wskip : ∀ a, motive (.wskip a)) (walign : ∀ a, motive (.walign a))
    (mask : ∀ w, motive (.mask w)) (sext : ∀ w a, motive (.sext w a)) (i : Instr) : motive i := by
  cases i with
  | rpos => exact rpos
  | ravail => exact ravail
  | rseek a => exact rseek a
  | rskip a => exact rskip a
  | ralign a => exact ralign a
  | readU ts w => exact read (.unsigned ts) w
  | readS ts w => exact read (.signed ts) w
  | readF32 w => exact read .f32 w
  | readF64 w => exact read .f64 w
  | peekU ts w => exact peek (.unsigned ts) w
  | peekS ts w => exact peek (.signed ts) w
  | peekF32 w => exact peek .f32 w
  | peekF64 w => exact peek .f64 w
  | wpos => exact wpos
  | writeU ts w a => exact write (.unsigned ts) w a
  | writeS ts w a => exact write (.signed ts) w a
  | writeF32 w a => exact write .f32 w a
  | writeF64 w a => exact write .f64 w a
  | wflush => exact wflush
  | wskip a => exact wskip a
  | walign a => exact walign a
  | mask w => exact mask w
  | sext w a => exact sext w a

@[simp] theorem statusOf_rpos (s : State) : statusOf s .rpos = .ok := rfl
@[simp] theorem statusOf_ravail (s : State) : statusOf s .ravail = .ok := rfl
@[simp] theorem statusOf_wpos (s : State) : statusOf s .wpos = .ok := rfl
@[simp] theorem statusOf_wflush (s : State) : statusOf s .wflush = .ok := rfl
@[simp] theorem statusOf_wskip (s : State) (a : Word) : statusOf s (.wskip a) = .ok := rfl

@[simp] theorem statusOf_rseek (s : State) (a : Word) : statusOf s (.rseek a) = seekStatus s a.toNat := rfl

@[simp] theorem statusOf_rskip (s : State) (a : Word) : statusOf s (.rskip a) = streamStatus s a.toNat := rfl

@[simp] theorem statusOf_ralign (s : State) (a : Word) :
    statusOf s (.ralign a) = operandStatus (a.toNat = 0) (streamStatus s (alignDistance s.rpos a.toNat)) := rfl

@[simp] theorem statusOf_walign (s : State) (a : Word) : statusOf s (.walign a) = operandStatus (a.toNat = 0) .ok := rfl

@[simp] theorem statusOf_mask (s : State) (w : Nat) : statusOf s (.mask w) = operandStatus (64 < w) .ok := rfl

@[simp] theorem statusOf_sext (s : State) (w : Nat) (a : Word) : statusOf s (.sext w a) = operandStatus (64 < w) .ok := rfl

@[simp] theorem statusOf_readOf (s : State) (ty : VType) (w : Nat) :
    statusOf s (readOf ty w) = operandStatus (widthOk ty w = false) (streamStatus s w) := by cases ty <;> rfl

@[simp] theorem statusOf_peekOf (s : State) (ty : VType) (w : Nat) :
    statusOf s (peekOf ty w) = operandStatus (widthOk ty w = false) (streamStatus s w) := by cases ty <;> rfl

@[simp] theorem statusOf_writeOf (s : State) (ty : VType) (w : Nat) (a : Word) :
    statusOf s (writeOf ty w a) = operandStatus (widthOk ty w = false) .ok := by cases ty <;> rfl

theorem EndsWith.operand {s : State} {bad : Prop} [Decidable bad] {f : Result} {e : Status} (hf : EndsWith s f e) :
    EndsWith s (if bad then raise .contract s else f) (operandStatus bad e) := (raise_endsWith .contract s).ite hf

/-- A stream check before a completion. -/
theorem stream_endsWith (s t : State) (n : Nat) (v : Word) :
    EndsWith s (if s.ravail < n then raise .eos s else complete v t) (streamStatus s n) :=
  (raise_endsWith .eos s).ite (complete_endsWith v s t)

/-- Every command ends with the status of R201 to R203, in every state. -/
theorem exec_endsWith (i : Instr) (s : State) : EndsWith s (exec i s) (statusOf s i) := by
  cases i using byCommand with
  | rpos => exact complete_endsWith _ s _
  | ravail => exact complete_endsWith _ s _
  | rseek a => exact (raise_endsWith .range s).ite (complete_endsWith _ s _)
  | rskip a => exact stream_endsWith s _ _ _
  | ralign a => exact (stream_endsWith s _ _ _).operand
  | read ty w => rw [exec_readOf, statusOf_readOf]; exact (stream_endsWith s _ _ _).operand
  | peek ty w => rw [exec_peekOf, statusOf_peekOf]; exact (stream_endsWith s _ _ _).operand
  | wpos => exact complete_endsWith _ s _
  | write ty w a => rw [exec_writeOf, statusOf_writeOf]; exact (complete_endsWith _ s _).operand
  | wflush =>
    show EndsWith s (execWflush s) .ok
    unfold execWflush
    split <;> exact complete_endsWith _ s _
  | wskip a => exact complete_endsWith _ s _
  | walign a => exact (complete_endsWith _ s _).operand
  | mask w => exact (complete_endsWith _ s _).operand
  | sext w a => exact (complete_endsWith _ s _).operand

theorem exec_eq_error_iff {e : Status} (he : e ≠ .ok) (i : Instr) (s : State) :
    exec i s = .next (s.withAnswer { status := e, result := 0 }) ↔ statusOf s i = e :=
  (exec_endsWith i s).eq_error_iff he

/-! ## When a status is answered -/

theorem operandStatus_eq_contract_iff {bad : Prop} [Decidable bad] {rest : Status} (h : rest ≠ .contract) :
    operandStatus bad rest = .contract ↔ bad := h.symm.ite_eq_left_iff

@[simp] theorem operandStatus_eq_iff {bad : Prop} [Decidable bad] {rest e : Status} (he : e ≠ .contract) :
    operandStatus bad rest = e ↔ ¬bad ∧ rest = e := by
  rw [operandStatus, ite_eq_iff]
  simp [he.symm]

@[simp] theorem streamStatus_eq_eos_iff {s : State} {n : Nat} : streamStatus s n = .eos ↔ s.ravail < n :=
  Ne.ite_eq_left_iff (by decide)

@[simp] theorem streamStatus_ne {s : State} {n : Nat} {e : Status} (hok : e ≠ .ok) (heos : e ≠ .eos) :
    streamStatus s n ≠ e := by
  unfold streamStatus
  split
  · exact heos.symm
  · exact hok.symm

@[simp] theorem seekStatus_eq_range_iff {s : State} {n : Nat} : seekStatus s n = .range ↔ 8 * s.source.len < n :=
  Ne.ite_eq_left_iff (by decide)

@[simp] theorem seekStatus_ne {s : State} {n : Nat} {e : Status} (hok : e ≠ .ok) (hrange : e ≠ .range) :
    seekStatus s n ≠ e := by
  unfold seekStatus
  split
  · exact hrange.symm
  · exact hok.symm

/-! The commands behind each error: the operands of `byCommand` that can reach it. -/

theorem eos_command {i : Instr} {s : State} (h : statusOf s i = .eos) :
    (∃ ty w, i = readOf ty w) ∨ (∃ ty w, i = peekOf ty w) ∨ (∃ n, i = .rskip n) ∨ ∃ n, i = .ralign n := by
  cases i using byCommand with
  | read ty w => exact .inl ⟨ty, w, rfl⟩
  | peek ty w => exact .inr (.inl ⟨ty, w, rfl⟩)
  | rskip n => exact .inr (.inr (.inl ⟨n, rfl⟩))
  | ralign n => exact .inr (.inr (.inr ⟨n, rfl⟩))
  | _ => simp at h

theorem range_command {i : Instr} {s : State} (h : statusOf s i = .range) :
    ∃ a, i = .rseek a ∧ 8 * s.source.len < a.toNat := by
  cases i using byCommand with
  | rseek a => exact ⟨a, rfl, seekStatus_eq_range_iff.1 h⟩
  | _ => simp at h

theorem contract_command {i : Instr} {s : State} (h : statusOf s i = .contract) :
    (∃ ty w, i = readOf ty w) ∨ (∃ ty w, i = peekOf ty w) ∨ (∃ ty w n, i = writeOf ty w n) ∨ (∃ w, i = .mask w) ∨
      (∃ w n, i = .sext w n) ∨ (∃ n, i = .ralign n) ∨ ∃ n, i = .walign n := by
  cases i using byCommand with
  | read ty w => exact .inl ⟨ty, w, rfl⟩
  | peek ty w => exact .inr (.inl ⟨ty, w, rfl⟩)
  | write ty w n => exact .inr (.inr (.inl ⟨ty, w, n, rfl⟩))
  | mask w => exact .inr (.inr (.inr (.inl ⟨w, rfl⟩)))
  | sext w n => exact .inr (.inr (.inr (.inr (.inl ⟨w, n, rfl⟩))))
  | ralign n => exact .inr (.inr (.inr (.inr (.inr (.inl ⟨n, rfl⟩)))))
  | walign n => exact .inr (.inr (.inr (.inr (.inr (.inr ⟨n, rfl⟩)))))
  | _ => simp at h

/-- R204, R206: a decoded command answers neither IOERR nor ILLEGAL. -/
theorem statusOf_ne {e : Status} (h : e = .ioerr ∨ e = .illegal) (i : Instr) (s : State) : statusOf s i ≠ e := by
  obtain ⟨hok, heos, hrange, hcontract⟩ : e ≠ .ok ∧ e ≠ .eos ∧ e ≠ .range ∧ e ≠ .contract := by
    rcases h with rfl | rfl <;> decide
  cases i using byCommand <;> simp [hok, hok.symm, heos, hrange, hcontract]

/-- Settles O17: the status is `statusOf`, command by command. -/
theorem statusesEachCommandCanAnswer : Obligations.StatusesEachCommandCanAnswer := by
  intro i s t a ht ha
  rw [(exec_endsWith i s).status_eq ht ha]
  refine ⟨statusOf_ne (.inl rfl) i s, statusOf_ne (.inr rfl) i s, eos_command,
    fun h => (range_command h).imp fun _ hr => hr.1, contract_command, ?_⟩
  rintro (rfl | rfl | rfl | rfl | ⟨n, rfl⟩) <;> rfl

/-- Settles O20: RSEEK's test, and `range_command` for the other commands. -/
theorem rangeExactlyBeyondStream : Obligations.RangeExactlyBeyondStream :=
  ⟨fun s a => (exec_eq_error_iff (by decide) _ s).trans seekStatus_eq_range_iff,
    fun i s _ _ ht hx hr => range_command (((exec_endsWith i s).status_eq ht hx).symm.trans hr)⟩

/-- Settles O19: the status is EOS when the operand passes its test and the stream check fails. -/
theorem endOfStreamExactlyBeyondAvailable : Obligations.EndOfStreamExactlyBeyondAvailable := by
  intro s ty w a
  have heos : ∀ i, exec i s = .next (s.withAnswer { status := .eos, result := 0 }) ↔ statusOf s i = .eos :=
    fun i => exec_eq_error_iff (by decide) i s
  refine ⟨(heos _).trans ?read, (heos _).trans ?peek, (heos _).trans ?rskip, (heos _).trans ?ralign⟩
  case read => simp
  case peek => simp
  case rskip => exact streamStatus_eq_eos_iff
  case ralign => simp [alignDistance, BitVec.toNat_eq]

/-- Settles O18: the operand test of each command stands first in `statusOf`, and what follows it is no CONTRACT. -/
theorem contractExactlyOnOperandRange : Obligations.ContractExactlyOnOperandRange := by
  intro s ts w a W hW
  have hcontract : ∀ i, exec i s = .next (s.withAnswer { status := .contract, result := 0 }) ↔ statusOf s i = .contract :=
    fun i => exec_eq_error_iff (by decide) i s
  have hoperand : ∀ {bad : Prop} [Decidable bad], operandStatus bad .ok = .contract ↔ bad :=
    operandStatus_eq_contract_iff (by decide)
  have hstream : ∀ {bad : Prop} [Decidable bad] {n : Nat}, operandStatus bad (streamStatus s n) = .contract ↔ bad :=
    operandStatus_eq_contract_iff (streamStatus_ne (by decide) (by decide))
  have hbits : W = vtypeBits (.unsigned ts) := by cases ts <;> exact hW
  have hu : widthOk (.unsigned ts) w = false ↔ W < w := hbits ▸ decide_eq_false_iff_not.trans Nat.not_le
  have hs : widthOk (.signed ts) w = false ↔ W < w := hu
  refine ⟨fun i hi => (hcontract i).trans ?integral, fun i hi => (hcontract i).trans ?f32,
    fun i hi => (hcontract i).trans ?f64, fun i hi => (hcontract i).trans ?helper,
    fun i hi => (hcontract i).trans ?align, fun i t x hi ht hx => ?others⟩
  case integral =>
    rcases hi with rfl | rfl | rfl | rfl | rfl | rfl
    · exact hstream.trans hu
    · exact hstream.trans hs
    · exact hstream.trans hu
    · exact hstream.trans hs
    · exact hoperand.trans hu
    · exact hoperand.trans hs
  case f32 =>
    have hf : widthOk .f32 w = false ↔ w ≠ 32 := decide_eq_false_iff_not
    rcases hi with rfl | rfl | rfl
    · exact hstream.trans hf
    · exact hstream.trans hf
    · exact hoperand.trans hf
  case f64 =>
    have hf : widthOk .f64 w = false ↔ w ≠ 64 := decide_eq_false_iff_not
    rcases hi with rfl | rfl | rfl
    · exact hstream.trans hf
    · exact hstream.trans hf
    · exact hoperand.trans hf
  case helper => rcases hi with rfl | rfl <;> exact hoperand
  case align =>
    have hzero : a.toNat = 0 ↔ a = 0 := BitVec.toNat_inj (y := 0)
    rcases hi with rfl | rfl
    · exact hstream.trans hzero
    · exact hoperand.trans hzero
  case others =>
    rw [(exec_endsWith i s).status_eq ht hx]
    rcases hi with rfl | rfl | rfl | rfl | rfl | rfl | rfl <;> simp

/-! ## Transactions -/

theorem runCommand_of_illegal {c : Cmd} {arg : Word} {why : Illegal} (h : decode c arg = .illegal why) (s : State) :
    runCommand c arg s = raise .illegal s := by
  simp only [runCommand, h]

/-- A transaction ends with a status too, and with ILLEGAL for a word the decoder rejects only (R204). -/
theorem runCommand_endsWith (c : Cmd) (arg : Word) (s : State) :
    ∃ e, EndsWith s (runCommand c arg s) e ∧ (e = .illegal → ∃ why, decode c arg = .illegal why) := by
  cases h : decode c arg with
  | instr i =>
    rw [runCommand_of_decode h]
    exact ⟨_, exec_endsWith i s, fun he => absurd he (statusOf_ne (.inr rfl) i s)⟩
  | illegal why =>
    rw [runCommand_of_illegal h]
    exact ⟨_, raise_endsWith .illegal s, fun _ => ⟨why, rfl⟩⟩

/-- Settles O8: a rejected word raises ILLEGAL, and `runCommand_endsWith` has no other cause of it. -/
theorem illegalWordAnswersIllegal : Obligations.IllegalWordAnswersIllegal := by
  refine fun s c arg => ⟨fun why h => runCommand_of_illegal h s, fun t a ht ha hill => ?_⟩
  obtain ⟨e, hend, hcause⟩ := runCommand_endsWith c arg s
  exact hcause ((hend.status_eq ht ha).symm.trans hill)

/-- Settles O15: R210 is a part of `EndsWith`. -/
theorem raisingWritesNoStateElement : Obligations.RaisingWritesNoStateElement := by
  intro s t c arg a ht ha hne
  obtain ⟨e, hend, -⟩ := runCommand_endsWith c arg s
  obtain rfl := hend.status_eq ht ha
  exact hend.next_eq hne ht

/-- What a local command sees and writes does not include the last answer, so it runs as if that had not been given. -/
theorem ActsOn.withAnswer {α β : Type} {view : State → α} {write : State → β → State} {f : State → Result}
    (hf : ActsOn view write f) {s : State} {x : Response} (hview : view (s.withAnswer x) = view s)
    (hwrite : ∀ b a, (write (s.withAnswer x) b).withAnswer a = (write s b).withAnswer a) : f (s.withAnswer x) = f s := by
  obtain ⟨act, hact⟩ := hf
  rw [hact, hact, hview, hwrite]

theorem exec_withAnswer (i : Instr) (s : State) (x : Response) : exec i (s.withAnswer x) = exec i s := by
  cases hr : i.isReader with
  | true => exact (exec_actsOnReader hr).withAnswer rfl fun _ _ => rfl
  | false =>
    cases hw : i.isWriter with
    | true => exact (exec_actsOnWriter hw).withAnswer rfl fun _ _ => rfl
    | false => exact (exec_actsOnNothing hr hw).withAnswer rfl fun _ _ => rfl

theorem runCommand_withAnswer (c : Cmd) (arg : Word) (s : State) (x : Response) :
    runCommand c arg (s.withAnswer x) = runCommand c arg s := by
  cases h : decode c arg with
  | instr i => rw [runCommand_of_decode h, runCommand_of_decode h, exec_withAnswer]
  | illegal why => rw [runCommand_of_illegal h, runCommand_of_illegal h, raise_eq, raise_eq, withAnswer_withAnswer]

/-- Settles O16: the failure leaves an answer only, and no transaction depends on it. -/
theorem errorLeavesNoTrace : Obligations.ErrorLeavesNoTrace := by
  intro s t c c' arg arg' a ht ha hne
  rw [raisingWritesNoStateElement s t c arg a ht ha hne, runCommand_withAnswer]

/-! ## The step -/

theorem runReset_next_iff {src : Source} {s : State} : (∃ t, runReset src s = .next t) ↔ src.legal = true := by
  unfold runReset
  split
  · exact iff_of_true ⟨_, rfl⟩ ‹_›
  · exact iff_of_false (fun ⟨_, ht⟩ => nomatch ht) ‹_›

/-- Settles O10: with an empty input there is no step, a transaction always ends, and a reset ends when its source is
legal. -/
theorem stepStopsOnlyWithoutLegalEvent : Obligations.StepStopsOnlyWithoutLegalEvent := by
  intro s
  cases hin : s.input with
  | nil => simp [step_idle hin]
  | cons e rest =>
    cases e with
    | command c arg =>
      obtain ⟨-, ⟨t, -, ht, -⟩, -⟩ := runCommand_endsWith c arg (s.withInput rest)
      exact iff_of_true ⟨t, (step_command hin).trans ht⟩ ⟨_, _, rfl, nofun⟩
    | reset src => simp [step_reset hin, runReset_next_iff]

end Sys2Proof.Machine

/-! Reset and termination (70_reset_and_hazards.md R230 to R232, R250): what a reset leaves in the machine, by event and by
register, and that no command leaves the host without an answer. -/

namespace Sys2Proof.Machine

/-! ## Termination -/

/-- 20_memory.md R51: the bound source and the events still to come are outside what any command writes. -/
theorem exec_frame {i : Instr} {s t : State} (ht : exec i s = .next t) : t.source = s.source ∧ t.input = s.input := by
  obtain ⟨a, -, rfl⟩ | ⟨v, r, -, -, rfl⟩ | ⟨w, -, -, rfl⟩ := exec_next ht
  · exact ⟨rfl, rfl⟩
  · exact ⟨rfl, rfl⟩
  · exact ⟨rfl, rfl⟩

/-- Settles O14: a command ends with its status, so it has a next state, and `exec_frame` speaks of that one. -/
theorem everyCommandAnswers : Obligations.EveryCommandAnswers := by
  intro i s
  obtain ⟨t, v, ht, hresp, -⟩ := exec_endsWith i s
  exact ⟨t, _, ht, hresp, exec_frame ht⟩

/-! ## Reset -/

theorem runReset_of_legal {src : Source} (h : src.legal = true) (s : State) :
    runReset src s = .next (resetEvent src s) := if_pos h

/-- Settles O9: the step is the reset event, which takes nothing but the events still to come from the state before. -/
theorem resetEventRebuildsEverything : Obligations.ResetEventRebuildsEverything := by
  intro s src rest hin hlegal
  calc step s = runReset src (s.withInput rest) := step_reset hin
    _ = .next (resetEvent src (s.withInput rest)) := runReset_of_legal hlegal _
    _ = .next ((State.resetOver src).withInput rest) := rfl

/-- R231: the initial fill is a refill at byte 0. -/
theorem resetReader_eq (src : Source) :
    resetReader src =
      { buf := BitVec.ofNat 64 (memRead src 0 (min 8 src.len)), shift := 8 * min 8 src.len, pos := min 8 src.len } := by
  rw [resetReader, refill_eq, Nat.sub_zero, Nat.zero_add]

/-- R231: the initial fill of an empty source loads nothing. -/
theorem resetReader_empty {src : Source} (h : src.len = 0) : resetReader src = { buf := 0, shift := 0, pos := 0 } :=
  refill_depleted src _ h.symm

/-- Settles O11: the reader is a refill at byte 0 with its cursor there, and the writer starts with no bit written. -/
theorem resetValues : Obligations.ResetValues := fun src =>
  ⟨resetReader_eq src, resetOver_rpos src, resetOver_ravail src, resetReader_empty, rfl, rfl⟩

end Sys2Proof.Machine
